-- ==== Sys2Proof/Word.lean ====
section
/-! DEFINITION. The two word types of the block (00_scope.md R8, R12). -/

namespace Sys2Proof

/-- `u32`: the contents of one hardware register (00_scope.md R8 `REG_WIDTH`). -/
abbrev Word := BitVec 32

/-- `u8`: one byte of the two-wire bus (00_scope.md R12). -/
abbrev Byte := BitVec 8

end Sys2Proof
end

