-- ==== Sys2Proof/Syntax.lean ====
section
/-! DEFINITION. The fourteen operations (30_encoding.md R170) and their encoded form: an 8-bit selector and one typed
argument record of ten formats (R165, R171). -/

namespace Sys2Proof

/-- The two window slots (10_state.md R41); in an argument record GPIO = 0 and BSC = 1 (30_encoding.md R165). -/
inductive WindowKind where
  | gpio
  | bsc
deriving DecidableEq, Repr

/-- One operation of the block's interface with its arguments, one constructor per row of the operation map
(30_encoding.md R170). Offsets, shapes, pins, lengths and device addresses are unbounded (R165): an out-of-range
argument can be written down, and its operation refuses or faults. -/
inductive Instr where
  | map (kind : WindowKind)
  | unmap (kind : WindowKind)
  | readWord (kind : WindowKind) (offset : Nat)
  | writeWord (kind : WindowKind) (offset : Nat) (value : Word)
  | setBits (kind : WindowKind) (offset : Nat) (mask : Word)
  | clearBits (kind : WindowKind) (offset : Nat) (mask : Word)
  | getField (kind : WindowKind) (offset lsb width : Nat)
  | setField (kind : WindowKind) (offset lsb width : Nat) (value : Word)
  | delayUs (us : Nat)
  | configureAsInput (pin : Int)
  | readPin (pin : Int)
  | enablePullups (mask : Word)
  | busWrite (dev : Nat) (reg : Byte) (buf : List Byte)
  | busRead (dev : Nat) (reg : Byte) (len : Nat)
deriving DecidableEq, Repr

/-- The ten argument records, one constructor per format (30_encoding.md R165). -/
inductive Args where
  | k (kind : WindowKind)
  | ko (kind : WindowKind) (offset : Nat)
  | kov (kind : WindowKind) (offset : Nat) (value : Word)
  | kof (kind : WindowKind) (offset lsb width : Nat)
  | kofv (kind : WindowKind) (offset lsb width : Nat) (value : Word)
  | p (pin : Int)
  | m (mask : Word)
  | us (us : Nat)
  | bw (dev : Nat) (reg : Byte) (buf : List Byte)
  | br (dev : Nat) (reg : Byte) (len : Nat)
deriving DecidableEq, Repr

/-- An operation as it is encoded: "its selector followed by the argument record" (30_encoding.md R175). -/
structure Call where
  selector : Byte
  args : Args
deriving DecidableEq, Repr

end Sys2Proof
end

