-- ==== Sys2Proof/Machine/Event.lean ====
section
/-! DEFINITION. Results, errors and the events of the history (10_state.md R67; 60_exceptions.md R340, R341). -/

namespace Sys2Proof.Machine

/-- The error results (60_exceptions.md R340), and the two reserved names no rule produces (R341). -/
inductive ErrCode where
  | mapError
  | payloadTooLarge
  | busTimeout
  | invalidConfig
  | allocationFailure
deriving DecidableEq, Repr

/-- The numeric error codes (60_exceptions.md R340, R341). -/
def ErrCode.code : ErrCode → Nat
  | .mapError => 1
  | .payloadTooLarge => 2
  | .busTimeout => 3
  | .invalidConfig => 4
  | .allocationFailure => 5

/-- The value an `Ok` result carries. -/
inductive Value where
  /-- plain `Ok` -/
  | unit
  /-- `map`: the new window's handle (40_register_window.md R201) -/
  | handle (kind : WindowKind) (gen : Nat)
  /-- `read_word`, `get_field`, `bus_write` (a register word or the last status sample) -/
  | word (v : Word)
  /-- `read_pin`: true is pressed (41_gpio_fields.md R256) -/
  | bool (b : Bool)
  /-- `bus_read`: the buffer, the count of bytes received and the last status sample (42_bus_engine.md R302) -/
  | bytes (rbuf : List Byte) (got : Nat) (s : Word)
deriving DecidableEq, Repr

/-- What an operation returns to its client (00_scope.md R13). -/
inductive Result where
  | ok (v : Value)
  | err (e : ErrCode)
deriving DecidableEq, Repr

/-- Direction of a register access. -/
inductive Dir where
  | read
  | write
deriving DecidableEq, Repr

/-- One entry of the event history (10_state.md R67). A client is its index. -/
inductive Event where
  | access (client : Nat) (kind : WindowKind) (offset : Nat) (dir : Dir) (value : Word)
  | delay (client : Nat) (us : Nat)
  | start (client : Nat) (op : Instr)
  | done (client : Nat) (op : Instr) (result : Result)
deriving DecidableEq, Repr

end Sys2Proof.Machine
end

