-- ==== Sys2Proof/Config.lean ====
section
/-! DEFINITION. What is fixed for the machine (00_scope.md R8, R9) and the free values: what the spec leaves open is an
opaque constant with no body, so no proof can depend on a value of it. The open parameters that are numbers
(`PERI_BASE`, `POLL_BUDGET`, `DEVICE`, `CLIENTS`; 00_scope.md R10) are fields of State (log 1, log 2), so that a
statement about every state holds for every value of them. -/

namespace Sys2Proof.Config

/-- Depth of each controller FIFO (00_scope.md R8 `FIFO_DEPTH`). -/
abbrev fifoDepth : Nat := 16
/-- The length domain of a buffer (00_scope.md R8 `LEN_MAX`). -/
abbrev lenMax : Nat := 65535
/-- Words in the GPIO span (00_scope.md R9 `GPIO_SPAN_WORDS`). -/
abbrev gpioSpanWords : Nat := 44
/-- Words in the BSC span (00_scope.md R9 `BSC_SPAN_WORDS`). -/
abbrev bscSpanWords : Nat := 8
/-- `GPIO_OFFSET` (00_scope.md R9; 20_memory.md R111). -/
abbrev gpioOffset : Word := 0x00200000#32
/-- `BSC_OFFSET` (00_scope.md R9; 20_memory.md R111). -/
abbrev bscOffset : Word := 0x00804000#32
/-- `PIN_COUNT` (00_scope.md R9). -/
abbrev pinCount : Nat := 54
/-- `DEV_ADDR_WIDTH` (00_scope.md R9). -/
abbrev devAddrWidth : Nat := 7
/-- FREE VALUE (DESIGN CHOICE, safe, log 4): the device oracle's answer to a register read, a function of the event
history, the reading client, the register and a free choice (10_state.md R60). -/
opaque answer (hist : List Machine.Event) (client : Nat) (kind : WindowKind) (offset choice : Nat) : Word

/-- FREE VALUE (DESIGN CHOICE, safe, log 5): the platform's answer to a map request, true for OK
(40_register_window.md R201 `MAP_ORACLE`). -/
opaque mapAnswer (hist : List Machine.Event) (kind : WindowKind) (base : Word) (bytes choice : Nat) : Bool

/-- FREE VALUE (DESIGN CHOICE, safe, log 6): which of the clients with a step moves next (20_memory.md R117,
70_reset_and_hazards.md R411). -/
opaque turn (hist : List Machine.Event) (choice : Nat) : Nat

end Sys2Proof.Config
end

