-- ==== Sys2Proof/Machine/State.lean ====
section
/-! DEFINITION. The machine's state (10_state.md R40 to R69), its value at driver load (R90), and how a step of the
machine itself can stop. -/

namespace Sys2Proof.Machine

/-! ### Sparse tables: a list of (key, value) pairs in one canonical form, keys strictly rising -/

/-- Keys strictly rising, so that equal tables are equal lists. -/
abbrev Rising {α : Type} (l : List (Nat × α)) : Prop := l.Pairwise (fun a b => a.1 < b.1)

/-- A register store: word offset to the last word written (10_state.md R61). An offset not listed was not written. -/
abbrev Store := List (Nat × Word)

/-- A reference target's byte registers (42_bus_engine.md R320). An address not listed reads 0 (log 24). -/
abbrev Memory := List Host.Cell

/-- The canonical form of byte memory: addresses strictly rising, no entry equal to what an unlisted address reads as. -/
abbrev Memory.wf (m : Memory) : Prop := Rising m ∧ ∀ c ∈ m, c.2 ≠ 0#8

/-! ### Windows -/

/-- One window slot (10_state.md R41). -/
structure Window where
  mapped : Bool
  base : Word
  size : Nat
  gen : Nat
deriving DecidableEq, Repr

/-- The two slots `win[GPIO]` and `win[BSC]` (10_state.md R41). -/
structure Windows where
  gpio : Window
  bsc : Window
deriving DecidableEq, Repr

/-! ### Device state -/

/-- A pin's latched pull configuration (10_state.md R63). -/
inductive PullState where
  | off | down | up | unknown
deriving DecidableEq, Repr

/-- Progress of the pull handshake (10_state.md R64). A code of `none` is the spec's UNKNOWN. -/
inductive PudPhase where
  | none
  | sel (code : Option (BitVec 2)) (settled1 : Bool)
  | clk (code : Option (BitVec 2)) (mask : Word) (settled1 settled2 : Bool)
deriving DecidableEq, Repr

/-- How a reference target answers (42_bus_engine.md R320). -/
inductive TargetMode where
  | ack | stall | stretch
deriving DecidableEq, Repr

/-- A reference target (42_bus_engine.md R320, R327). -/
structure Target where
  regs : Memory
  ptr : Byte
  mode : TargetMode
deriving DecidableEq, Repr

/-- The reference controller's state (42_bus_engine.md R320). -/
structure BscRef where
  c : Word
  dlen : BitVec 16
  a : BitVec 7
  txq : List Byte
  rxq : List Byte
  ta : Bool
  done : Bool
  err : Bool
  clkt : Bool
  rd : Bool
  rem : Nat
  first : Bool
  cur : BitVec 7
  tgt : List (Nat × Target)
deriving DecidableEq, Repr

/-- What stands behind the spans (10_state.md R60 to R66). `levels`, `gpioStart` and `bsc` are read only under
`DEVICE = REFERENCE`. -/
structure DeviceState where
  /-- `dev.store[GPIO]` (R61) -/
  gpioStore : Store
  /-- `dev.store[BSC]` (R61) -/
  bscStore : Store
  /-- `dev.pull`, pin 0 first (R63) -/
  pull : List PullState
  /-- `dev.pud` (R64) -/
  pud : PudPhase
  /-- the harness's pin levels, bit p for pin p (41_gpio_fields.md R265) -/
  levels : BitVec 54
  /-- the harness's start values of GPIO registers, by word offset (41_gpio_fields.md R265) -/
  gpioStart : Store
  /-- the reference controller (42_bus_engine.md R320) -/
  bsc : BscRef
deriving DecidableEq, Repr

/-! ### The engine -/

/-- The sequencer's positions (42_bus_engine.md R284). -/
inductive Phase where
  | idle
  | wA | wDlen | wFifo (i : Nat) | wClr | wGo | wWait
  | rDlen | rClr | rGo | rWait | rCpoll | rCfifo | rDpoll | rFpoll | rFfifo
  | abC | abS
  | endOk | endTimeout | endErr
deriving DecidableEq, Repr

/-- The direction of the bus call in flight (10_state.md R46). -/
inductive BusDir where
  | write | read
deriving DecidableEq, Repr

/-- The engine record (10_state.md R46). -/
structure Engine where
  phase : Phase
  owner : Option Nat
  dir : BusDir
  sel : Bool
  dev : Byte
  reg : Byte
  wbuf : List Byte
  len : BitVec 16
  rbuf : List Byte
  idx : Nat
  polls : Nat
  s : Word
deriving DecidableEq, Repr

/-! ### Faults and refusals of the block: they are recorded in the state, and the machine goes on (log 9) -/

/-- The sticky fault codes (60_exceptions.md R345). -/
inductive FaultCode where
  | offsetOutOfRange | windowNotMapped | busConflict | unmapInFlight
deriving DecidableEq, Repr

/-- The `info` of a fault (60_exceptions.md R345). -/
inductive FaultInfo where
  /-- `(kind, o)` -/
  | register (kind : WindowKind) (offset : Nat)
  /-- `(kind)` -/
  | window (kind : WindowKind)
  /-- `(c)` -/
  | client (c : Nat)
  /-- `(kind, d)`; `d` is none only where the engine is busy and has no owner, which no run reaches (log 27) -/
  | user (kind : WindowKind) (d : Option Nat)
deriving DecidableEq, Repr

/-- An entry of `faults` (10_state.md R68). -/
structure FaultRecord where
  client : Nat
  code : FaultCode
  info : FaultInfo
deriving DecidableEq, Repr

/-- The refusals (60_exceptions.md R347). -/
inductive RefusalReason where
  | badPin | badDevAddr | badLength | badFieldShape | valueTooWide | reservedWrite | badSelector
deriving DecidableEq, Repr

/-- Why a client's operation stops: `raise` or `refuse` (00_scope.md R13). -/
inductive Stop where
  | fault (code : FaultCode) (info : FaultInfo)
  | refuse (reason : RefusalReason)
deriving DecidableEq, Repr

/-! ### Clients -/

/-- A client agent (10_state.md R54: `op` and `step`). `val`, `stopped` and `prog` are the model's own: the value the
operation's last read returned (log 18), the stop after which the client has no further step (R345, R347; log 9), and
the calls it will still issue (log 7). -/
structure ClientState where
  op : Option Instr
  step : Nat
  val : Word
  stopped : Option Stop
  prog : List Call
deriving DecidableEq, Repr

/-! ### Parameters and inputs -/

/-- `LOOSE` is the normative oracle, `REFERENCE` the simulated device (10_state.md R60). -/
inductive DeviceConfig where
  | loose | reference
deriving DecidableEq, Repr

/-- What `clear_bits` and `configure_as_input` write to a reserved bit of the register they read: 0 (10_state.md R58;
30_encoding.md R173), or the bit as it was read (40_register_window.md R210; 41_gpio_fields.md R250). The spec says both,
and the model leaves it open (log 28). -/
inductive ReservedBits where
  | zero | asRead
deriving DecidableEq, Repr

/-- The open parameters, fixed for a run (00_scope.md R10; log 1). `reservedBits` is the model's own (log 28). -/
structure Params where
  device : DeviceConfig
  reservedBits : ReservedBits
  periBase : Word
  pollBudget : Nat
  rdmRate : Nat
deriving DecidableEq, Repr

/-- The model's own inputs from outside the machine: queued answers and turns a harness supplies, and the counter that
makes each free value fresh (log 4, log 5, log 6). -/
structure Env where
  answers : List Word
  mapAnswers : List Bool
  turns : List Nat
  draws : Nat
deriving DecidableEq, Repr

/-! ### The state -/

/-- The state record (10_state.md R40), with the parameters, the acting client and the inputs. -/
structure State where
  win : Windows
  dev : DeviceState
  eng : Engine
  clients : List ClientState
  hist : List Event
  faults : List FaultRecord
  refused : Bool
  par : Params
  cur : Nat
  env : Env
deriving DecidableEq, Repr

/-- How the machine itself stops: only where the spec gives no step at all (log 10). The block's own faults are in
`State.faults`. -/
inductive Fault where
  /-- Raised by `step`: no client of `CLIENTS` has a step; every one has stopped or has nothing left to issue. Safe. -/
  | noRunnableClient
  /-- Raised by `exec`: the acting client is not in `CLIENTS`; `step` never asks for it. Safe. -/
  | noSuchClient
  /-- Raised by `exec`: the acting client faulted or was refused, and has no further step (60_exceptions.md R345, R347);
  `step` never asks for it. Safe. -/
  | clientStopped
  /-- Raised by `exec`: the acting client is in another operation, and only a client between operations may start one
  (10_state.md R54); `step` never asks for it. Safe. -/
  | otherOperationInProgress
  /-- Raised by `exec` of a bus operation in progress: the acting client does not hold the engine, or the engine is
  idle, so the engine has no step for it (42_bus_engine.md R284); no run reaches it. Safe. -/
  | engineNotHeld
deriving DecidableEq, Repr

/-- No meaning for the instruction. The block's own refusals are the mark `State.refused`. -/
inductive Refusal where
  /-- Raised by a refused arm of `exec`: an instruction the model gives no meaning; no arm is one. Safe. -/
  | notModelled (mnemonic : String)
deriving DecidableEq, Repr

/-- A client at driver load (10_state.md R90). -/
def ClientState.reset : ClientState :=
  { op := none, step := 0, val := 0#32, stopped := none, prog := [] }

/-- The engine at driver load (10_state.md R90). The fields R90 gives no value hold the values of log 3. -/
def Engine.reset : Engine :=
  { phase := .idle, owner := none, dir := .write, sel := false, dev := 0#8, reg := 0#8, wbuf := [], len := 0#16
    rbuf := [], idx := 0, polls := 0, s := 0#32 }

/-- The reference controller's initial state (42_bus_engine.md R320); `rd`, `first`, `cur` and `tgt` by log 17. -/
def BscRef.reset : BscRef :=
  { c := 0#32, dlen := 0#16, a := 0#7, txq := [], rxq := [], ta := false, done := false, err := false, clkt := false
    rd := false, rem := 0, first := false, cur := 0#7, tgt := [] }

/-- The device state at driver load (10_state.md R90); `levels` and `gpioStart` by log 17. -/
def DeviceState.reset : DeviceState :=
  { gpioStore := [], bscStore := [], pull := List.replicate 54 .unknown, pud := .none, levels := 0#54, gpioStart := []
    bsc := BscRef.reset }

/-- The parameters of the reset state (log 1, log 28). -/
def Params.reset : Params :=
  { device := .loose, reservedBits := .zero, periBase := 0x20000000#32, pollBudget := 64, rdmRate := 1 }

/-- The state at driver load, before the first operation (10_state.md R90; 70_reset_and_hazards.md R390). The
bases are sums of 32 bits (log 33). -/
def State.reset : State :=
  { win :=
      { gpio := { mapped := false, base := Params.reset.periBase + Config.gpioOffset, size := Config.gpioSpanWords, gen := 0 }
        bsc := { mapped := false, base := Params.reset.periBase + Config.bscOffset, size := Config.bscSpanWords, gen := 0 } }
    dev := DeviceState.reset
    eng := Engine.reset
    clients := [ClientState.reset, ClientState.reset]
    hist := []
    faults := []
    refused := false
    par := Params.reset
    cur := 0
    env := { answers := [], mapAnswers := [], turns := [], draws := 0 } }

end Sys2Proof.Machine
end

