-- ==== Sys2Proof/Machine/Cells.lean ====
section
/-! DEFINITION. Sparse tables in canonical form: register stores keyed by word offset (10_state.md R61) and the byte
registers of a reference target (42_bus_engine.md R320). -/

namespace Sys2Proof.Machine

/-- The value listed under a key. -/
def Cells.get? {α : Type} : List (Nat × α) → Nat → Option α
  | [], _ => none
  | (j, w) :: rest, k => if j = k then some w else Cells.get? rest k

/-- List a value under a key, at the key's place. -/
def Cells.put {α : Type} : List (Nat × α) → Nat → α → List (Nat × α)
  | [], k, v => [(k, v)]
  | (j, w) :: rest, k, v =>
    if k < j then (k, v) :: (j, w) :: rest
    else if k = j then (k, v) :: rest
    else (j, w) :: Cells.put rest k v

/-- Take a key out. -/
def Cells.erase {α : Type} : List (Nat × α) → Nat → List (Nat × α)
  | [], _ => []
  | (j, w) :: rest, k => if j = k then rest else (j, w) :: Cells.erase rest k

/-- Read one byte; an unlisted address reads 0 (log 24). -/
def Memory.read (m : Memory) (a : Nat) : Byte := (Cells.get? m a).getD 0#8

/-- Write one byte; writing what an unlisted address reads as takes the entry out. -/
def Memory.write (m : Memory) (a : Nat) (b : Byte) : Memory :=
  if b = 0#8 then Cells.erase m a else Cells.put m a b

end Sys2Proof.Machine
end

