-- ==== Sys2Proof/Machine/Registers.lean ====
section
/-! DEFINITION. The register maps of the two spans: offsets, access classes, writable masks, datasheet reset values and
the control words (30_encoding.md R141 to R160; 40_register_window.md R206). -/

namespace Sys2Proof.Machine

/-! ### Word offsets -/

/-- `off(GPIO.GPLEV0)` (30_encoding.md R141). -/
abbrev offGplev0 : Nat := 13
/-- `off(GPIO.GPPUD)`, the select register (30_encoding.md R141). -/
abbrev offGppud : Nat := 37
/-- `off(GPIO.GPPUDCLK0)`, the mask register (30_encoding.md R141). -/
abbrev offGppudclk0 : Nat := 38
/-- `off(BSC.C)` (30_encoding.md R150). -/
abbrev offC : Nat := 0
/-- `off(BSC.S)` (30_encoding.md R150). -/
abbrev offS : Nat := 1
/-- `off(BSC.DLEN)` (30_encoding.md R150). -/
abbrev offDlen : Nat := 2
/-- `off(BSC.A)` (30_encoding.md R150). -/
abbrev offA : Nat := 3
/-- `off(BSC.FIFO)` (30_encoding.md R150). -/
abbrev offFifo : Nat := 4

/-! ### Control words and codes -/

/-- `START_WRITE`: I2CEN, ST (30_encoding.md R157). -/
def startWrite : Word := 0x8080#32
/-- `START_READ`: I2CEN, ST, CLEAR, READ (30_encoding.md R157). -/
def startRead : Word := 0x8091#32
/-- `ABORT_CTRL`: CLEAR (30_encoding.md R157). -/
def abortCtrl : Word := 0x0010#32
/-- `CLEAR_STATUS`: CLKT, ERR, DONE (30_encoding.md R158). -/
def clearStatus : Word := 0x0302#32
/-- `PUD_UP`, the select code for pull-up (30_encoding.md R145). -/
def pudUp : Word := 2#32
/-- `PULL_SETTLE_US` (00_scope.md R8; 92_eei_decisions.md D24). -/
abbrev pullSettleUs : Nat := 10

/-! ### Access classes -/

/-- The access classes (10_state.md R57). -/
inductive RegClass where
  | store | volatile | readOnly | reserved
deriving DecidableEq, Repr

/-- The GPIO span's classes (30_encoding.md R141): the mode words 0 to 5 and the two pull registers are STORE, the level
words READ_ONLY, every other offset RESERVED. -/
def gpioClass (o : Nat) : RegClass :=
  if o ≤ 5 ∨ o = 37 ∨ o = 38 then .store
  else if o = 13 ∨ o = 14 then .readOnly
  else .reserved

/-- The BSC span's classes (30_encoding.md R150): C and A are STORE, S, DLEN and FIFO VOLATILE, the clock registers
RESERVED. -/
def bscClass (o : Nat) : RegClass :=
  if o = 0 ∨ o = 3 then .store
  else if o = 1 ∨ o = 2 ∨ o = 4 then .volatile
  else .reserved

/-- `class(kind, o)` (40_register_window.md R205). -/
def regClass : WindowKind → Nat → RegClass
  | .gpio, o => gpioClass o
  | .bsc, o => bscClass o

/-- `writable(kind, o)`: the non-reserved, stored bits of a STORE register (40_register_window.md R206). -/
def writable : WindowKind → Nat → Word
  | .gpio, o =>
    if o ≤ 4 then 0x3FFFFFFF#32
    else if o = 5 then 0x00000FFF#32
    else if o = 37 then 0x00000003#32
    else if o = 38 then 0xFFFFFFFF#32
    else 0#32
  | .bsc, o =>
    if o = 0 then 0x00008701#32
    else if o = 3 then 0x0000007F#32
    else 0#32

/-- The bits of a register that are not reserved: of the mode words (30_encoding.md R142), the level words (R144), the
pull registers (R145, R146) and `BSC.C`, `S`, `DLEN`, `A` and `FIFO` (R151 to R155). An offset of class RESERVED has no
such bits to tell apart, and no write of it is made. -/
def fieldBits : WindowKind → Nat → Word
  | .gpio, o =>
    if o ≤ 4 then 0x3FFFFFFF#32
    else if o = 5 then 0x00000FFF#32
    else if o = 14 then 0x003FFFFF#32
    else if o = 37 then 0x00000003#32
    else 0xFFFFFFFF#32
  | .bsc, o =>
    if o = 0 then 0x000087B1#32
    else if o = 1 then 0x000003FF#32
    else if o = 2 then 0x0000FFFF#32
    else if o = 3 then 0x0000007F#32
    else if o = 4 then 0x000000FF#32
    else 0xFFFFFFFF#32

/-- The datasheet reset values of the BSC clock registers, which the reference device answers (30_encoding.md R150;
42_bus_engine.md R324). -/
def bscClockReset (o : Nat) : Word :=
  if o = 5 then 0x000005DC#32
  else if o = 6 then 0x00300030#32
  else if o = 7 then 0x00000040#32
  else 0#32

/-- The physical byte address of word offset `o` of a window (20_memory.md R104, R114). DESIGN CHOICE, log 33: it is a
natural number and does not wrap at 2^32. -/
def Window.addr (w : Window) (o : Nat) : Nat := w.base.toNat + 4 * o

end Sys2Proof.Machine
end

