-- ==== Sys2Proof/Machine/Operands.lean ====
section
/-! DEFINITION. Operand assembly (30_encoding.md R142, R144, R166 to R169) and the operand refusals each operation's
start step runs, in the order its rule lists them (60_exceptions.md R347, R348). -/

namespace Sys2Proof.Machine

/-- `field_mask(lsb, width)`, computed in Nat and taken as a u32 (30_encoding.md R166). -/
def fieldMask (lsb width : Nat) : Word := BitVec.ofNat 32 ((2 ^ width - 1) * 2 ^ lsb)

/-- A field's value, zero-extended (30_encoding.md R168; 40_register_window.md R213). -/
def fieldGet (x : Word) (lsb width : Nat) : Word := (x >>> lsb) &&& BitVec.ofNat 32 (2 ^ width - 1)

/-- A word with one field replaced (40_register_window.md R214). -/
def fieldSet (x : Word) (lsb width : Nat) (v : Word) : Word := (x &&& ~~~fieldMask lsb width) ||| (v <<< lsb)

/-- `fsel_word(p)` (30_encoding.md R142, R167). -/
def fselWord (p : Nat) : Nat := p / 10

/-- `fsel_mask(p)` (30_encoding.md R142, R167). -/
def fselMask (p : Nat) : Word := fieldMask (3 * (p % 10)) 3

/-- `lev_word(p)` (30_encoding.md R144, R167). -/
def levWord (p : Nat) : Nat := offGplev0 + p / 32

/-- `lev_bit(p)` (30_encoding.md R144, R167). -/
def levBit (p : Nat) : Nat := p % 32

/-- The active-low inversion: a level bit of 0 is pressed (41_gpio_fields.md R255, R256). -/
def pressed (v : Word) (p : Nat) : Bool := !v.getLsbD (levBit p)

/-- `zext_32` of a byte (00_scope.md R12; 20_memory.md R102). -/
def zextByte (b : Byte) : Word := b.setWidth 32

/-- `trunc_8` (00_scope.md R12; 20_memory.md R102). -/
def truncByte (v : Word) : Byte := v.setWidth 8

/-- The pin check (41_gpio_fields.md R250, R252, R255). -/
def checkPin (p : Int) : Option RefusalReason :=
  if 0 ≤ p ∧ p < Config.pinCount then none else some .badPin

/-- The shape check (40_register_window.md R212). -/
def checkShape (lsb width : Nat) : Option RefusalReason :=
  if 1 ≤ width ∧ lsb + width ≤ 32 then none else some .badFieldShape

/-- The shape check, then the value check (40_register_window.md R214, R215). -/
def checkFieldValue (lsb width : Nat) (v : Word) : Option RefusalReason :=
  if 1 ≤ width ∧ lsb + width ≤ 32 then
    if v.toNat < 2 ^ width then none else some .valueTooWide
  else some .badFieldShape

/-- The device address check, then the length check of a write (42_bus_engine.md R290, R300). -/
def checkBusWrite (dev : Nat) (buf : List Byte) : Option RefusalReason :=
  if dev < 2 ^ Config.devAddrWidth then
    if buf.length ≤ Config.lenMax then none else some .badLength
  else some .badDevAddr

/-- The device address check, then the length check of a read (42_bus_engine.md R295, R300). -/
def checkBusRead (dev len : Nat) : Option RefusalReason :=
  if dev < 2 ^ Config.devAddrWidth then
    if 1 ≤ len ∧ len ≤ Config.lenMax then none else some .badLength
  else some .badDevAddr

/-- The span a window operation or GPIO operation works on: the kind it names, or GPIO (40_register_window.md R203).
`delay_us` works on none, and a bus operation is no window operation. -/
def windowOf : Instr → Option WindowKind
  | .map kind => some kind
  | .unmap kind => some kind
  | .readWord kind _ => some kind
  | .writeWord kind _ _ => some kind
  | .setBits kind _ _ => some kind
  | .clearBits kind _ _ => some kind
  | .getField kind _ _ _ => some kind
  | .setField kind _ _ _ _ => some kind
  | .delayUs _ => none
  | .configureAsInput _ => some .gpio
  | .readPin _ => some .gpio
  | .enablePullups _ => some .gpio
  | .busWrite _ _ _ => none
  | .busRead _ _ _ => none

/-- A bus operation. -/
def isBusOp : Instr → Bool
  | .busWrite _ _ _ => true
  | .busRead _ _ _ => true
  | .map _ => false
  | .unmap _ => false
  | .readWord _ _ => false
  | .writeWord _ _ _ => false
  | .setBits _ _ _ => false
  | .clearBits _ _ _ => false
  | .getField _ _ _ _ => false
  | .setField _ _ _ _ _ => false
  | .delayUs _ => false
  | .configureAsInput _ => false
  | .readPin _ => false
  | .enablePullups _ => false

/-- "Touching kind" (40_register_window.md R203). DEDUCED, log 32: an operation in progress touches its span until it
completes, whether or not it has an access left, and `map` and `unmap` of the span touch it (log 13). -/
def touches (i : Instr) (kind : WindowKind) : Bool :=
  decide (windowOf i = some kind) || (isBusOp i && decide (kind = .bsc))

end Sys2Proof.Machine
end

