-- ==== Sys2Proof/Machine/Pull.lean ====
section
/-! DEFINITION. The pull handshake (41_gpio_fields.md R262), moved by every write of GPPUD or GPPUDCLK0 and by every
settling delay, under both device configurations. -/

namespace Sys2Proof.Machine

/-- `PUD`, bits 1:0 of the select register (30_encoding.md R145). -/
def pudCode (v : Word) : BitVec 2 := v.setWidth 2

/-- `decode(code)` (41_gpio_fields.md R262). -/
def pullOfCode : Option (BitVec 2) → PullState
  | some 0b00#2 => .off
  | some 0b01#2 => .down
  | some 0b10#2 => .up
  | some _ => .unknown
  | none => .unknown

/-- A write of the select register (41_gpio_fields.md R262). -/
def pudSelect (v : Word) : PudPhase → PudPhase
  | .none => .sel (some (pudCode v)) false
  | .sel _ _ => .sel (some (pudCode v)) false
  | .clk c m s1 s2 => .clk c m s1 s2

/-- A delay of `us` by any client (41_gpio_fields.md R262). -/
def pudSettle (us : Nat) (p : PudPhase) : PudPhase :=
  if pullSettleUs ≤ us then
    match p with
    | .none => .none
    | .sel c _ => .sel c true
    | .clk c m s1 _ => .clk c m s1 true
  else p

/-- A non-zero write of the mask register; `stored` is the select register's stored code (41_gpio_fields.md R262). -/
def pudMask (v : Word) (stored : Option (BitVec 2)) : PudPhase → PudPhase
  | .none => .clk stored v false false
  | .sel c s1 => .clk c v s1 false
  | .clk c _ _ _ => .clk c v false false

/-- Latch: pins whose mask bit is 1 take the new state; the list begins with pin `p`. -/
def latchPins (m : Word) (new : PullState) : Nat → List PullState → List PullState
  | _, [] => []
  | p, x :: rest => (if m.getLsbD p then new else x) :: latchPins m new (p + 1) rest

/-- A write of the mask register: a mask starts the handshake, zero latches it (41_gpio_fields.md R262). -/
def DeviceState.writeMask (d : DeviceState) (v : Word) : DeviceState :=
  if v = 0#32 then
    match d.pud with
    | .clk c m s1 s2 =>
      { d with pull := latchPins m (if s1 && s2 then pullOfCode c else .unknown) 0 d.pull, pud := .none }
    | .none => d
    | .sel _ _ => d
  else { d with pud := pudMask v ((Cells.get? d.gpioStore offGppud).map pudCode) d.pud }

/-- A write of the select register. -/
def DeviceState.writeSelect (d : DeviceState) (v : Word) : DeviceState := { d with pud := pudSelect v d.pud }

/-- A delay. -/
def DeviceState.settle (d : DeviceState) (us : Nat) : DeviceState := { d with pud := pudSettle us d.pud }

/-- A pin's latched pull. -/
def DeviceState.pullOf (d : DeviceState) (p : Nat) : PullState := d.pull.getD p .unknown

end Sys2Proof.Machine
end

