-- ==== Sys2Proof/Machine/Flags.lean ====
section
/-! DEFINITION. The status flags of `BSC.S` and the fields of `BSC.C` (30_encoding.md R151, R152). The block has no
condition codes of its own (10_state.md R55). -/

namespace Sys2Proof.Machine

/-- `S.CLKT` (30_encoding.md R152). -/
def flagClkt (s : Word) : Bool := s.getLsbD 9
/-- `S.ERR`. -/
def flagErr (s : Word) : Bool := s.getLsbD 8
/-- `S.RXD`. -/
def flagRxd (s : Word) : Bool := s.getLsbD 5
/-- `S.DONE`. -/
def flagDone (s : Word) : Bool := s.getLsbD 1
/-- `S.TA`. -/
def flagTa (s : Word) : Bool := s.getLsbD 0

/-- One flag at its place in the status word. -/
def flagAt (b : Bool) (n : Nat) : Word := if b then 1#32 <<< n else 0#32

/-- The status word of the reference controller (42_bus_engine.md R326); RXR and TXW read 0. -/
def statusWord (b : BscRef) : Word :=
  flagAt b.clkt 9 ||| flagAt b.err 8 ||| flagAt (decide (b.rxq.length = 16)) 7 ||| flagAt (decide (b.txq.length = 0)) 6
    ||| flagAt (decide (0 < b.rxq.length)) 5 ||| flagAt (decide (b.txq.length < 16)) 4 ||| flagAt b.done 1 ||| flagAt b.ta 0

/-- Write-1-to-clear of CLKT, ERR and DONE (30_encoding.md R152; 42_bus_engine.md R322). -/
def clearFlags (v : Word) (b : BscRef) : BscRef :=
  { b with
    clkt := b.clkt && !v.getLsbD 9
    err := b.err && !v.getLsbD 8
    done := b.done && !v.getLsbD 1 }

/-- `C.I2CEN` (30_encoding.md R151). -/
def ctrlI2cen (v : Word) : Bool := v.getLsbD 15
/-- `C.ST`. -/
def ctrlSt (v : Word) : Bool := v.getLsbD 7
/-- `C.CLEAR` non-zero. -/
def ctrlClear (v : Word) : Bool := v.getLsbD 5 || v.getLsbD 4
/-- `C.READ`. -/
def ctrlRead (v : Word) : Bool := v.getLsbD 0

end Sys2Proof.Machine
end

