-- ==== Sys2Proof/Machine/Reference.lean ====
section
/-! DEFINITION. The reference device models of `DEVICE = REFERENCE`: the GPIO span (41_gpio_fields.md R265) and the BSC
controller (42_bus_engine.md R320 to R329). Not a claim about the silicon. -/

namespace Sys2Proof.Machine

/-! ### Controller -/

/-- A write of `C` (42_bus_engine.md R321): empty the FIFOs, stop a running transfer, start one. -/
def BscRef.writeC (b : BscRef) (v : Word) : BscRef :=
  let b1 := { b with c := v &&& 0x8701#32 }
  let b2 := if ctrlClear v then { b1 with txq := [], rxq := [] } else b1
  let b3 := if ctrlI2cen v then b2 else { b2 with ta := false }
  if ctrlI2cen v && ctrlSt v then
    let b4 := { b3 with ta := true, done := false, rd := ctrlRead v, rem := b3.dlen.toNat, first := true, cur := b3.a }
    if b4.rem = 0 then { b4 with ta := false, done := true } else b4
  else b3

/-- A write of `FIFO`: push unless full (42_bus_engine.md R323). -/
def BscRef.push (b : BscRef) (v : Word) : BscRef :=
  if b.txq.length < Config.fifoDepth then { b with txq := b.txq ++ [truncByte v] } else b

/-- A register write (42_bus_engine.md R321 to R323). -/
def BscRef.write (b : BscRef) (o : Nat) (v : Word) : BscRef :=
  if o = offC then b.writeC v
  else if o = offS then clearFlags v b
  else if o = offDlen then { b with dlen := v.setWidth 16 }
  else if o = offA then { b with a := v.setWidth 7 }
  else if o = offFifo then b.push v
  else b

/-- The end of a byte step: one byte fewer, and the transfer completes at zero (42_bus_engine.md R325). -/
def BscRef.countByte (b : BscRef) : BscRef :=
  if b.rem - 1 = 0 then { b with rem := b.rem - 1, ta := false, done := true } else { b with rem := b.rem - 1 }

/-- A write byte step: the first byte sets the pointer, a later one is stored at it (42_bus_engine.md R325, R327). -/
def BscRef.sendByte (b : BscRef) (t : Target) : BscRef :=
  match b.txq with
  | [] => b
  | x :: rest =>
    let t' : Target :=
      if b.first then { t with ptr := x }
      else { t with regs := Memory.write t.regs t.ptr.toNat x, ptr := t.ptr + 1#8 }
    BscRef.countByte { b with txq := rest, first := false, tgt := Cells.put b.tgt b.cur.toNat t' }

/-- A read byte step: the byte at the pointer is received (42_bus_engine.md R325, R327). -/
def BscRef.receiveByte (b : BscRef) (t : Target) : BscRef :=
  if b.rxq.length = Config.fifoDepth then b
  else
    BscRef.countByte
      { b with
        rxq := b.rxq ++ [Memory.read t.regs t.ptr.toNat]
        tgt := Cells.put b.tgt b.cur.toNat { t with ptr := t.ptr + 1#8 } }

/-- `byte_step()` (42_bus_engine.md R325). -/
def BscRef.byteStep (b : BscRef) : BscRef :=
  if b.ta then
    match Cells.get? b.tgt b.cur.toNat with
    | none => { b with err := true, done := true, ta := false, txq := [] }
    | some t =>
      match t.mode with
      | .stall => b
      | .stretch => { b with clkt := true, ta := false }
      | .ack => if b.rd then b.receiveByte t else b.sendByte t
  else b

/-- `n` byte steps. -/
def BscRef.byteSteps : Nat → BscRef → BscRef
  | 0, b => b
  | n + 1, b => BscRef.byteSteps n b.byteStep

/-- A register read: the value and the state after it (42_bus_engine.md R324, R326). Only a read of `S` advances the
controller, by `rate` byte steps; a read of `FIFO` pops. -/
def BscRef.read (b : BscRef) (rate o : Nat) : Word × BscRef :=
  if o = offC then (b.c, b)
  else if o = offS then (statusWord (b.byteSteps rate), b.byteSteps rate)
  else if o = offDlen then (b.dlen.setWidth 32, b)
  else if o = offA then (b.a.setWidth 32, b)
  else if o = offFifo then
    match b.rxq with
    | [] => (0#32, b)
    | x :: rest => (zextByte x, { b with rxq := rest })
  else (bscClockReset o, b)

/-! ### GPIO span -/

/-- A register read (41_gpio_fields.md R265): a STORE register holds what was written, or its start value, or its
datasheet reset value, which is 0 for each; reserved bits and RESERVED offsets read 0. -/
def DeviceState.gpioRead (d : DeviceState) (o : Nat) : Word :=
  match gpioClass o with
  | .store => ((Cells.get? d.gpioStore o).getD ((Cells.get? d.gpioStart o).getD 0#32)) &&& writable .gpio o
  | .readOnly => if o = offGplev0 then d.levels.setWidth 32 else (d.levels >>> 32).setWidth 32
  | .volatile => 0#32
  | .reserved => 0#32

end Sys2Proof.Machine
end

