-- ==== Sys2Proof/Machine/Ops.lean ====
section
/-! DEFINITION. The named operations every meaning is built from: the history, the acting client, stopping a client
(`raise` and `refuse`), the device oracle, one register access with its check, one delay, completing an operation, and
the frame of an operation's steps (10_state.md R54; 40_register_window.md R205, R206). -/

namespace Sys2Proof.Machine

/-! ### Windows, stores and the acting client -/

/-- `win[kind]`. -/
def State.window (s : State) : WindowKind → Window
  | .gpio => s.win.gpio
  | .bsc => s.win.bsc

/-- Replace `win[kind]`. -/
def State.setWindow (s : State) (kind : WindowKind) (w : Window) : State :=
  match kind with
  | .gpio => { s with win := { s.win with gpio := w } }
  | .bsc => { s with win := { s.win with bsc := w } }

/-- `dev.store[kind]` (10_state.md R61). -/
def DeviceState.store (d : DeviceState) : WindowKind → Store
  | .gpio => d.gpioStore
  | .bsc => d.bscStore

/-- `dev.store[kind][offset]` (10_state.md R61): none means not written since the window was mapped. -/
def State.stored (s : State) (kind : WindowKind) (o : Nat) : Option Word := Cells.get? (s.dev.store kind) o

/-- `dev.store[kind][o] <- some v` (40_register_window.md R206). -/
def DeviceState.putStore (d : DeviceState) (kind : WindowKind) (o : Nat) (v : Word) : DeviceState :=
  match kind with
  | .gpio => { d with gpioStore := Cells.put d.gpioStore o v }
  | .bsc => { d with bscStore := Cells.put d.bscStore o v }

/-- `dev.store[kind][o] <- none` for every offset (40_register_window.md R201). DESIGN CHOICE, log 30: the harness's start
values `gpioStart`, which only REFERENCE reads, are no written words and stay. DEDUCED, log 31: the reference controller's
record `bsc` is device state and no store, and stays too. -/
def DeviceState.forget (d : DeviceState) (kind : WindowKind) : DeviceState :=
  match kind with
  | .gpio => { d with gpioStore := [], pull := List.replicate 54 .unknown, pud := .none }
  | .bsc => { d with bscStore := [] }

/-- Append one event (10_state.md R67). -/
def State.log (s : State) (e : Event) : State := { s with hist := s.hist ++ [e] }

/-- Change the acting client's record. -/
def State.updMe (s : State) (f : ClientState → ClientState) : State := { s with clients := s.clients.modify s.cur f }

/-- Set `eng.phase`. -/
def State.setPhase (s : State) (p : Phase) : State := { s with eng := { s.eng with phase := p } }

/-! ### Stopping a client: the block's one form of exception (60_exceptions.md R345, R347, R350) -/

/-- The numeric fault codes (60_exceptions.md R345). -/
def FaultCode.code : FaultCode → Nat
  | .offsetOutOfRange => 16
  | .windowNotMapped => 17
  | .busConflict => 18
  | .unmapInFlight => 19

/-- `raise` and `refuse` (00_scope.md R13): a fault is recorded as (client, code, info) and stays; a refusal sets the
whole-state mark; either way the client has no further step. Nothing is saved, and control goes nowhere: the block has no
trap entry and no return (60_exceptions.md R350, R351). -/
def State.stop (s : State) (x : Stop) : State :=
  let s1 := s.updMe fun m => { m with stopped := some x }
  match x with
  | .fault code info => { s1 with faults := s1.faults ++ [⟨s.cur, code, info⟩] }
  | .refuse _ => { s1 with refused := true }

/-! ### The device oracle -/

/-- One draw (10_state.md R60): the next answer a harness supplies, else the free value `Config.answer` (log 4). -/
def State.draw (s : State) (kind : WindowKind) (o : Nat) : Word :=
  match s.env.answers with
  | v :: _ => v
  | [] => Config.answer s.hist s.cur kind o s.env.draws

/-- The state after a draw. -/
def State.drawn (s : State) : State :=
  { s with env := { s.env with answers := s.env.answers.tail, draws := s.env.draws + 1 } }

/-- A read's value under `DEVICE = LOOSE` (40_register_window.md R206), `d` being the draw. -/
def looseValue (s : State) (kind : WindowKind) (o : Nat) (d : Word) : Word :=
  match regClass kind o with
  | .store =>
    match s.stored kind o with
    | some x => (x &&& writable kind o) ||| (d &&& ~~~writable kind o)
    | none => d
  | .volatile => d
  | .readOnly => d
  | .reserved => d

/-- `MemRead` (00_scope.md R13): the value a register read returns and the device after it. -/
def State.deviceRead (s : State) (kind : WindowKind) (o : Nat) : Word × State :=
  match s.par.device with
  | .loose => (looseValue s kind o (s.draw kind o), s.drawn)
  | .reference =>
    match kind with
    | .gpio => (s.dev.gpioRead o, s)
    | .bsc =>
      let r := s.dev.bsc.read s.par.rdmRate o
      (r.1, { s with dev := { s.dev with bsc := r.2 } })

/-- A STORE register keeps the word written (10_state.md R57, R61); no other class keeps one. -/
def DeviceState.keep (d : DeviceState) (kind : WindowKind) (o : Nat) (v : Word) : DeviceState :=
  match regClass kind o with
  | .store => d.putStore kind o v
  | .volatile => d
  | .readOnly => d
  | .reserved => d

/-- The device action of a write (20_memory.md R108): GPPUD and GPPUDCLK0 move the pull handshake under both
configurations; the controller's own state moves only under REFERENCE (10_state.md R65). -/
def DeviceState.act (d : DeviceState) (cfg : DeviceConfig) (kind : WindowKind) (o : Nat) (v : Word) : DeviceState :=
  match kind with
  | .gpio =>
    if o = offGppud then d.writeSelect v
    else if o = offGppudclk0 then d.writeMask v
    else d
  | .bsc =>
    match cfg with
    | .loose => d
    | .reference => { d with bsc := d.bsc.write o v }

/-- `MemWrite` (00_scope.md R13): the device after a register write. -/
def State.deviceWrite (s : State) (kind : WindowKind) (o : Nat) (v : Word) : State :=
  { s with dev := (s.dev.act s.par.device kind o v).keep kind o v }

/-! ### Register accesses -/

/-- `access_check` (40_register_window.md R205), in its order of priority (60_exceptions.md R348). -/
def accessCheck (s : State) (kind : WindowKind) (o : Nat) (dir : Dir) : Option Stop :=
  if (s.window kind).mapped = false then some (.fault .windowNotMapped (.register kind o))
  else if (s.window kind).size ≤ o then some (.fault .offsetOutOfRange (.register kind o))
  else if kind = .bsc ∧ s.eng.phase ≠ .idle ∧ s.eng.owner ≠ some s.cur then some (.fault .busConflict (.client s.cur))
  else if dir = .write ∧ regClass kind o = .reserved then some (.refuse .reservedWrite)
  else none

/-- A read that passed the check: the device answers, the event is appended, the operation's step count and last value
move (00_scope.md R13; 10_state.md R54). -/
def State.readAccess (s : State) (kind : WindowKind) (o : Nat) : State :=
  let r := s.deviceRead kind o
  (r.2.log (.access s.cur kind o .read r.1)).updMe fun m => { m with step := m.step + 1, val := r.1 }

/-- A write that passed the check. -/
def State.writeAccess (s : State) (kind : WindowKind) (o : Nat) (v : Word) : State :=
  ((s.deviceWrite kind o v).log (.access s.cur kind o .write v)).updMe fun m => { m with step := m.step + 1 }

/-- `RegRead` (00_scope.md R13), then what the operation does with the value. A stopped access makes no access, appends
no event and changes no device state (60_exceptions.md R349). -/
def State.regRead (s : State) (kind : WindowKind) (o : Nat) (f : Word → State → State) : State :=
  match accessCheck s kind o .read with
  | some x => s.stop x
  | none => f (s.deviceRead kind o).1 (s.readAccess kind o)

/-- `RegWrite` (00_scope.md R13), then what the operation does next. -/
def State.regWrite (s : State) (kind : WindowKind) (o : Nat) (v : Word) (f : State → State) : State :=
  match accessCheck s kind o .write with
  | some x => s.stop x
  | none => f (s.writeAccess kind o v)

/-- `Delay(us)` (00_scope.md R13; 40_register_window.md R216): one event; a long enough delay settles a pull handshake
(41_gpio_fields.md R262). -/
def State.delay (s : State) (us : Nat) : State :=
  (({ s with dev := s.dev.settle us } : State).log (.delay s.cur us)).updMe fun m => { m with step := m.step + 1 }

/-- The word `clear_bits` and `configure_as_input` write, `x` being the word read: the mask cleared, and the reserved bits
0 or as they were read (40_register_window.md R210; 41_gpio_fields.md R250; 10_state.md R58; 30_encoding.md R160, R173).
DESIGN CHOICE, log 28: the spec says both of the reserved bits, and the parameter leaves it open. -/
def Params.cleared (p : Params) (kind : WindowKind) (o : Nat) (x mask : Word) : Word :=
  match p.reservedBits with
  | .zero => x &&& ~~~mask &&& fieldBits kind o
  | .asRead => x &&& ~~~mask

/-! ### An operation's steps -/

/-- The start step (10_state.md R54): the operation is recorded as in progress and `Start` is appended. -/
def State.started (s : State) (i : Instr) : State :=
  (s.log (.start s.cur i)).updMe fun m => { m with op := some i, step := 0, val := 0#32 }

/-- The start step with its operand check (60_exceptions.md R347, R348). -/
def State.startChecked (s : State) (i : Instr) (check : Option RefusalReason) : State :=
  match check with
  | some r => (s.started i).stop (.refuse r)
  | none => s.started i

/-- The completion step (10_state.md R54): `Done` is appended and the client is between operations again. -/
def State.complete (s : State) (i : Instr) (r : Result) : State :=
  (s.log (.done s.cur i r)).updMe fun m => { m with op := none, step := 0, val := 0#32 }

/-- The frame of every operation: a client between operations makes the start step, a client in this operation makes its
next step. Everything else is no step of this client, and the machine stops by name (log 10). -/
def operate (i : Instr) (start : State → State) (next : ClientState → State → Host.Outcome State Fault Refusal)
    (s : State) : Host.Outcome State Fault Refusal :=
  match s.clients[s.cur]? with
  | none => .fault .noSuchClient
  | some m =>
    if m.stopped.isSome then .fault .clientStopped
    else
      match m.op with
      | none => .next (start s)
      | some j => if j = i then next m s else .fault .otherOperationInProgress

/-- One step of a window or GPIO operation after its start. -/
inductive Act where
  | read (kind : WindowKind) (o : Nat)
  | write (kind : WindowKind) (o : Nat) (v : Word)
  | delay (us : Nat)
  | finish (r : Result)
deriving DecidableEq, Repr

/-- Make one such step. -/
def State.perform (s : State) (i : Instr) : Act → State
  | .read kind o => s.regRead kind o fun _ t => t
  | .write kind o v => s.regWrite kind o v id
  | .delay us => s.delay us
  | .finish r => s.complete i r

/-- A window or GPIO operation: a fixed sequence of steps (10_state.md R52), given by the count of steps made and the
value last read. -/
def operateScript (i : Instr) (check : Option RefusalReason) (script : Nat → Word → Act) (s : State) :
    Host.Outcome State Fault Refusal :=
  operate i (fun s => s.startChecked i check) (fun m s => .next (s.perform i (script m.step m.val))) s

end Sys2Proof.Machine
end

