-- ==== Sys2Proof/Machine/Window.lean ====
section
/-! DEFINITION. The Register Window operations (40_register_window.md). -/

namespace Sys2Proof.Machine

/-! ### Construction and destruction -/

/-- The platform's answer to a map request (40_register_window.md R201 `MAP_ORACLE`): the next one a harness supplies,
else the free value `Config.mapAnswer` (log 5). -/
def State.mapAnswer (s : State) (kind : WindowKind) : Bool :=
  match s.env.mapAnswers with
  | b :: _ => b
  | [] => Config.mapAnswer s.hist kind (s.window kind).base (4 * (s.window kind).size) s.env.draws

/-- The state after the platform answered. -/
def State.mapAsked (s : State) : State :=
  { s with env := { s.env with mapAnswers := s.env.mapAnswers.tail, draws := s.env.draws + 1 } }

/-- A granted map: the slot is mapped with a new generation and what is behind it is forgotten
(40_register_window.md R201). -/
def State.mapWindow (s : State) (kind : WindowKind) : State :=
  let w := s.window kind
  { s.setWindow kind { w with mapped := true, gen := w.gen + 1 } with dev := s.dev.forget kind }

/-- The completion step of `map`, which carries its whole body (40_register_window.md R201; log 11). -/
def State.mapBody (s : State) (i : Instr) (kind : WindowKind) : State :=
  if (s.window kind).mapped then s.complete i (.err .mapError)
  else if s.mapAnswer kind then
    (s.mapAsked.mapWindow kind).complete i (.ok (.handle kind ((s.window kind).gen + 1)))
  else s.mapAsked.complete i (.err .mapError)

/-- The first client other than the acting one whose operation in progress satisfies `p`. DESIGN CHOICE, log 29: where
several do, `exists client d` (40_register_window.md R203) leaves open which one is meant, and the model takes the one of
lowest index. -/
def State.otherUser (s : State) (p : Instr → Bool) : Option Nat :=
  (List.range s.clients.length).find? fun d =>
    decide (d ≠ s.cur) && ((s.clients[d]?).bind ClientState.op).any p

/-- The completion step of `unmap`, which carries its whole body (40_register_window.md R203; log 11): no register is
accessed and the device keeps its state. Any operation in progress that touches the span counts (log 32). -/
def State.unmapBody (s : State) (i : Instr) (kind : WindowKind) : State :=
  if (s.window kind).mapped = false then s.stop (.fault .windowNotMapped (.window kind))
  else
    match s.otherUser fun j => touches j kind with
    | some d => s.stop (.fault .unmapInFlight (.user kind (some d)))
    | none =>
      if kind = .bsc ∧ s.eng.phase ≠ .idle then s.stop (.fault .unmapInFlight (.user .bsc s.eng.owner))
      else (s.setWindow kind { s.window kind with mapped := false }).complete i (.ok .unit)

/-- `map` (40_register_window.md R201). -/
def execMap (kind : WindowKind) (s : State) : Host.Outcome State Fault Refusal :=
  operate (.map kind) (fun s => s.started (.map kind)) (fun _ s => .next (s.mapBody (.map kind) kind)) s

/-- `unmap` (40_register_window.md R203). -/
def execUnmap (kind : WindowKind) (s : State) : Host.Outcome State Fault Refusal :=
  operate (.unmap kind) (fun s => s.started (.unmap kind)) (fun _ s => .next (s.unmapBody (.unmap kind) kind)) s

/-! ### Word access -/

/-- `read_word` (40_register_window.md R207). -/
def execReadWord (kind : WindowKind) (offset : Nat) (s : State) : Host.Outcome State Fault Refusal :=
  operateScript (.readWord kind offset) none
    (fun step x =>
      match step with
      | 0 => .read kind offset
      | _ => .finish (.ok (.word x))) s

/-- `write_word` (40_register_window.md R208). -/
def execWriteWord (kind : WindowKind) (offset : Nat) (value : Word) (s : State) : Host.Outcome State Fault Refusal :=
  operateScript (.writeWord kind offset value) none
    (fun step _ =>
      match step with
      | 0 => .write kind offset value
      | _ => .finish (.ok .unit)) s

/-- `set_bits` (40_register_window.md R209): two accesses, not atomic (20_memory.md R109). -/
def execSetBits (kind : WindowKind) (offset : Nat) (mask : Word) (s : State) : Host.Outcome State Fault Refusal :=
  operateScript (.setBits kind offset mask) none
    (fun step x =>
      match step with
      | 0 => .read kind offset
      | 1 => .write kind offset (x ||| mask)
      | _ => .finish (.ok .unit)) s

/-- `clear_bits` (40_register_window.md R210): two accesses, not atomic. The reserved bits written are those
of `Params.cleared` (log 28). -/
def execClearBits (kind : WindowKind) (offset : Nat) (mask : Word) (s : State) : Host.Outcome State Fault Refusal :=
  operateScript (.clearBits kind offset mask) none
    (fun step x =>
      match step with
      | 0 => .read kind offset
      | 1 => .write kind offset (s.par.cleared kind offset x mask)
      | _ => .finish (.ok .unit)) s

/-! ### Bit-field access -/

/-- `get_field` (40_register_window.md R212, R213). -/
def execGetField (kind : WindowKind) (offset lsb width : Nat) (s : State) : Host.Outcome State Fault Refusal :=
  operateScript (.getField kind offset lsb width) (checkShape lsb width)
    (fun step x =>
      match step with
      | 0 => .read kind offset
      | _ => .finish (.ok (.word (fieldGet x lsb width)))) s

/-- `set_field` (40_register_window.md R212, R214, R215): two accesses, not atomic. -/
def execSetField (kind : WindowKind) (offset lsb width : Nat) (value : Word) (s : State) :
    Host.Outcome State Fault Refusal :=
  operateScript (.setField kind offset lsb width value) (checkFieldValue lsb width value)
    (fun step x =>
      match step with
      | 0 => .read kind offset
      | 1 => .write kind offset (fieldSet x lsb width value)
      | _ => .finish (.ok .unit)) s

/-! ### Delay -/

/-- `delay_us` (40_register_window.md R216): needs no mapped window. -/
def execDelayUs (us : Nat) (s : State) : Host.Outcome State Fault Refusal :=
  operateScript (.delayUs us) none
    (fun step _ =>
      match step with
      | 0 => .delay us
      | _ => .finish (.ok .unit)) s

end Sys2Proof.Machine
end

