-- ==== Sys2Proof/Machine/Bus.lean ====
section
/-! DEFINITION. The Bus Transaction Engine (42_bus_engine.md). -/

namespace Sys2Proof.Machine

/-! ### Claim and release -/

/-- `claim` (42_bus_engine.md R281): the engine is idle and no other client has a window operation on BSC in progress. -/
def claimCheck (s : State) : Option Stop :=
  if s.eng.phase ≠ .idle then some (.fault .busConflict (.client s.cur))
  else
    match s.otherUser fun j => decide (windowOf j = some .bsc) with
    | some _ => some (.fault .busConflict (.client s.cur))
    | none => none

/-- The end of a bus operation: release the engine and complete (42_bus_engine.md R281, R283, R303). -/
def State.finishBus (s : State) (i : Instr) (r : Result) : State :=
  ({ s with eng := { s.eng with phase := .idle, owner := none } } : State).complete i r

/-! ### Phases -/

/-- `Poll` (42_bus_engine.md R285): with the budget used up the step is the abort's first write; a sample with CLKT set
goes to the abort; otherwise the phase's own test decides. -/
def State.poll (s : State) (test : Word → Phase) : State :=
  if s.eng.polls = s.par.pollBudget then s.regWrite .bsc offC abortCtrl fun t => t.setPhase .abS
  else
    s.regRead .bsc offS fun v t =>
      { t with eng := { t.eng with polls := t.eng.polls + 1, s := v, phase := if flagClkt v then .abC else test v } }

/-- A pop (42_bus_engine.md R284 `R_CFIFO`, `R_FFIFO`; R297): the byte goes to `rbuf[idx]` and the budget starts anew. -/
def State.pop (s : State) (next : Phase) : State :=
  s.regRead .bsc offFifo fun v t =>
    { t with
      eng := { t.eng with
        rbuf := t.eng.rbuf.set t.eng.idx (truncByte v), idx := t.eng.idx + 1, polls := 0, phase := next } }

/-- The byte of write phase `W_FIFO(i)`: the register address, then the payload in buffer order
(42_bus_engine.md R284, R291). -/
def Engine.txByte (e : Engine) (i : Nat) : Byte := if i = 0 then e.reg else e.wbuf.getD (i - 1) 0#8

/-- Data is ready and wanted (42_bus_engine.md R284, R297). -/
def Engine.wants (e : Engine) (v : Word) : Bool := flagRxd v && decide (e.idx < e.len.toNat)

/-- A bus operation's `Ok` result (42_bus_engine.md R302). -/
def Engine.okValue (e : Engine) : Value :=
  match e.dir with
  | .write => .word e.s
  | .read => .bytes e.rbuf e.idx e.s

/-- One engine step (42_bus_engine.md R284), none in `IDLE`. -/
def State.engineStep (s : State) (i : Instr) : Option State :=
  match s.eng.phase with
  | .idle => none
  | .wA => some (s.regWrite .bsc offA (zextByte s.eng.dev) fun t => t.setPhase .wDlen)
  | .wDlen => some (s.regWrite .bsc offDlen (BitVec.ofNat 32 (s.eng.wbuf.length + 1)) fun t => t.setPhase (.wFifo 0))
  | .wFifo k =>
    some (s.regWrite .bsc offFifo (zextByte (s.eng.txByte k)) fun t =>
      t.setPhase (if k < s.eng.wbuf.length then .wFifo (k + 1) else .wClr))
  | .wClr => some (s.regWrite .bsc offS clearStatus fun t => t.setPhase .wGo)
  | .wGo =>
    some (s.regWrite .bsc offC startWrite fun t => { t with eng := { t.eng with phase := .wWait, polls := 0 } })
  | .wWait => some (s.poll fun v => if flagDone v then (if s.eng.sel then .rDlen else .endOk) else .wWait)
  | .rDlen =>
    some (s.regWrite .bsc offDlen (s.eng.len.setWidth 32) fun t =>
      { t with eng := { t.eng with phase := .rClr, sel := false } })
  | .rClr => some (s.regWrite .bsc offS clearStatus fun t => t.setPhase .rGo)
  | .rGo =>
    some (s.regWrite .bsc offC startRead fun t => { t with eng := { t.eng with phase := .rWait, polls := 0, idx := 0 } })
  | .rWait => some (s.poll fun v => if flagTa v && !flagRxd v then .rWait else .rCpoll)
  | .rCpoll => some (s.poll fun v => if s.eng.wants v then .rCfifo else .rDpoll)
  | .rCfifo => some (s.pop .rCpoll)
  | .rDpoll => some (s.poll fun v => if flagDone v then .rFpoll else .rWait)
  | .rFpoll => some (s.poll fun v => if s.eng.wants v then .rFfifo else .endOk)
  | .rFfifo => some (s.pop .rFpoll)
  | .abC => some (s.regWrite .bsc offC abortCtrl fun t => t.setPhase .abS)
  | .abS => some (s.regWrite .bsc offS clearStatus fun t => t.setPhase .endTimeout)
  | .endOk => some (s.finishBus i (.ok s.eng.okValue))
  | .endTimeout => some (s.finishBus i (.err .busTimeout))
  | .endErr => some (s.finishBus i (.err .payloadTooLarge))

/-- A step of a bus operation in progress: an engine step of the owning client (42_bus_engine.md R280). -/
def busNext (i : Instr) (s : State) : Host.Outcome State Fault Refusal :=
  if s.eng.owner = some s.cur then
    match s.engineStep i with
    | some t => .next t
    | none => .fault .engineNotHeld
  else .fault .engineNotHeld

/-! ### The start steps (42_bus_engine.md R283) -/

/-- The start step of a bus operation: operand refusals, then `claim`, then what the operation sets up. -/
def State.startBus (s : State) (i : Instr) (check : Option RefusalReason) (setUp : Engine → Engine) : State :=
  match check with
  | some r => (s.started i).stop (.refuse r)
  | none =>
    match claimCheck s with
    | some x => (s.started i).stop x
    | none => { s.started i with eng := { setUp s.eng with owner := some s.cur } }

/-- What `bus_write` sets up: the transaction, or `END_ERR` for a payload that does not fit the FIFO
(42_bus_engine.md R283, R290, R301). -/
def setUpWrite (dev : Nat) (reg : Byte) (buf : List Byte) (e : Engine) : Engine :=
  if Config.fifoDepth < 1 + buf.length then { e with phase := .endErr }
  else { e with phase := .wA, dir := .write, sel := false, dev := BitVec.ofNat 8 dev, reg := reg, wbuf := buf }

/-- What `bus_read` sets up: a select write with an empty payload comes first (42_bus_engine.md R295, R296). -/
def setUpRead (dev : Nat) (reg : Byte) (len : Nat) (e : Engine) : Engine :=
  { e with
    phase := .wA, dir := .read, sel := true, dev := BitVec.ofNat 8 dev, reg := reg, wbuf := []
    len := BitVec.ofNat 16 len, rbuf := List.replicate len 0#8, idx := 0 }

/-! ### The operations -/

/-- `bus_write` (42_bus_engine.md R290). -/
def execBusWrite (dev : Nat) (reg : Byte) (buf : List Byte) (s : State) : Host.Outcome State Fault Refusal :=
  operate (.busWrite dev reg buf)
    (fun s => s.startBus (.busWrite dev reg buf) (checkBusWrite dev buf) (setUpWrite dev reg buf))
    (fun _ s => busNext (.busWrite dev reg buf) s) s

/-- `bus_read` (42_bus_engine.md R295). -/
def execBusRead (dev : Nat) (reg : Byte) (len : Nat) (s : State) : Host.Outcome State Fault Refusal :=
  operate (.busRead dev reg len)
    (fun s => s.startBus (.busRead dev reg len) (checkBusRead dev len) (setUpRead dev reg len))
    (fun _ s => busNext (.busRead dev reg len) s) s

end Sys2Proof.Machine
end

