-- ==== Sys2Proof/Machine/Gpio.lean ====
section
/-! DEFINITION. The GPIO register bit-field operations (41_gpio_fields.md). -/

namespace Sys2Proof.Machine

/-- `configure_as_input` (41_gpio_fields.md R250; 30_encoding.md R160): the pin's mode field is cleared by a read and a
write, and the other fields of the word are written back as they were read. Its reserved bits are those of
`Params.cleared` (log 28). -/
def execConfigureAsInput (pin : Int) (s : State) : Host.Outcome State Fault Refusal :=
  operateScript (.configureAsInput pin) (checkPin pin)
    (fun step x =>
      match step with
      | 0 => .read .gpio (fselWord pin.toNat)
      | 1 => .write .gpio (fselWord pin.toNat) (s.par.cleared .gpio (fselWord pin.toNat) x (fselMask pin.toNat))
      | _ => .finish (.ok .unit)) s

/-- `read_pin` (41_gpio_fields.md R255, R256): true is pressed, a physical low. -/
def execReadPin (pin : Int) (s : State) : Host.Outcome State Fault Refusal :=
  operateScript (.readPin pin) (checkPin pin)
    (fun step x =>
      match step with
      | 0 => .read .gpio (levWord pin.toNat)
      | _ => .finish (.ok (.bool (pressed x pin.toNat)))) s

/-- `enable_pullups` (41_gpio_fields.md R260, R261): select, settle, mask, settle, clear select, clear mask. -/
def execEnablePullups (mask : Word) (s : State) : Host.Outcome State Fault Refusal :=
  operateScript (.enablePullups mask) none
    (fun step _ =>
      match step with
      | 0 => .write .gpio offGppud pudUp
      | 1 => .delay pullSettleUs
      | 2 => .write .gpio offGppudclk0 mask
      | 3 => .delay pullSettleUs
      | 4 => .write .gpio offGppud 0#32
      | 5 => .write .gpio offGppudclk0 0#32
      | _ => .finish (.ok .unit)) s

end Sys2Proof.Machine
end

