-- ==== Sys2Proof/Machine/Dispatch.lean ====
section
/-! DEFINITION. One arm per operation: the acting client's next step of it. -/

namespace Sys2Proof.Machine

def exec (i : Instr) (s : State) : Host.Outcome State Fault Refusal :=
  match i with
  | .map kind => Sys2Proof.Machine.execMap kind s
  | .unmap kind => Sys2Proof.Machine.execUnmap kind s
  | .readWord kind offset => Sys2Proof.Machine.execReadWord kind offset s
  | .writeWord kind offset value => Sys2Proof.Machine.execWriteWord kind offset value s
  | .setBits kind offset mask => Sys2Proof.Machine.execSetBits kind offset mask s
  | .clearBits kind offset mask => Sys2Proof.Machine.execClearBits kind offset mask s
  | .getField kind offset lsb width => Sys2Proof.Machine.execGetField kind offset lsb width s
  | .setField kind offset lsb width value => Sys2Proof.Machine.execSetField kind offset lsb width value s
  | .delayUs us => Sys2Proof.Machine.execDelayUs us s
  | .configureAsInput pin => Sys2Proof.Machine.execConfigureAsInput pin s
  | .readPin pin => Sys2Proof.Machine.execReadPin pin s
  | .enablePullups mask => Sys2Proof.Machine.execEnablePullups mask s
  | .busWrite dev reg buf => Sys2Proof.Machine.execBusWrite dev reg buf s
  | .busRead dev reg len => Sys2Proof.Machine.execBusRead dev reg len s

end Sys2Proof.Machine
end

