-- ==== Sys2Proof/Decode.lean ====
section
/-! DEFINITION. The decoder from selector and argument record to an operation, total, rejecting by name; after it the
encoder, the pseudo-operations (30_encoding.md R170 to R176) and the host's table words. The block decodes no
instruction words: a selector is 8 bits and an operation has no other encoded bits, since its arguments travel as the
typed record (R171). -/

namespace Sys2Proof

/-- Why a call spells no operation. -/
inductive DecodeError where
  /-- the selector is not in the operation map (30_encoding.md R172) -/
  | badSelector
  /-- the selector is in the map and the record is not of its format (DESIGN CHOICE, safe, log 8) -/
  | badRecord
deriving DecidableEq, Repr

/-- The argument formats of 30_encoding.md R165. -/
inductive Format where
  | k | ko | kov | kof | kofv | p | m | us | bw | br
deriving DecidableEq, Repr

/-- The format a selector takes, none where the selector is in no row (30_encoding.md R170). -/
def formatOf (selector : Byte) : Option Format :=
  match selector.toNat with
  | 0x01 => some .k
  | 0x02 => some .k
  | 0x10 => some .ko
  | 0x11 => some .kov
  | 0x12 => some .kov
  | 0x13 => some .kov
  | 0x14 => some .kof
  | 0x15 => some .kofv
  | 0x18 => some .us
  | 0x20 => some .p
  | 0x21 => some .p
  | 0x22 => some .m
  | 0x30 => some .bw
  | 0x31 => some .br
  | _ => none

/-- A decoder matches the selector exactly and takes the record of its format (30_encoding.md R170 to R172). -/
def decode (c : Call) : Except DecodeError Instr :=
  match c.selector.toNat, c.args with
  | 0x01, .k kind => .ok (.map kind)
  | 0x02, .k kind => .ok (.unmap kind)
  | 0x10, .ko kind offset => .ok (.readWord kind offset)
  | 0x11, .kov kind offset value => .ok (.writeWord kind offset value)
  | 0x12, .kov kind offset mask => .ok (.setBits kind offset mask)
  | 0x13, .kov kind offset mask => .ok (.clearBits kind offset mask)
  | 0x14, .kof kind offset lsb width => .ok (.getField kind offset lsb width)
  | 0x15, .kofv kind offset lsb width value => .ok (.setField kind offset lsb width value)
  | 0x18, .us us => .ok (.delayUs us)
  | 0x20, .p pin => .ok (.configureAsInput pin)
  | 0x21, .p pin => .ok (.readPin pin)
  | 0x22, .m mask => .ok (.enablePullups mask)
  | 0x30, .bw dev reg buf => .ok (.busWrite dev reg buf)
  | 0x31, .br dev reg len => .ok (.busRead dev reg len)
  | _, _ => if (formatOf c.selector).isSome then .error .badRecord else .error .badSelector

/-- The selector and record of an operation (30_encoding.md R165, R170). -/
def encode : Instr → Call
  | .map kind => ⟨0x01#8, .k kind⟩
  | .unmap kind => ⟨0x02#8, .k kind⟩
  | .readWord kind offset => ⟨0x10#8, .ko kind offset⟩
  | .writeWord kind offset value => ⟨0x11#8, .kov kind offset value⟩
  | .setBits kind offset mask => ⟨0x12#8, .kov kind offset mask⟩
  | .clearBits kind offset mask => ⟨0x13#8, .kov kind offset mask⟩
  | .getField kind offset lsb width => ⟨0x14#8, .kof kind offset lsb width⟩
  | .setField kind offset lsb width value => ⟨0x15#8, .kofv kind offset lsb width value⟩
  | .delayUs us => ⟨0x18#8, .us us⟩
  | .configureAsInput pin => ⟨0x20#8, .p pin⟩
  | .readPin pin => ⟨0x21#8, .p pin⟩
  | .enablePullups mask => ⟨0x22#8, .m mask⟩
  | .busWrite dev reg buf => ⟨0x30#8, .bw dev reg buf⟩
  | .busRead dev reg len => ⟨0x31#8, .br dev reg len⟩

/-- The record of a format with every field zero (kind 0 is GPIO, an empty buffer). -/
def zeroArgs : Format → Args
  | .k => .k .gpio
  | .ko => .ko .gpio 0
  | .kov => .kov .gpio 0 0#32
  | .kof => .kof .gpio 0 0 0
  | .kofv => .kofv .gpio 0 0 0 0#32
  | .p => .p 0
  | .m => .m 0#32
  | .us => .us 0
  | .bw => .bw 0 0#8 []
  | .br => .br 0 0#8 0

/-- The call that a table word stands for: the row's 8 bits are the selector, and every argument is zero
(log 8). A word that does not fit a selector gives selector 0, which no row has. -/
def tableCall (nbits w : Nat) : Call :=
  if nbits = 8 ∧ w < 256 then
    ⟨BitVec.ofNat 8 w, match formatOf (BitVec.ofNat 8 w) with | some f => zeroArgs f | none => .us 0⟩
  else ⟨0#8, .us 0⟩

/-- The operation the decoder reads from a table word (the host's fixed name). -/
def decodeTableWord (nbits w : Nat) : Option Instr :=
  match decode (tableCall nbits w) with
  | .ok i => some i
  | .error _ => none

/-- `select dev, reg` (30_encoding.md R176). -/
def pseudoSelect (dev : Nat) (reg : Byte) : Instr := .busWrite dev reg []
/-- `test_bit kind, o, b` (30_encoding.md R176). -/
def pseudoTestBit (kind : WindowKind) (o b : Nat) : Instr := .getField kind o b 1
/-- `set_function p, f` (30_encoding.md R176). -/
def pseudoSetFunction (p : Nat) (f : Word) : Instr := .setField .gpio (p / 10) (3 * (p % 10)) 3 f
/-- `read_reg dev, reg` (30_encoding.md R176). -/
def pseudoReadReg (dev : Nat) (reg : Byte) : Instr := .busRead dev reg 1
/-- `write_reg dev, reg, b` (30_encoding.md R176). -/
def pseudoWriteReg (dev : Nat) (reg b : Byte) : Instr := .busWrite dev reg [b]

end Sys2Proof
end

