-- ==== Sys2Proof/Machine/Fetch.lean ====
section
/-! DEFINITION. Which client moves and what it runs: any interleaving of the clients' steps is a run (20_memory.md R117;
70_reset_and_hazards.md R411), and a client between operations issues the next call of its program. The block fetches no
instructions (20_memory.md R120): a program is the client's (log 7). -/

namespace Sys2Proof.Machine

/-- A client has a step: it has not stopped, and it is in an operation or has a call to issue (10_state.md R54). -/
def ClientState.canStep (m : ClientState) : Bool := m.stopped.isNone && (m.op.isSome || !m.prog.isEmpty)

/-- Client `c` is in `CLIENTS` and has a step. -/
def State.canMove (s : State) (c : Nat) : Bool := (s.clients[c]?).any ClientState.canStep

/-- The clients with a step. -/
def State.movers (s : State) : List Nat := (List.range s.clients.length).filter s.canMove

/-- The client that moves next and the turns left: the first queued turn of a client with a step; with no such turn, the
only client with a step; with several, the free choice `Config.turn` among them (log 6). -/
def State.pick (s : State) : Option (Nat × List Nat) :=
  match s.env.turns.dropWhile (fun c => !s.canMove c) with
  | c :: rest => some (c, rest)
  | [] =>
    match s.movers with
    | [] => none
    | [c] => some (c, [])
    | c :: d :: more => some ((c :: d :: more).getD (Config.turn s.hist s.env.draws % (more.length + 2)) c, [])

/-- What the moving client runs. -/
inductive Fetched where
  /-- this operation, from this state -/
  | run (i : Instr) (s : State)
  /-- a call that spells no operation (30_encoding.md R172) -/
  | invalid (s : State)
  /-- no client has a step -/
  | nothing

/-- The state with client `c` acting and the turn used up. -/
def State.turnTo (s : State) (c : Nat) (rest : List Nat) : State :=
  { s with cur := c, env := { s.env with turns := rest, draws := s.env.draws + 1 } }

/-- Give the turn to the picked client: its operation in progress goes on, or its next call is taken and decoded. -/
def State.fetch (s : State) : Fetched :=
  match s.pick with
  | none => .nothing
  | some (c, rest) =>
    match s.clients[c]? with
    | none => .nothing
    | some m =>
      match m.op with
      | some i => .run i (s.turnTo c rest)
      | none =>
        match m.prog with
        | [] => .nothing
        | call :: calls =>
          match decode call with
          | .ok i => .run i ((s.turnTo c rest).updMe fun m => { m with prog := calls })
          | .error _ => .invalid ((s.turnTo c rest).updMe fun m => { m with prog := calls })

/-- Put a call first in client 0's program, with client 0 between operations and not stopped, and give it the next
turn. -/
def State.placeCall (s : State) (call : Call) : State :=
  { s with
    clients :=
      match s.clients with
      | [] => [{ ClientState.reset with prog := [call] }]
      | m :: rest => { m with op := none, stopped := none, prog := call :: m.prog } :: rest
    env := { s.env with turns := 0 :: s.env.turns } }

end Sys2Proof.Machine
end

