-- ==== Sys2Proof/Machine/Step.lean ====
section
/-! DEFINITION. One step of the machine: one step of one client (10_state.md R54). -/

namespace Sys2Proof.Machine

/-- One step of the client whose turn it is. A call that spells no operation sets the refusal mark (30_encoding.md R172);
where no client has a step, the machine has none (log 10). -/
def step (s : State) : Host.Outcome State Fault Refusal :=
  match s.fetch with
  | .run i t => exec i t
  | .invalid t => .next (t.stop (.refuse .badSelector))
  | .nothing => .fault .noRunnableClient

/-- `s` with the table word's call placed where the next step takes its operation (log 7, log 8). -/
def State.withFetchWord (s : State) (nbits w : Nat) : State := s.placeCall (tableCall nbits w)

end Sys2Proof.Machine
end

