-- ==== Sys2Proof/Safety.lean ====
section
/-! DEFINITION. What counts as a good state and a good run, in the terms the claims use: the position of the acting
client, when an access is admitted, a client running alone, and the machine's invariant. -/

namespace Sys2Proof.Machine

/-! ### Good states -/

/-- No fault is recorded and no refusal happened (60_exceptions.md R345: "A state with a fault is never a good final
state"; R347: "A refused state is outside the model"). -/
def State.good (s : State) : Prop := s.faults = [] ∧ s.refused = false

/-! ### The acting client's position -/

/-- The acting client is between operations and has not stopped (10_state.md R54). -/
def State.Between (s : State) : Prop :=
  ∃ m, s.clients[s.cur]? = some m ∧ m.stopped = none ∧ m.op = none

/-- The acting client has not stopped and is in operation `i`, with `n` accesses and delays made and `x` the value last
read (10_state.md R54). -/
def State.InOp (s : State) (i : Instr) (n : Nat) (x : Word) : Prop :=
  ∃ m, s.clients[s.cur]? = some m ∧ m.stopped = none ∧ m.op = some i ∧ m.step = n ∧ m.val = x

/-- The acting client is in bus operation `i` and holds the engine (42_bus_engine.md R280, R281). -/
def State.Holds (s : State) (i : Instr) : Prop :=
  s.eng.owner = some s.cur ∧ ∃ m, s.clients[s.cur]? = some m ∧ m.stopped = none ∧ m.op = some i

/-- The access check passes for a read (40_register_window.md R205). -/
def State.Readable (s : State) (kind : WindowKind) (o : Nat) : Prop :=
  (s.window kind).mapped = true ∧ o < (s.window kind).size ∧
    (kind = .bsc → s.eng.phase = .idle ∨ s.eng.owner = some s.cur)

/-- The access check passes for a write (40_register_window.md R205). -/
def State.Writable (s : State) (kind : WindowKind) (o : Nat) : Prop :=
  s.Readable kind o ∧ regClass kind o ≠ .reserved

/-- The BSC window is mapped with its whole span. -/
def State.BscMapped (s : State) : Prop := s.win.bsc.mapped = true ∧ s.win.bsc.size = 8

/-- A bus operation can claim the engine (42_bus_engine.md R281). -/
def State.Claimable (s : State) : Prop :=
  s.eng.phase = .idle ∧
    ∀ d m i, d ≠ s.cur → s.clients[d]? = some m → m.op = some i → windowOf i ≠ some .bsc

/-! ### A client running alone -/

/-- `n` steps of the acting client in operation `i`, no other client moving between them. -/
def runAlone (i : Instr) : Nat → State → Host.Outcome State Fault Refusal
  | 0, s => .next s
  | n + 1, s =>
    match exec i s with
    | .next t => runAlone i n t
    | .fault r => .fault r
    | .refused r => .refused r

/-- The acting client has no operation in progress, or has stopped. -/
def State.Over (s : State) : Prop :=
  ∃ m, s.clients[s.cur]? = some m ∧ (m.op = none ∨ m.stopped.isSome = true)

/-! ### The machine's invariant -/

/-- The phases of the receive part, after `START_READ` (42_bus_engine.md R284, R297). -/
def Phase.receiving : Phase → Bool
  | .rWait | .rCpoll | .rCfifo | .rDpoll | .rFpoll | .rFfifo => true
  | .idle | .wA | .wDlen | .wFifo _ | .wClr | .wGo | .wWait | .rDlen | .rClr | .rGo | .abC | .abS | .endOk
  | .endTimeout | .endErr => false

/-- The phases of a transaction before a read's `START_READ` (42_bus_engine.md R284). -/
def Phase.beforeReceive : Phase → Bool
  | .wA | .wDlen | .wFifo _ | .wClr | .wGo | .wWait | .rDlen | .rClr | .rGo => true
  | .idle | .rWait | .rCpoll | .rCfifo | .rDpoll | .rFpoll | .rFfifo | .abC | .abS | .endOk | .endTimeout
  | .endErr => false

/-- The phases only a read reaches (42_bus_engine.md R284). -/
def Phase.readOnly : Phase → Bool
  | .rDlen | .rClr | .rGo | .rWait | .rCpoll | .rCfifo | .rDpoll | .rFpoll | .rFfifo => true
  | .idle | .wA | .wDlen | .wFifo _ | .wClr | .wGo | .wWait | .abC | .abS | .endOk | .endTimeout | .endErr => false

/-- The phases of a plain write or of a read's select write (42_bus_engine.md R284, R296). -/
def Phase.writing : Phase → Bool
  | .wA | .wDlen | .wFifo _ | .wClr | .wGo | .wWait => true
  | .idle | .rDlen | .rClr | .rGo | .rWait | .rCpoll | .rCfifo | .rDpoll | .rFpoll | .rFfifo | .abC | .abS | .endOk
  | .endTimeout | .endErr => false

/-- The phases after a start of the controller: no byte is pushed any more (42_bus_engine.md R292). -/
def Phase.started : Phase → Bool
  | .wWait | .rDlen | .rClr | .rGo | .rWait | .rCpoll | .rCfifo | .rDpoll | .rFpoll | .rFfifo | .abC | .abS | .endOk
  | .endTimeout => true
  | .idle | .wA | .wDlen | .wFifo _ | .wClr | .wGo | .endErr => false

/-- The windows lie where the parameters put them (10_state.md R43), and the parameters meet their constraints: a
word-aligned `PERI_BASE`, a client, a budget of at least 1 (00_scope.md R10) and a `RDM_RATE` of at least 1
(42_bus_engine.md R320). DESIGN CHOICE, log 33: a sum past 2^32 wraps, as a base is 32 bits wide. -/
structure State.PlacesInv (s : State) : Prop where
  gpio_base : s.win.gpio.base = s.par.periBase + Config.gpioOffset
  gpio_size : s.win.gpio.size = Config.gpioSpanWords
  bsc_base : s.win.bsc.base = s.par.periBase + Config.bscOffset
  bsc_size : s.win.bsc.size = Config.bscSpanWords
  some_client : s.clients ≠ []
  base_aligned : s.par.periBase.toNat % 4 = 0
  budget : 1 ≤ s.par.pollBudget
  rdm_rate : 1 ≤ s.par.rdmRate

/-- The device record is in canonical form: stores and targets sorted, only STORE registers kept, every pin with a pull
state, both FIFOs within their depth (10_state.md R61, R63, R65; 42_bus_engine.md R320). -/
structure DeviceState.Inv (d : DeviceState) : Prop where
  gpio_rising : Rising d.gpioStore
  bsc_rising : Rising d.bscStore
  gpio_stored : ∀ c ∈ d.gpioStore, gpioClass c.1 = .store
  bsc_stored : ∀ c ∈ d.bscStore, bscClass c.1 = .store
  pull_length : d.pull.length = 54
  tx_fits : d.bsc.txq.length ≤ 16
  rx_fits : d.bsc.rxq.length ≤ 16
  targets_rising : Rising d.bsc.tgt
  targets_wf : ∀ t ∈ d.bsc.tgt, Memory.wf t.2.regs

/-- The engine record is consistent (10_state.md R46 to R52). -/
structure Engine.Inv (e : Engine) (budget : Nat) : Prop where
  /-- `IDLE` exactly when no transaction is in flight (R52, R53) -/
  idle_iff : e.phase = .idle ↔ e.owner = none
  /-- R47 -/
  dev_fits : e.dev.toNat < 128
  /-- R49 -/
  payload_fits : e.wbuf.length ≤ 15
  /-- R50 -/
  buffer_length : e.rbuf.length = e.len.toNat
  /-- R50 -/
  idx_fits : e.idx ≤ e.len.toNat
  /-- R50: `rbuf[i]` for `i >= idx` holds 0 -/
  tail_zero : ∀ j, e.idx ≤ j → e.rbuf.getD j 0#8 = 0#8
  /-- R51, 60_exceptions.md R357 -/
  polls_fit : e.polls ≤ budget
  /-- a pop has room for its byte (42_bus_engine.md R297) -/
  pop_fits : e.phase = .rCfifo ∨ e.phase = .rFfifo → e.idx < e.len.toNat
  /-- the select write belongs to a read and has no payload (42_bus_engine.md R296) -/
  select_reads : e.sel = true → e.dir = .read ∧ e.wbuf = []
  /-- the receive phases belong to a read -/
  receive_reads : e.phase.readOnly = true → e.dir = .read
  /-- nothing is received before `START_READ` -/
  idx_zero : e.dir = .read → e.phase.beforeReceive = true → e.idx = 0
  /-- the register byte and the payload are pushed, and nothing beyond (R284) -/
  fifo_index : ∀ i, e.phase = .wFifo i → i ≤ e.wbuf.length
  /-- a pop follows a poll that showed `RXD` (42_bus_engine.md R297) -/
  pop_ready : e.phase = .rCfifo ∨ e.phase = .rFfifo → flagRxd e.s = true
  /-- a read's select write is marked as one (42_bus_engine.md R296) -/
  select_set : e.dir = .read → e.phase.writing = true → e.sel = true
  /-- a write succeeds only on a sample with `DONE` (42_bus_engine.md R302) -/
  write_done : e.dir = .write → e.phase = .endOk → flagDone e.s = true
  /-- a read succeeds only on a sample that ended the final drain (42_bus_engine.md R302) -/
  read_drained : e.dir = .read → e.phase = .endOk → e.wants e.s = false

/-- The engine record holds the operands of the bus operation it serves (42_bus_engine.md R283, R290, R295); in `END_ERR`
that is a write whose payload does not fit (R301). No other operation uses the engine. -/
def Engine.Serves (e : Engine) : Instr → Prop
  | .busWrite dev reg buf =>
    if e.phase = .endErr then 16 ≤ buf.length
    else e.dir = .write ∧ e.dev.toNat = dev ∧ e.reg = reg ∧ e.wbuf = buf
  | .busRead dev reg len => e.phase ≠ .endErr ∧ e.dir = .read ∧ e.dev.toNat = dev ∧ e.reg = reg ∧ e.len.toNat = len
  | .map _ | .unmap _ | .readWord _ _ | .writeWord _ _ _ | .setBits _ _ _ | .clearBits _ _ _ | .getField _ _ _ _
  | .setField _ _ _ _ _ | .delayUs _ | .configureAsInput _ | .readPin _ | .enablePullups _ => False

/-- Clients, engine and the record of faults agree (10_state.md R53, R54, R68; 60_exceptions.md R345, R347). -/
structure State.ClientsInv (s : State) : Prop where
  /-- the owner is in a bus operation, and the engine serves it -/
  owner_in_op : ∀ c, s.eng.owner = some c → ∃ m i, s.clients[c]? = some m ∧ m.op = some i ∧ s.eng.Serves i
  /-- a client in a bus operation that has not stopped is the owner -/
  bus_op_owns : ∀ c m i, s.clients[c]? = some m → m.op = some i → isBusOp i = true → m.stopped = none →
    s.eng.owner = some c
  /-- between operations a client has no step count and no value -/
  between_clear : ∀ m ∈ s.clients, m.op = none → m.step = 0 ∧ m.val = 0#32
  /-- every recorded fault stopped its client -/
  fault_stops : ∀ f ∈ s.faults, ∃ m, s.clients[f.client]? = some m ∧ m.stopped = some (.fault f.code f.info)
  /-- a client stopped by a fault is recorded -/
  stop_recorded : ∀ c m code info, s.clients[c]? = some m → m.stopped = some (.fault code info) →
    ⟨c, code, info⟩ ∈ s.faults
  /-- a refused client has set the mark -/
  refusal_marked : ∀ m ∈ s.clients, ∀ r, m.stopped = some (.refuse r) → s.refused = true

/-- The machine's invariant. -/
structure State.Inv (s : State) : Prop where
  places : s.PlacesInv
  device : s.dev.Inv
  engine : s.eng.Inv s.par.pollBudget
  clients : s.ClientsInv

/-! ### What a read returns -/

/-- The bytes client `c` popped from `BSC.FIFO` since its last `START_READ`, in pop order, read off the history
(42_bus_engine.md R297). -/
def popped (c : Nat) (h : List Event) : List Byte :=
  h.foldl
    (fun acc e =>
      match e with
      | .access d kind o .write v =>
        if d = c ∧ kind = .bsc ∧ o = offC ∧ v = startRead then [] else acc
      | .access d kind o .read v =>
        if d = c ∧ kind = .bsc ∧ o = offFifo then acc ++ [truncByte v] else acc
      | .delay _ _ => acc
      | .start _ _ => acc
      | .done _ _ _ => acc) []

/-- In the receive part the buffer holds exactly the bytes the owner popped since `START_READ`. -/
def State.BufferHoldsPops (s : State) : Prop :=
  ∀ c, s.eng.owner = some c → s.eng.phase.receiving = true → s.eng.rbuf.take s.eng.idx = popped c s.hist

end Sys2Proof.Machine
end

