-- ==== Sys2Proof/WellFormed.lean ====
section
/-! DEFINITION. When an operation's arguments lie in the domain its rule admits (60_exceptions.md R347's operand
refusals). An ill-formed operation can be issued; its start step refuses it. -/

namespace Sys2Proof

/-- A pin the GPIO operations admit (41_gpio_fields.md R252). -/
def pinAdmitted (p : Int) : Bool := decide (0 ≤ p) && decide (p < Config.pinCount)

/-- A field shape that is admitted (40_register_window.md R212). -/
def shapeAdmitted (lsb width : Nat) : Bool := decide (1 ≤ width) && decide (lsb + width ≤ 32)

/-- The operand domain of each operation (40_register_window.md R212, R215; 41_gpio_fields.md R252;
42_bus_engine.md R300; 30_encoding.md R169). -/
def Instr.wellFormed : Instr → Bool
  | .map _ => true
  | .unmap _ => true
  | .readWord _ _ => true
  | .writeWord _ _ _ => true
  | .setBits _ _ _ => true
  | .clearBits _ _ _ => true
  | .getField _ _ lsb width => shapeAdmitted lsb width
  | .setField _ _ lsb width value => shapeAdmitted lsb width && decide (value.toNat < 2 ^ width)
  | .delayUs _ => true
  | .configureAsInput pin => pinAdmitted pin
  | .readPin pin => pinAdmitted pin
  | .enablePullups _ => true
  | .busWrite dev _ buf => decide (dev < 2 ^ Config.devAddrWidth) && decide (buf.length ≤ Config.lenMax)
  | .busRead dev _ len => decide (dev < 2 ^ Config.devAddrWidth) && (decide (1 ≤ len) && decide (len ≤ Config.lenMax))

end Sys2Proof
end

