-- ==== Sys2Proof/Certificates/Slice0/Obligations.lean ====
section
/-! DEFINITION. The statements for the provers. The tables under Sys2Proof.Claims are written out from the rules a second
time, apart from the meanings; each statement says that the machine does what its table says. -/

namespace Sys2Proof.Claims

open Sys2Proof.Machine

/-! ### Frames -/

/-- The word a read returns under LOOSE (40_register_window.md R206), `st` being the word last written and `a` the
draw. -/
def looseReading (k : WindowKind) (o : Nat) (st : Option Word) (a : Word) : Word :=
  if regClass k o = .store then
    match st with
    | some w => (w &&& writable k o) ||| (a &&& ~~~writable k o)
    | none => a
  else a

/-- A step of the acting client that made one register read: `v` was returned, `e` is the engine after it, and nothing
else moved except the inputs and the controller (20_memory.md R107). Under LOOSE `v` is the rule's word for the next
scripted answer where one is queued (log 4), its written bits are those last written whatever the draw, and the rest is
free; under REFERENCE `v` and the controller after it are the reference device's (41_gpio_fields.md R265;
42_bus_engine.md R324, R326, R329). -/
structure ReadStep (s t : State) (e : Engine) (k : WindowKind) (o : Nat) (v : Word) : Prop where
  hist : t.hist = s.hist ++ [.access s.cur k o .read v]
  clients : t.clients = s.clients.modify s.cur fun m => { m with step := m.step + 1, val := v }
  eng : t.eng = e
  win : t.win = s.win
  faults : t.faults = s.faults
  refused : t.refused = s.refused
  par : t.par = s.par
  cur : t.cur = s.cur
  turns : t.env.turns = s.env.turns
  mapAnswers : t.env.mapAnswers = s.env.mapAnswers
  answers : t.env.answers = if s.par.device = .loose then s.env.answers.tail else s.env.answers
  scripted : s.par.device = .loose → ∀ a more, s.env.answers = a :: more → v = looseReading k o (s.stored k o) a
  written : s.par.device = .loose → regClass k o = .store → ∀ w, s.stored k o = some w →
    v &&& writable k o = w &&& writable k o
  stored : ∀ k' o', t.stored k' o' = s.stored k' o'
  pull : t.dev.pull = s.dev.pull
  pud : t.dev.pud = s.dev.pud
  levels : t.dev.levels = s.dev.levels
  gpioStart : t.dev.gpioStart = s.dev.gpioStart
  controller : (s.par.device = .loose ∨ k = .gpio) → t.dev.bsc = s.dev.bsc
  gpioReference : s.par.device = .reference → k = .gpio → v = s.dev.gpioRead o
  bscReference : s.par.device = .reference → k = .bsc →
    v = (s.dev.bsc.read s.par.rdmRate o).1 ∧ t.dev.bsc = (s.dev.bsc.read s.par.rdmRate o).2

/-- A step of the acting client that made one register write: only the word written is kept, and only a STORE register
keeps one (10_state.md R57, R61); the pull handshake moves only by GPPUD and GPPUDCLK0, a pin's pull only by GPPUDCLK0,
the controller only under REFERENCE (20_memory.md R108), and there as the reference device's write says
(42_bus_engine.md R321 to R323, R329). -/
structure WriteStep (s t : State) (e : Engine) (kind : WindowKind) (o : Nat) (v : Word) : Prop where
  hist : t.hist = s.hist ++ [.access s.cur kind o .write v]
  clients : t.clients = s.clients.modify s.cur fun m => { m with step := m.step + 1 }
  eng : t.eng = e
  win : t.win = s.win
  faults : t.faults = s.faults
  refused : t.refused = s.refused
  par : t.par = s.par
  cur : t.cur = s.cur
  env : t.env = s.env
  written : t.stored kind o = if regClass kind o = .store then some v else s.stored kind o
  others : ∀ k' o', (k', o') ≠ (kind, o) → t.stored k' o' = s.stored k' o'
  pull : (kind, o) ≠ (.gpio, 38) → t.dev.pull = s.dev.pull
  pud : (kind, o) ≠ (.gpio, 37) → (kind, o) ≠ (.gpio, 38) → t.dev.pud = s.dev.pud
  levels : t.dev.levels = s.dev.levels
  gpioStart : t.dev.gpioStart = s.dev.gpioStart
  controller : (s.par.device = .loose ∨ kind = .gpio) → t.dev.bsc = s.dev.bsc
  bscReference : s.par.device = .reference → kind = .bsc → t.dev.bsc = s.dev.bsc.write o v

/-! ### Window and GPIO operations: what each step is, by the count of accesses and delays made -/

/-- The read an operation makes first (40_register_window.md R207, R209, R210, R213, R214; 41_gpio_fields.md R250,
R255). -/
def readOf : Instr → Option (WindowKind × Nat)
  | .readWord k o => some (k, o)
  | .setBits k o _ => some (k, o)
  | .clearBits k o _ => some (k, o)
  | .getField k o _ _ => some (k, o)
  | .setField k o _ _ _ => some (k, o)
  | .configureAsInput p => some (.gpio, p.toNat / 10)
  | .readPin p => some (.gpio, 13 + p.toNat / 32)
  | .map _ | .unmap _ | .writeWord _ _ _ | .delayUs _ | .enablePullups _ | .busWrite _ _ _ | .busRead _ _ _ => none

/-- A reserved bit of a register the block uses (30_encoding.md R142, R144, R145, R146, R151 to R155). -/
def reservedBit : WindowKind → Nat → Nat → Bool
  | .gpio, o, n =>
    decide (o ≤ 4 ∧ (n = 30 ∨ n = 31) ∨ o = 5 ∧ 12 ≤ n ∧ n ≤ 31 ∨ o = 14 ∧ 22 ≤ n ∧ n ≤ 31 ∨ o = 37 ∧ 2 ≤ n ∧ n ≤ 31)
  | .bsc, o, n =>
    decide
      (o = 0 ∧ n ≤ 31 ∧ n ∉ [0, 4, 5, 7, 8, 9, 10, 15] ∨ o = 1 ∧ 10 ≤ n ∧ n ≤ 31 ∨ o = 2 ∧ 16 ≤ n ∧ n ≤ 31 ∨
        o = 3 ∧ 7 ≤ n ∧ n ≤ 31 ∨ o = 4 ∧ 8 ≤ n ∧ n ≤ 31)

/-- The operations whose client chooses the reserved bits written (10_state.md R58). -/
def choosesBits : Instr → Bool
  | .writeWord _ _ _ | .setBits _ _ _ | .setField _ _ _ _ _ => true
  | .map _ | .unmap _ | .readWord _ _ | .clearBits _ _ _ | .getField _ _ _ _ | .delayUs _ | .configureAsInput _
  | .readPin _ | .enablePullups _ | .busWrite _ _ _ | .busRead _ _ _ => false

/-- The word `x` with the bits of `m` cleared, as `clear_bits` and `configure_as_input` write it (R210, R250); its reserved
bits are 0 (R58, R173) or as they were read (R210, R250, R160), by the parameter of log 28. -/
def clearedWord (p : Params) (k : WindowKind) (o : Nat) (x m : Word) : Word :=
  if p.reservedBits = .zero then x &&& ~~~m &&& fieldBits k o else x &&& ~~~m

/-- The write an operation makes after `n` steps, `x` being the word it read (R208, R209, R210, R214, R250, R260). -/
def writeOf (par : Params) (n : Nat) (x : Word) : Instr → Option (WindowKind × Nat × Word)
  | .writeWord k o v => if n = 0 then some (k, o, v) else none
  | .setBits k o m => if n = 1 then some (k, o, x ||| m) else none
  | .clearBits k o m => if n = 1 then some (k, o, clearedWord par k o x m) else none
  | .setField k o lsb w v =>
    if n = 1 then some (k, o, (x &&& ~~~(BitVec.ofNat 32 ((2 ^ w - 1) * 2 ^ lsb))) ||| (v <<< lsb)) else none
  | .configureAsInput p =>
    if n = 1 then some (.gpio, p.toNat / 10, clearedWord par .gpio (p.toNat / 10) x (7#32 <<< (3 * (p.toNat % 10))))
    else none
  | .enablePullups m =>
    if n = 0 then some (.gpio, 37, 2#32)
    else if n = 2 then some (.gpio, 38, m)
    else if n = 4 then some (.gpio, 37, 0#32)
    else if n = 5 then some (.gpio, 38, 0#32)
    else none
  | .map _ | .unmap _ | .readWord _ _ | .getField _ _ _ _ | .delayUs _ | .readPin _ | .busWrite _ _ _
  | .busRead _ _ _ => none

/-- The access a window or GPIO operation makes after `n` steps, `x` being the word it read. -/
def accessOf (par : Params) (n : Nat) (x : Word) (i : Instr) : Option (WindowKind × Nat × Dir) :=
  match writeOf par n x i with
  | some (k, o, _) => some (k, o, .write)
  | none => if n = 0 then (readOf i).map fun r => (r.1, r.2, .read) else none

/-- The delay an operation makes after `n` steps (R216, R260). -/
def delayOf (n : Nat) : Instr → Option Nat
  | .delayUs us => if n = 0 then some us else none
  | .enablePullups _ => if n = 1 ∨ n = 3 then some 10 else none
  | .map _ | .unmap _ | .readWord _ _ | .writeWord _ _ _ | .setBits _ _ _ | .clearBits _ _ _ | .getField _ _ _ _
  | .setField _ _ _ _ _ | .configureAsInput _ | .readPin _ | .busWrite _ _ _ | .busRead _ _ _ => none

/-- The result an operation completes with after `n` steps, `x` being the word it read (R207 to R216, R250, R255,
R260). -/
def resultOf (n : Nat) (x : Word) : Instr → Option Result
  | .readWord _ _ => if n = 1 then some (.ok (.word x)) else none
  | .writeWord _ _ _ => if n = 1 then some (.ok .unit) else none
  | .setBits _ _ _ => if n = 2 then some (.ok .unit) else none
  | .clearBits _ _ _ => if n = 2 then some (.ok .unit) else none
  | .getField _ _ lsb w => if n = 1 then some (.ok (.word ((x >>> lsb) &&& BitVec.ofNat 32 (2 ^ w - 1)))) else none
  | .setField _ _ _ _ _ => if n = 2 then some (.ok .unit) else none
  | .delayUs _ => if n = 1 then some (.ok .unit) else none
  | .configureAsInput _ => if n = 2 then some (.ok .unit) else none
  | .readPin p => if n = 1 then some (.ok (.bool (!x.getLsbD (p.toNat % 32)))) else none
  | .enablePullups _ => if n = 6 then some (.ok .unit) else none
  | .map _ | .unmap _ | .busWrite _ _ _ | .busRead _ _ _ => none

/-- The accesses and delays of an operation that runs alone, in order, `x` being the word it reads. -/
def traceOf (par : Params) (c : Nat) (x : Word) : Instr → List Event
  | .readWord k o => [.access c k o .read x]
  | .writeWord k o v => [.access c k o .write v]
  | .setBits k o m => [.access c k o .read x, .access c k o .write (x ||| m)]
  | .clearBits k o m => [.access c k o .read x, .access c k o .write (clearedWord par k o x m)]
  | .getField k o _ _ => [.access c k o .read x]
  | .setField k o lsb w v =>
    [.access c k o .read x,
      .access c k o .write ((x &&& ~~~(BitVec.ofNat 32 ((2 ^ w - 1) * 2 ^ lsb))) ||| (v <<< lsb))]
  | .delayUs us => [.delay c us]
  | .configureAsInput p =>
    [.access c .gpio (p.toNat / 10) .read x,
      .access c .gpio (p.toNat / 10) .write (clearedWord par .gpio (p.toNat / 10) x (7#32 <<< (3 * (p.toNat % 10))))]
  | .readPin p => [.access c .gpio (13 + p.toNat / 32) .read x]
  | .enablePullups m =>
    [.access c .gpio 37 .write 2#32, .delay c 10, .access c .gpio 38 .write m, .delay c 10,
      .access c .gpio 37 .write 0#32, .access c .gpio 38 .write 0#32]
  | .map _ | .unmap _ | .busWrite _ _ _ | .busRead _ _ _ => []

/-- The register an operation works on, none for `delay_us`. -/
def registerOf : Instr → Option (WindowKind × Nat)
  | .readWord k o => some (k, o)
  | .writeWord k o _ => some (k, o)
  | .setBits k o _ => some (k, o)
  | .clearBits k o _ => some (k, o)
  | .getField k o _ _ => some (k, o)
  | .setField k o _ _ _ => some (k, o)
  | .configureAsInput p => some (.gpio, p.toNat / 10)
  | .readPin p => some (.gpio, 13 + p.toNat / 32)
  | .enablePullups _ => some (.gpio, 38)
  | .map _ | .unmap _ | .delayUs _ | .busWrite _ _ _ | .busRead _ _ _ => none

/-- An operation that writes a register. -/
def writes : Instr → Bool
  | .writeWord _ _ _ | .setBits _ _ _ | .clearBits _ _ _ | .setField _ _ _ _ _ | .configureAsInput _
  | .enablePullups _ => true
  | .readWord _ _ | .getField _ _ _ _ | .readPin _ | .map _ | .unmap _ | .delayUs _ | .busWrite _ _ _
  | .busRead _ _ _ => false

/-- The refusal of an operation whose operands are outside their domain (60_exceptions.md R347, R348). -/
def reasonOf : Instr → RefusalReason
  | .getField _ _ _ _ => .badFieldShape
  | .setField _ _ lsb w _ => if w = 0 ∨ 32 < lsb + w then .badFieldShape else .valueTooWide
  | .configureAsInput _ => .badPin
  | .readPin _ => .badPin
  | .busWrite dev _ _ => if 128 ≤ dev then .badDevAddr else .badLength
  | .busRead dev _ _ => if 128 ≤ dev then .badDevAddr else .badLength
  | .map _ | .unmap _ | .readWord _ _ | .writeWord _ _ _ | .setBits _ _ _ | .clearBits _ _ _ | .delayUs _
  | .enablePullups _ => .badSelector

/-! ### The pull handshake (41_gpio_fields.md R262) -/

/-- A settling delay. -/
def settled (us : Nat) (p : PudPhase) : PudPhase :=
  if 10 ≤ us then
    match p with
    | .none => .none
    | .sel c _ => .sel c true
    | .clk c m a _ => .clk c m a true
  else p

/-- A write of `v` to GPPUD. -/
def selected (v : Word) : PudPhase → PudPhase
  | .clk c m a b => .clk c m a b
  | .none => .sel (some (v.extractLsb' 0 2)) false
  | .sel _ _ => .sel (some (v.extractLsb' 0 2)) false

/-- A write of `v` to GPPUDCLK0, `stored` being GPPUD's stored word. -/
def masked (v : Word) (stored : Option Word) : PudPhase → PudPhase
  | .none => if v = 0#32 then .none else .clk (stored.map fun w => w.extractLsb' 0 2) v false false
  | .sel c a => if v = 0#32 then .sel c a else .clk c v a false
  | .clk c _ _ _ => if v = 0#32 then .none else .clk c v false false

/-- The pull a latch gives. -/
def latched (c : Option (BitVec 2)) (a b : Bool) : PullState :=
  if a = true ∧ b = true then
    if c = some 0#2 then .off else if c = some 1#2 then .down else if c = some 2#2 then .up else .unknown
  else .unknown

/-! ### The engine (42_bus_engine.md R284) -/

/-- The write a phase makes: offset, value and the engine after it. -/
def engineWrite (e : Engine) : Option (Nat × Word × Engine) :=
  match e.phase with
  | .wA => some (3, e.dev.setWidth 32, { e with phase := .wDlen })
  | .wDlen => some (2, BitVec.ofNat 32 (e.wbuf.length + 1), { e with phase := .wFifo 0 })
  | .wFifo 0 =>
    some (4, e.reg.setWidth 32, { e with phase := if 0 < e.wbuf.length then .wFifo 1 else .wClr })
  | .wFifo (j + 1) =>
    match e.wbuf[j]? with
    | some b => some (4, b.setWidth 32, { e with phase := if j + 1 < e.wbuf.length then .wFifo (j + 2) else .wClr })
    | none => none
  | .wClr => some (1, 0x302#32, { e with phase := .wGo })
  | .wGo => some (0, 0x8080#32, { e with phase := .wWait, polls := 0 })
  | .rDlen => some (2, e.len.setWidth 32, { e with phase := .rClr, sel := false })
  | .rClr => some (1, 0x302#32, { e with phase := .rGo })
  | .rGo => some (0, 0x8091#32, { e with phase := .rWait, polls := 0, idx := 0 })
  | .abC => some (0, 0x10#32, { e with phase := .abS })
  | .abS => some (1, 0x302#32, { e with phase := .endTimeout })
  | .idle | .wWait | .rWait | .rCpoll | .rCfifo | .rDpoll | .rFpoll | .rFfifo | .endOk | .endTimeout | .endErr => none

/-- The phase after a poll that sampled `v`, CLKT not set. -/
def afterPoll (e : Engine) (v : Word) : Option Phase :=
  match e.phase with
  | .wWait => some (if v.getLsbD 1 = true then (if e.sel = true then .rDlen else .endOk) else .wWait)
  | .rWait => some (if v.getLsbD 0 = true ∧ v.getLsbD 5 = false then .rWait else .rCpoll)
  | .rCpoll => some (if v.getLsbD 5 = true ∧ e.idx < e.len.toNat then .rCfifo else .rDpoll)
  | .rDpoll => some (if v.getLsbD 1 = true then .rFpoll else .rWait)
  | .rFpoll => some (if v.getLsbD 5 = true ∧ e.idx < e.len.toNat then .rFfifo else .endOk)
  | .idle | .wA | .wDlen | .wFifo _ | .wClr | .wGo | .rDlen | .rClr | .rGo | .rCfifo | .rFfifo | .abC | .abS | .endOk
  | .endTimeout | .endErr => none

/-- The phase after a pop. -/
def afterPop : Phase → Option Phase
  | .rCfifo => some .rCpoll
  | .rFfifo => some .rFpoll
  | .idle | .wA | .wDlen | .wFifo _ | .wClr | .wGo | .wWait | .rDlen | .rClr | .rGo | .rWait | .rCpoll | .rDpoll
  | .rFpoll | .abC | .abS | .endOk | .endTimeout | .endErr => none

/-- The access a phase makes on BSC: its write, its poll (the abort's first write once the budget is used up), or its
pop. -/
def engineAccess (e : Engine) (budget : Nat) : Option (Nat × Dir) :=
  match engineWrite e with
  | some (o, _, _) => some (o, .write)
  | none =>
    if (afterPoll e 0#32).isSome then (if e.polls = budget then some (0, .write) else some (1, .read))
    else if (afterPop e.phase).isSome then some (4, .read)
    else none

/-- The acting client's next step of operation `i` is this access: of a window or GPIO operation, or of the engine it
holds. -/
def NextAccess (s : State) (i : Instr) (k : WindowKind) (o : Nat) (d : Dir) : Prop :=
  (∃ n x, s.InOp i n x ∧ accessOf s.par n x i = some (k, o, d)) ∨
    (isBusOp i = true ∧ s.Holds i ∧ k = .bsc ∧ engineAccess s.eng s.par.pollBudget = some (o, d))

/-- The result a completion phase returns (R302, 60_exceptions.md R340). -/
def endResult (e : Engine) : Option Result :=
  match e.phase with
  | .endOk =>
    match e.dir with
    | .write => some (.ok (.word e.s))
    | .read => some (.ok (.bytes e.rbuf e.idx e.s))
  | .endTimeout => some (.err .busTimeout)
  | .endErr => some (.err .payloadTooLarge)
  | .idle | .wA | .wDlen | .wFifo _ | .wClr | .wGo | .wWait | .rDlen | .rClr | .rGo | .rWait | .rCpoll | .rCfifo
  | .rDpoll | .rFpoll | .rFfifo | .abC | .abS => none

/-! ### The reference controller -/

/-- Bit `n` of the status word (42_bus_engine.md R326). -/
def statusBit (b : BscRef) (n : Nat) : Bool :=
  if n = 9 then b.clkt else if n = 8 then b.err else if n = 7 then decide (b.rxq.length = 16)
  else if n = 6 then decide (b.txq.length = 0) else if n = 5 then decide (0 < b.rxq.length)
  else if n = 4 then decide (b.txq.length < 16) else if n = 1 then b.done else if n = 0 then b.ta else false

end Sys2Proof.Claims

open Sys2Proof Sys2Proof.Machine Sys2Proof.Claims

/-! ## Encoding -/

/-- 30_encoding.md R165, R170: a call of an operation decodes to that operation with every argument, and no other call
does. -/
def Obligations.DecodeReadsExactlyTheEncodedCalls : Prop :=
  ∀ (c : Call) (i : Instr), decode c = .ok i ↔ c = encode i

/-- 30_encoding.md R170: the fourteen selectors decode to their operations, here with zero arguments. -/
def Obligations.TableSelectorsDecodeToTheirOperations : Prop :=
  decodeTableWord 8 0x01 = some (.map .gpio) ∧ decodeTableWord 8 0x02 = some (.unmap .gpio) ∧
    decodeTableWord 8 0x10 = some (.readWord .gpio 0) ∧ decodeTableWord 8 0x11 = some (.writeWord .gpio 0 0#32) ∧
    decodeTableWord 8 0x12 = some (.setBits .gpio 0 0#32) ∧ decodeTableWord 8 0x13 = some (.clearBits .gpio 0 0#32) ∧
    decodeTableWord 8 0x14 = some (.getField .gpio 0 0 0) ∧ decodeTableWord 8 0x15 = some (.setField .gpio 0 0 0 0#32) ∧
    decodeTableWord 8 0x18 = some (.delayUs 0) ∧ decodeTableWord 8 0x20 = some (.configureAsInput 0) ∧
    decodeTableWord 8 0x21 = some (.readPin 0) ∧ decodeTableWord 8 0x22 = some (.enablePullups 0#32) ∧
    decodeTableWord 8 0x30 = some (.busWrite 0 0#8 []) ∧ decodeTableWord 8 0x31 = some (.busRead 0 0#8 0)

/-- 30_encoding.md R172: a selector outside the map decodes to invalid, and a step that meets such a call sets the refusal
mark, makes no access and stops the client. -/
def Obligations.SelectorOutsideTheMapSetsTheRefusalMark : Prop :=
  (∀ c : Call, c.selector.toNat ∉ [0x01, 0x02, 0x10, 0x11, 0x12, 0x13, 0x14, 0x15, 0x18, 0x20, 0x21, 0x22, 0x30, 0x31] →
      decode c = .error .badSelector) ∧
    ∀ (s : State) (c : Nat) (rest : List Nat) (m : ClientState) (call : Call) (calls : List Call),
      s.pick = some (c, rest) → s.clients[c]? = some m → m.op = none → m.prog = call :: calls →
      call.selector.toNat ∉ [0x01, 0x02, 0x10, 0x11, 0x12, 0x13, 0x14, 0x15, 0x18, 0x20, 0x21, 0x22, 0x30, 0x31] →
      ∃ t, step s = .next t ∧ t.refused = true ∧ t.hist = s.hist ∧ t.dev = s.dev ∧ t.win = s.win ∧ t.eng = s.eng ∧
        t.faults = s.faults ∧ t.clients[c]? = some { m with prog := calls, stopped := some (.refuse .badSelector) }

/-- 30_encoding.md R141, R150: the access classes of the two spans, offset by offset. -/
def Obligations.AccessClassesFollowTheRegisterMaps : Prop :=
  (∀ o, regClass .gpio o =
      if o ∈ [0, 1, 2, 3, 4, 5, 37, 38] then .store else if o ∈ [13, 14] then .readOnly else .reserved) ∧
    ∀ o, regClass .bsc o = if o ∈ [0, 3] then .store else if o ∈ [1, 2, 4] then .volatile else .reserved

/-- 30_encoding.md R166, R168; 40_register_window.md R214: replacing a field writes the value's bits at the field's place
and keeps every other bit, and reading the field gives the value back. -/
def Obligations.SetFieldKeepsTheOtherBits : Prop :=
  ∀ (x v : Word) (lsb w : Nat), 1 ≤ w → lsb + w ≤ 32 → v.toNat < 2 ^ w →
    (∀ n, (fieldSet x lsb w v).getLsbD n = if lsb ≤ n ∧ n < lsb + w then v.getLsbD (n - lsb) else x.getLsbD n) ∧
      fieldGet (fieldSet x lsb w v) lsb w = v

/-- 30_encoding.md R142, R167: a pin's mode field lies inside its mode word, in bits `3*(p mod 10)+2 : 3*(p mod 10)`. -/
def Obligations.ModeMaskCoversThePinsThreeBits : Prop :=
  ∀ p n : Nat, p < 54 →
    fselWord p = p / 10 ∧ (fselMask p).getLsbD n = decide (3 * (p % 10) ≤ n ∧ n < 3 * (p % 10) + 3)

/-! ## The step -/

/-- 10_state.md R54: the picked client's next call, decoded, is what the step runs; an operation in progress goes on. That
the call is the first of the client's `prog`, which is then taken (log 7), and that the turn is used up and the draw
counter moves (log 6) are the model's choice. -/
def Obligations.StepRunsTheDecodedOperation : Prop :=
  ∀ (s : State) (c : Nat) (rest : List Nat) (m : ClientState), s.pick = some (c, rest) → s.clients[c]? = some m →
    (∀ (call : Call) (calls : List Call) (i : Instr), m.op = none → m.prog = call :: calls → decode call = .ok i →
      step s = exec i
        { s with
          cur := c
          env := { s.env with turns := rest, draws := s.env.draws + 1 }
          clients := s.clients.modify c fun m => { m with prog := calls } }) ∧
    ∀ i : Instr, m.op = some i →
      step s = exec i { s with cur := c, env := { s.env with turns := rest, draws := s.env.draws + 1 } }

/-- A turn goes only to a client with a step, the next queued turn of such a client is honoured, and the machine stops
exactly when no client has a step (log 6, log 10: the stop is the model's choice). -/
def Obligations.TurnsGoToClientsWithAStep : Prop :=
  (∀ (s : State) (c : Nat) (rest : List Nat), s.pick = some (c, rest) → s.canMove c = true) ∧
    (∀ (s : State) (c : Nat) (rest : List Nat), s.env.turns = c :: rest → s.canMove c = true → s.pick = some (c, rest)) ∧
    ∀ s : State, step s = .fault .noRunnableClient ↔ ∀ c, s.canMove c = false

/-- 10_state.md R54: an operation whose operands are in their domain starts with its event, and nothing else moves. Bus
operations have statements of their own. -/
def Obligations.OperationStartsWithItsEvent : Prop :=
  ∀ (i : Instr) (s : State), isBusOp i = false → i.wellFormed = true → s.Between →
    exec i s = .next
      { s with
        hist := s.hist ++ [.start s.cur i]
        clients := s.clients.modify s.cur fun m => { m with op := some i, step := 0, val := 0#32 } }

/-- 60_exceptions.md R347, R348: an operand outside its domain is refused in the start step, by the first check that
fails; no access is made and the engine is not claimed. -/
def Obligations.OperandsOutsideTheirDomainAreRefused : Prop :=
  ∀ (i : Instr) (s : State), i.wellFormed = false → s.Between →
    exec i s = .next
      { s with
        hist := s.hist ++ [.start s.cur i]
        clients := s.clients.modify s.cur fun m =>
          { m with op := some i, step := 0, val := 0#32, stopped := some (.refuse (reasonOf i)) }
        refused := true }

/-- 41_gpio_fields.md R252. -/
def Obligations.PinsOutsideTheRangeAreRefused : Prop :=
  ∀ (p : Int) (s : State), (p < 0 ∨ 54 ≤ p) → s.Between →
    ∀ i ∈ [Instr.configureAsInput p, Instr.readPin p],
      ∃ t, exec i s = .next t ∧ t.refused = true ∧ t.dev = s.dev ∧ t.eng = s.eng ∧ t.hist = s.hist ++ [.start s.cur i] ∧
        ∀ m, s.clients[s.cur]? = some m → (t.clients[s.cur]?).bind ClientState.stopped = some (.refuse .badPin)

/-- 42_bus_engine.md R300. -/
def Obligations.WideDeviceAddressIsRefusedNotMasked : Prop :=
  ∀ (d : Nat) (reg : Byte) (buf : List Byte) (len : Nat) (s : State), 128 ≤ d → s.Between →
    ∀ i ∈ [Instr.busWrite d reg buf, Instr.busRead d reg len],
      ∃ t, exec i s = .next t ∧ t.refused = true ∧ t.dev = s.dev ∧ t.eng = s.eng ∧ t.hist = s.hist ++ [.start s.cur i] ∧
        ∀ m, s.clients[s.cur]? = some m → (t.clients[s.cur]?).bind ClientState.stopped = some (.refuse .badDevAddr)

/-- 40_register_window.md R215: the shape being admitted, a value with a bit at or above `width` is refused, not masked. -/
def Obligations.WideFieldValueIsRefusedNotMasked : Prop :=
  ∀ (k : WindowKind) (o lsb w : Nat) (v : Word) (s : State), 1 ≤ w → lsb + w ≤ 32 → 2 ^ w ≤ v.toNat → s.Between →
    ∃ t, exec (.setField k o lsb w v) s = .next t ∧ t.refused = true ∧ t.dev = s.dev ∧ t.eng = s.eng ∧
      t.hist = s.hist ++ [.start s.cur (.setField k o lsb w v)] ∧
      ∀ m, s.clients[s.cur]? = some m → (t.clients[s.cur]?).bind ClientState.stopped = some (.refuse .valueTooWide)

/-! ## Register accesses -/

/-- The read step of `read_word`, `set_bits`, `clear_bits`, `get_field`, `set_field`, `configure_as_input` and `read_pin`:
one access is made, and `ReadStep` says what it returns and does. Under LOOSE the writable bits of a STORE register the
block has written hold what it wrote (10_state.md R57; 40_register_window.md R206), and every other bit is the draw: the
next scripted answer where one is queued (log 4), and free where none is. Under REFERENCE the reference device answers; that
a read of C, A or DLEN then answers from the controller's record (42_bus_engine.md R324), where R206 says that a STORE read
is the same as under LOOSE, is the model's reading (log 16). -/
def Obligations.ReadStepReturnsWhatTheBlockWrote : Prop :=
  ∀ (i : Instr) (k : WindowKind) (o : Nat) (x : Word) (s : State),
    readOf i = some (k, o) → s.InOp i 0 x → s.Readable k o →
    ∃ v t, exec i s = .next t ∧ ReadStep s t s.eng k o v

/-- The write steps of `write_word`, `set_bits`, `clear_bits`, `set_field`, `configure_as_input` and `enable_pullups`:
one access is made, of the value the operation's rule gives, and every other register reads as before; under REFERENCE
the controller takes a BSC write. Whether `clear_bits` and `configure_as_input` write a reserved bit as 0 or as it was read
is a parameter, the model's choice (log 28). -/
def Obligations.WriteStepStoresExactlyItsWord : Prop :=
  ∀ (i : Instr) (n : Nat) (k : WindowKind) (o : Nat) (v x : Word) (s : State),
    writeOf s.par n x i = some (k, o, v) → s.InOp i n x → s.Writable k o →
    ∃ t, exec i s = .next t ∧ WriteStep s t s.eng k o v

/-- The delay steps of `delay_us` and `enable_pullups` (40_register_window.md R216): no register is accessed, no window is
needed, and only the pull handshake settles (41_gpio_fields.md R262). -/
def Obligations.DelayStepOnlySettlesThePull : Prop :=
  ∀ (i : Instr) (n us : Nat) (x : Word) (s : State), delayOf n i = some us → s.InOp i n x →
    exec i s = .next
      { s with
        dev := { s.dev with pud := settled us s.dev.pud }
        hist := s.hist ++ [.delay s.cur us]
        clients := s.clients.modify s.cur fun m => { m with step := m.step + 1 } }

/-- The completion step of every window and GPIO operation but `map` and `unmap`: `Done` with the result the operation's
rule gives, and the client is between operations. -/
def Obligations.CompletionReturnsTheResult : Prop :=
  ∀ (i : Instr) (n : Nat) (x : Word) (r : Result) (s : State), resultOf n x i = some r → s.InOp i n x →
    exec i s = .next
      { s with
        hist := s.hist ++ [.done s.cur i r]
        clients := s.clients.modify s.cur fun m => { m with op := none, step := 0, val := 0#32 } }

/-- A window or GPIO operation that runs alone, with its register admitted, leaves exactly the events of its rule and
completes with its result (40_register_window.md R207 to R216; 41_gpio_fields.md R250, R255, R260). The reserved bits that
`clear_bits` and `configure_as_input` write are a parameter, the model's choice (log 28). -/
def Obligations.OperationAloneLeavesItsTrace : Prop :=
  ∀ (i : Instr) (s : State), isBusOp i = false → (∀ k, i ≠ .map k ∧ i ≠ .unmap k) → i.wellFormed = true → s.Between →
    (∀ k o, registerOf i = some (k, o) → s.Readable k o ∧ (writes i = true → regClass k o ≠ .reserved)) →
    ∃ x t r, runAlone i ((traceOf s.par s.cur x i).length + 2) s = .next t ∧
      resultOf (traceOf s.par s.cur x i).length x i = some r ∧
      t.hist = s.hist ++ .start s.cur i :: traceOf s.par s.cur x i ++ [.done s.cur i r] ∧
      t.win = s.win ∧ t.eng = s.eng ∧ t.faults = s.faults ∧ t.refused = s.refused ∧
      (t.clients[s.cur]?).bind ClientState.op = none

/-- 40_register_window.md R205; 60_exceptions.md R348, R349: an access that fails the check stops the client with the first
failing check's fault or refusal; it is not made. Stated for every access of every window and GPIO operation, the second
one of a read-modify-write and each of `enable_pullups` among them, and for every access of the engine. That the stopped
step appends no event is the model's reading (log 14). -/
def Obligations.FailedAccessCheckStopsTheClient : Prop :=
  ∀ (i : Instr) (k : WindowKind) (o : Nat) (d : Dir) (s : State), NextAccess s i k o d →
    ((s.window k).mapped = false →
      exec i s = .next
        { s with
          clients := s.clients.modify s.cur fun m => { m with stopped := some (.fault .windowNotMapped (.register k o)) }
          faults := s.faults ++ [⟨s.cur, .windowNotMapped, .register k o⟩] }) ∧
    ((s.window k).mapped = true → (s.window k).size ≤ o →
      exec i s = .next
        { s with
          clients := s.clients.modify s.cur fun m => { m with stopped := some (.fault .offsetOutOfRange (.register k o)) }
          faults := s.faults ++ [⟨s.cur, .offsetOutOfRange, .register k o⟩] }) ∧
    ((s.window k).mapped = true → o < (s.window k).size → k = .bsc → s.eng.phase ≠ .idle → s.eng.owner ≠ some s.cur →
      exec i s = .next
        { s with
          clients := s.clients.modify s.cur fun m => { m with stopped := some (.fault .busConflict (.client s.cur)) }
          faults := s.faults ++ [⟨s.cur, .busConflict, .client s.cur⟩] }) ∧
    (s.Readable k o → d = .write → regClass k o = .reserved →
      exec i s = .next
        { s with
          clients := s.clients.modify s.cur fun m => { m with stopped := some (.refuse .reservedWrite) }
          refused := true })

/-- 60_exceptions.md R349: a step that stops its client makes no access and changes no window, device or engine state;
what was recorded before stays. That a step stopped at an access appends no event at all is the model's reading
(log 14). -/
def Obligations.FaultsAndRefusalsArePrecise : Prop :=
  ∀ (i : Instr) (s t : State), exec i s = .next t → (∃ m, t.clients[s.cur]? = some m ∧ m.stopped ≠ none) →
    t.win = s.win ∧ t.dev = s.dev ∧ t.eng = s.eng ∧ t.env = s.env ∧
      (t.hist = s.hist ∨ s.Between ∧ t.hist = s.hist ++ [.start s.cur i])

/-- 20_memory.md R115; 40_register_window.md R205: every access in the history was made through a mapped window, inside
its span, with no other client's transaction in flight on BSC, and no RESERVED register was ever written. -/
def Obligations.EveryAccessPassedItsCheck : Prop :=
  ∀ (s t : State) (c : Nat) (k : WindowKind) (o : Nat) (d : Dir) (v : Word),
    step s = .next t → t.hist = s.hist ++ [.access c k o d v] →
    c = t.cur ∧ (s.window k).mapped = true ∧ o < (s.window k).size ∧
      (k = .bsc → s.eng.phase = .idle ∨ s.eng.owner = some c) ∧ (d = .write → regClass k o ≠ .reserved)

/-! ## Windows -/

/-- 40_register_window.md R201: a granted map of an unmapped slot, its body in the completion step (log 11: the model's
choice of step), whether a harness or the free value answers (log 5). That a `map` of BSC keeps the reference controller's
record, so that A, C and DLEN still read the previous window's words under REFERENCE, is the model's reading (log 31). -/
def Obligations.GrantedMapMakesAFreshWindow : Prop :=
  ∀ (k : WindowKind) (n : Nat) (x : Word) (s : State), s.InOp (.map k) n x →
    (s.window k).mapped = false → s.mapAnswer k = true →
    ∃ t, exec (.map k) s = .next t ∧
      t.window k = { s.window k with mapped := true, gen := (s.window k).gen + 1 } ∧
      (∀ k', k' ≠ k → t.window k' = s.window k') ∧
      (∀ o, t.stored k o = none) ∧ (∀ k' o, k' ≠ k → t.stored k' o = s.stored k' o) ∧
      (k = .gpio → t.dev.pud = .none ∧ ∀ p, t.dev.pullOf p = .unknown) ∧
      (k = .bsc → t.dev.pud = s.dev.pud ∧ t.dev.pull = s.dev.pull) ∧ t.dev.bsc = s.dev.bsc ∧ t.eng = s.eng ∧
      t.faults = s.faults ∧ t.refused = s.refused ∧
      t.hist = s.hist ++ [.done s.cur (.map k) (.ok (.handle k ((s.window k).gen + 1)))] ∧
      t.clients = s.clients.modify s.cur fun m => { m with op := none, step := 0, val := 0#32 }

/-- 40_register_window.md R201; 60_exceptions.md R340: `MapError`, for a mapped slot or a platform that refuses, changes
no window, device or engine state. -/
def Obligations.MapErrorChangesNothing : Prop :=
  ∀ (k : WindowKind) (n : Nat) (x : Word) (s : State), s.InOp (.map k) n x →
    ((s.window k).mapped = true ∨ s.mapAnswer k = false) →
    ∃ t, exec (.map k) s = .next t ∧ t.win = s.win ∧ t.dev = s.dev ∧ t.eng = s.eng ∧ t.faults = s.faults ∧
      t.refused = s.refused ∧ t.hist = s.hist ++ [.done s.cur (.map k) (.err .mapError)] ∧
      t.clients = s.clients.modify s.cur fun m => { m with op := none, step := 0, val := 0#32 }

/-- 40_register_window.md R203; 70_reset_and_hazards.md R393: `unmap` ends the window, writes no register and leaves the
device as it is. -/
def Obligations.UnmapEndsTheWindowOnly : Prop :=
  ∀ (k : WindowKind) (n : Nat) (x : Word) (s : State), s.InOp (.unmap k) n x → (s.window k).mapped = true →
    (∀ d m i, d ≠ s.cur → s.clients[d]? = some m → m.op = some i → touches i k = false) →
    (k = .bsc → s.eng.phase = .idle) →
    ∃ t, exec (.unmap k) s = .next t ∧ t.window k = { s.window k with mapped := false } ∧
      (∀ k', k' ≠ k → t.window k' = s.window k') ∧ t.dev = s.dev ∧ t.eng = s.eng ∧ t.faults = s.faults ∧
      t.refused = s.refused ∧ t.hist = s.hist ++ [.done s.cur (.unmap k) (.ok .unit)] ∧
      t.clients = s.clients.modify s.cur fun m => { m with op := none, step := 0, val := 0#32 }

/-- 40_register_window.md R203: the faults of `unmap`, in their order. That the fault comes in the completion step (log
11, the model's choice), that a stopped client's operation still counts (log 12), that an operation counts until it
completes and `map` and `unmap` count too (log 32) and that no event is appended (log 14) are the model's; which of
several clients is named is left open here (log 29). The third clause speaks of a busy engine that no other client's
operation uses, which `State.ClientsInv` excludes. -/
def Obligations.UnmapFaultsWhileTheSpanIsInUse : Prop :=
  ∀ (k : WindowKind) (n : Nat) (x : Word) (s : State), s.InOp (.unmap k) n x →
    ((s.window k).mapped = false →
      ∃ t, exec (.unmap k) s = .next t ∧ t.faults = s.faults ++ [⟨s.cur, .windowNotMapped, .window k⟩] ∧ t.win = s.win ∧
        t.dev = s.dev ∧ t.hist = s.hist) ∧
    ((s.window k).mapped = true →
      (∃ d m i, d ≠ s.cur ∧ s.clients[d]? = some m ∧ m.op = some i ∧ touches i k = true) →
      ∃ t d m i, exec (.unmap k) s = .next t ∧ d ≠ s.cur ∧ s.clients[d]? = some m ∧ m.op = some i ∧ touches i k = true ∧
        t.faults = s.faults ++ [⟨s.cur, .unmapInFlight, .user k (some d)⟩] ∧ t.win = s.win ∧ t.dev = s.dev ∧
        t.hist = s.hist) ∧
    ((s.window k).mapped = true →
      (∀ d m i, d ≠ s.cur → s.clients[d]? = some m → m.op = some i → touches i k = false) → k = .bsc →
      s.eng.phase ≠ .idle →
      ∃ t, exec (.unmap k) s = .next t ∧ t.faults = s.faults ++ [⟨s.cur, .unmapInFlight, .user .bsc s.eng.owner⟩] ∧
        t.win = s.win ∧ t.dev = s.dev ∧ t.hist = s.hist)

/-! ## GPIO -/

/-- 41_gpio_fields.md R256: a level bit of 0 is pressed, 1 is not. -/
def Obligations.LowLevelReadsAsPressed : Prop :=
  ∀ (p : Nat) (x : Word) (s : State), p < 54 → s.InOp (.readPin p) 1 x →
    ∃ t, exec (.readPin p) s = .next t ∧
      t.hist = s.hist ++ [.done s.cur (.readPin p) (.ok (.bool (decide (x.getLsbD (p % 32) = false))))]

/-- 41_gpio_fields.md R260, R262: alone and with no mask pending, `enable_pullups` with a non-zero mask turns on the pull-up
of exactly the pins of the mask and ends the handshake; with a zero mask it changes no pin and leaves a select of 0. -/
def Obligations.EnablePullupsPullsUpExactlyTheMask : Prop :=
  ∀ (m : Word) (s : State), s.Between → s.win.gpio.mapped = true → s.win.gpio.size = 44 →
    (∀ c q a b, s.dev.pud ≠ .clk c q a b) →
    ∃ t, runAlone (.enablePullups m) 8 s = .next t ∧
      (∀ p, p < s.dev.pull.length → t.dev.pullOf p = if m.getLsbD p = true then .up else s.dev.pullOf p) ∧
      t.dev.pud = (if m = 0#32 then .sel (some 0#2) false else .none) ∧ t.stored .gpio 37 = some 0#32 ∧ t.stored .gpio 38 = some 0#32 ∧
      ∀ o, o ≠ 37 → o ≠ 38 → t.stored .gpio o = s.stored .gpio o

/-- 41_gpio_fields.md R262: how a write of GPPUD or GPPUDCLK0 moves the handshake and the pins, from whichever state of
it, whichever operation makes the write (the reserved bits `clear_bits` writes, log 28, move nothing in it). -/
def Obligations.PullRegistersMoveTheHandshake : Prop :=
  ∀ (i : Instr) (n : Nat) (v x : Word) (s : State), s.InOp i n x →
    (writeOf s.par n x i = some (.gpio, 37, v) → s.Writable .gpio 37 →
      ∃ t, exec i s = .next t ∧ t.dev.pud = selected v s.dev.pud ∧ t.dev.pull = s.dev.pull) ∧
    (writeOf s.par n x i = some (.gpio, 38, v) → s.Writable .gpio 38 →
      ∃ t, exec i s = .next t ∧ t.dev.pud = masked v (s.stored .gpio 37) s.dev.pud ∧
        ∀ p, p < s.dev.pull.length →
          t.dev.pullOf p =
            match s.dev.pud with
            | .clk c m a b => if v = 0#32 ∧ m.getLsbD p = true then latched c a b else s.dev.pullOf p
            | .none => s.dev.pullOf p
            | .sel _ _ => s.dev.pullOf p)

/-- 41_gpio_fields.md R263; 10_state.md R63: a pin's pull changes only when a pending handshake's mask register is cleared,
or when a granted `map` of the GPIO window forgets it. That the latter is the completion step is the model's choice
(log 11). -/
def Obligations.PullChangesOnlyAtALatch : Prop :=
  ∀ s t : State, step s = .next t → t.dev.pull ≠ s.dev.pull →
    ((∃ c m a b, s.dev.pud = .clk c m a b) ∧ t.hist = s.hist ++ [.access t.cur .gpio 38 .write 0#32]) ∨
      ∃ g, t.hist = s.hist ++ [.done t.cur (.map .gpio) (.ok (.handle .gpio g))]

/-! ## Engine -/

/-- 42_bus_engine.md R283, R290: a write whose payload fits claims the engine and sets up the transaction; no access is
made. -/
def Obligations.BusWriteStartClaimsTheEngine : Prop :=
  ∀ (d : Nat) (reg : Byte) (buf : List Byte) (s : State), d < 128 → buf.length ≤ 15 → s.Between → s.Claimable →
    exec (.busWrite d reg buf) s = .next
      { s with
        hist := s.hist ++ [.start s.cur (.busWrite d reg buf)]
        clients := s.clients.modify s.cur fun m =>
          { m with op := some (.busWrite d reg buf), step := 0, val := 0#32 }
        eng := { s.eng with
          phase := .wA, owner := some s.cur, dir := .write, sel := false, dev := BitVec.ofNat 8 d, reg := reg
          wbuf := buf } }

/-- 42_bus_engine.md R283, R295, R296: a read claims the engine and sets up its select write; no access is made. -/
def Obligations.BusReadStartClaimsTheEngine : Prop :=
  ∀ (d : Nat) (reg : Byte) (len : Nat) (s : State), d < 128 → 1 ≤ len → len ≤ 65535 → s.Between → s.Claimable →
    exec (.busRead d reg len) s = .next
      { s with
        hist := s.hist ++ [.start s.cur (.busRead d reg len)]
        clients := s.clients.modify s.cur fun m =>
          { m with op := some (.busRead d reg len), step := 0, val := 0#32 }
        eng := { s.eng with
          phase := .wA, owner := some s.cur, dir := .read, sel := true, dev := BitVec.ofNat 8 d, reg := reg, wbuf := []
          len := BitVec.ofNat 16 len, rbuf := List.replicate len 0#8, idx := 0 } }

/-- 42_bus_engine.md R283, R284, R301: `PayloadTooLarge` exactly for payloads of 16 to 65535 bytes, in two steps with no
access; a payload of 15 bytes is accepted; no other operation and no shorter payload reaches `END_ERR`, the only phase that
returns it. That the engine is released in the completion step, where R301 says at once, is the model's reading
(log 19). -/
def Obligations.LongPayloadReturnsPayloadTooLarge : Prop :=
  (∀ (d : Nat) (reg : Byte) (buf : List Byte) (s : State), d < 128 → 16 ≤ buf.length → buf.length ≤ 65535 → s.Between →
    s.Claimable →
    ∃ t, runAlone (.busWrite d reg buf) 2 s = .next t ∧
      t.hist = s.hist ++ [.start s.cur (.busWrite d reg buf), .done s.cur (.busWrite d reg buf) (.err .payloadTooLarge)] ∧
      t.dev = s.dev ∧ t.win = s.win ∧ t.eng.phase = .idle ∧ t.eng.owner = none ∧ t.faults = s.faults ∧
      t.refused = s.refused) ∧
  (∀ (d : Nat) (reg : Byte) (buf : List Byte) (s : State), d < 128 → buf.length = 15 → s.Between → s.Claimable →
    ∃ t, exec (.busWrite d reg buf) s = .next t ∧ t.eng.phase = .wA ∧ t.eng.wbuf = buf) ∧
  (∀ (i : Instr) (s t : State), exec i s = .next t → t.eng.phase = .endErr → s.eng.phase ≠ .endErr →
    s.Between ∧ ∃ d reg buf, i = .busWrite d reg buf ∧ 16 ≤ buf.length) ∧
  ∀ (i : Instr) (s t : State), exec i s = .next t → t.hist = s.hist ++ [.done s.cur i (.err .payloadTooLarge)] →
    s.eng.phase = .endErr

/-- 42_bus_engine.md R281; 60_exceptions.md R346: a bus operation started while a transaction is in flight, or while
another client's window operation on BSC is in progress, faults in its start step. That `map` and `unmap` count as window
operations (log 13) and that a stopped client's operation counts as in progress (log 12) is the model's reading. -/
def Obligations.OverlappingBusOperationFaults : Prop :=
  ∀ (i : Instr) (s : State), isBusOp i = true → i.wellFormed = true → s.Between → ¬ s.Claimable →
    exec i s = .next
      { s with
        hist := s.hist ++ [.start s.cur i]
        clients := s.clients.modify s.cur fun m =>
          { m with op := some i, step := 0, val := 0#32, stopped := some (.fault .busConflict (.client s.cur)) }
        faults := s.faults ++ [⟨s.cur, .busConflict, .client s.cur⟩] }

/-- 42_bus_engine.md R284, R291: the write phases of both bus operations make the table's write and take its next
phase; under REFERENCE the controller takes the write (R329). -/
def Obligations.EngineWritePhasesFollowTheTable : Prop :=
  ∀ (i : Instr) (o : Nat) (v : Word) (e : Engine) (s : State), isBusOp i = true → s.Holds i → s.BscMapped →
    engineWrite s.eng = some (o, v, e) → ∃ t, exec i s = .next t ∧ WriteStep s t e .bsc o v

/-- 42_bus_engine.md R284 to R286: a poll within the budget samples `S` once and decides on that sample alone; a poll with
the budget used up makes the abort's first write instead of a read. The sample is the device's: under LOOSE the next
scripted answer where one is queued (log 4), under REFERENCE the controller's status word (R326). -/
def Obligations.PollSamplesOnceOrAborts : Prop :=
  ∀ (i : Instr) (s : State), isBusOp i = true → s.Holds i → s.BscMapped → (∃ v p, afterPoll s.eng v = some p) →
    (s.eng.polls ≠ s.par.pollBudget →
      ∃ v p t, afterPoll s.eng v = some p ∧ exec i s = .next t ∧
        ReadStep s t
          { s.eng with polls := s.eng.polls + 1, s := v, phase := if v.getLsbD 9 = true then .abC else p } .bsc 1 v ∧
        (s.par.device = .loose → ∀ a more, s.env.answers = a :: more → v = a ∧ t.env.answers = more)) ∧
    (s.eng.polls = s.par.pollBudget →
      ∃ t, exec i s = .next t ∧ WriteStep s t { s.eng with phase := .abS } .bsc 0 0x10#32)

/-- 42_bus_engine.md R284, R297: a pop reads the FIFO once, stores its byte at `idx` and starts the budget anew. The word
popped is the device's: under LOOSE the next scripted answer where one is queued (log 4), under REFERENCE the front of the
receive FIFO (R324). -/
def Obligations.PopStoresTheNextByte : Prop :=
  ∀ (i : Instr) (p : Phase) (s : State), isBusOp i = true → s.Holds i → s.BscMapped → afterPop s.eng.phase = some p →
    ∃ v t, exec i s = .next t ∧
      ReadStep s t
        { s.eng with
          rbuf := s.eng.rbuf.set s.eng.idx (v.setWidth 8), idx := s.eng.idx + 1, polls := 0, phase := p } .bsc 4 v ∧
      (s.par.device = .loose → ∀ a more, s.env.answers = a :: more → v = a ∧ t.env.answers = more)

/-- 42_bus_engine.md R302, R303; 60_exceptions.md R340: a bus operation completes with its result, makes no access and
releases the engine; in a state of the invariant (Obligations.EveryStepKeepsTheInvariant) an `Ok` of `bus_write` carries a
status sample with `DONE`, an `Ok` of `bus_read` its buffer and the sample that ended the final drain, and only a
`bus_write` whose payload does not fit returns `PayloadTooLarge`. -/
def Obligations.BusCompletionReleasesTheEngine : Prop :=
  ∀ (i : Instr) (r : Result) (s : State), isBusOp i = true → s.Holds i → endResult s.eng = some r →
    (exec i s = .next
      { s with
        hist := s.hist ++ [.done s.cur i r]
        clients := s.clients.modify s.cur fun m => { m with op := none, step := 0, val := 0#32 }
        eng := { s.eng with phase := .idle, owner := none } }) ∧
    (s.Inv →
      (∃ dev reg buf v, i = .busWrite dev reg buf ∧ r = .ok (.word v) ∧ v.getLsbD 1 = true) ∨
      (∃ dev reg rbuf got v, i = .busRead dev reg rbuf.length ∧ r = .ok (.bytes rbuf got v) ∧ got ≤ rbuf.length ∧
        (v.getLsbD 5 = false ∨ got = rbuf.length)) ∨
      (∃ dev reg buf, i = .busWrite dev reg buf ∧ 16 ≤ buf.length ∧ r = .err .payloadTooLarge) ∨
      r = .err .busTimeout)

/-- 10_state.md R59; 30_encoding.md R157, R158; 42_bus_engine.md R305: the engine reads only `S` and `FIFO`, writes `C`
with three values only (none of which enables an interrupt) and `S` with one, and does not touch the GPIO span. -/
def Obligations.EngineWritesOnlyItsControlWords : Prop :=
  ∀ (i : Instr) (s t : State), isBusOp i = true → exec i s = .next t →
    (t.dev.gpioStore = s.dev.gpioStore ∧ t.dev.pull = s.dev.pull ∧ t.dev.pud = s.dev.pud) ∧
    ∀ k o d v, t.hist = s.hist ++ [.access s.cur k o d v] →
      k = .bsc ∧ (d = .read → o = 1 ∨ o = 4) ∧
        (d = .write →
          (o = 0 ∧ (v = 0x8080#32 ∨ v = 0x8091#32 ∨ v = 0x10#32)) ∨ (o = 1 ∧ v = 0x302#32) ∨ o = 2 ∨ o = 3 ∨ o = 4)

/-- 42_bus_engine.md R292: after a start of the controller the engine pushes no byte, and only `IDLE` leads back. -/
def Obligations.NoFifoWriteAfterTheStart : Prop :=
  ∀ (i : Instr) (s t : State), isBusOp i = true → ¬ s.Between → s.eng.phase.started = true → exec i s = .next t →
    (t.eng.phase.started = true ∨ t.eng.phase = .idle) ∧
      ∀ v, t.hist ≠ s.hist ++ [.access s.cur .bsc 4 .write v]

/-! ## Whole-machine rules -/

/-- 10_state.md R67, R54: a step appends one event of its client, or, where it stops its client before any event, none. -/
def Obligations.StepAppendsOneEvent : Prop :=
  ∀ s t : State, step s = .next t →
    (∃ e, t.hist = s.hist ++ [e] ∧
      ((∃ k o d v, e = .access t.cur k o d v) ∨ (∃ us, e = .delay t.cur us) ∨ (∃ i, e = .start t.cur i) ∨
        ∃ i r, e = .done t.cur i r)) ∨
      (t.hist = s.hist ∧ ∃ m, t.clients[t.cur]? = some m ∧ m.stopped ≠ none)

/-- 10_state.md R68, R69; 60_exceptions.md R345, R347: a fault is never removed, a new one is the acting client's and stops
it, the refusal mark stays set, and a stopped client takes no further step and is not changed. -/
def Obligations.FaultsStayAndStoppedClientsTakeNoStep : Prop :=
  ∀ s t : State, step s = .next t →
    (t.faults = s.faults ∨
      ∃ code info, t.faults = s.faults ++ [⟨t.cur, code, info⟩] ∧
        ∃ m, t.clients[t.cur]? = some m ∧ m.stopped = some (.fault code info)) ∧
    (s.refused = true → t.refused = true) ∧
      ∀ (c : Nat) (m : ClientState), s.clients[c]? = some m → m.stopped ≠ none → t.cur ≠ c ∧ t.clients[c]? = some m

/-- 60_exceptions.md R344: a step changes no other client. -/
def Obligations.StepChangesNoOtherClient : Prop :=
  ∀ s t : State, step s = .next t → t.clients.length = s.clients.length ∧
    ∀ d, d ≠ t.cur → t.clients[d]? = s.clients[d]?

/-- 10_state.md R43; 20_memory.md R112; 41_gpio_fields.md R265: bases, sizes, parameters and the harness's pin levels are
fixed. That the harness's start values of GPIO registers stay too, through `map` as well, is the model's choice (log 30). -/
def Obligations.PlacesAndParametersStayFixed : Prop :=
  ∀ s t : State, step s = .next t →
    t.par = s.par ∧ (∀ k, (t.window k).base = (s.window k).base ∧ (t.window k).size = (s.window k).size) ∧
      t.dev.levels = s.dev.levels ∧ t.dev.gpioStart = s.dev.gpioStart

/-- 20_memory.md R104; 00_scope.md R10: in every state whose windows lie where the parameters put them (a word-aligned
`PERI_BASE` among them), every word offset of a span has an aligned physical address. That a base past 2^32 wraps and an address
does not is the model's choice (log 33). -/
def Obligations.EveryWordAddressIsAligned : Prop :=
  ∀ (s : State) (k : WindowKind) (o : Nat), s.PlacesInv → (s.window k).addr o % 4 = 0

/-- The machine's invariant (Safety.lean), kept by every step from every state that meets it. -/
def Obligations.EveryStepKeepsTheInvariant : Prop :=
  ∀ s t : State, s.Inv → step s = .next t → t.Inv

/-- 42_bus_engine.md R297; 10_state.md R50: in the receive part the buffer holds exactly the bytes the owner popped since
`START_READ`, in pop order, none dropped and none stored twice; kept by every step, whatever the other clients do. -/
def Obligations.EveryStepKeepsTheBufferOfPops : Prop :=
  ∀ s t : State, s.Inv → s.BufferHoldsPops → step s = .next t → t.BufferHoldsPops

/-- 60_exceptions.md R352: alone, a window or GPIO operation is over within 8 steps: it has completed, or it faulted or was
refused. -/
def Obligations.WindowOperationEndsWithinEightSteps : Prop :=
  ∀ (i : Instr) (s : State), isBusOp i = false → s.Between →
    ∃ n t, 1 ≤ n ∧ n ≤ 8 ∧ runAlone i n s = .next t ∧ t.Over

/-- 60_exceptions.md R352: alone, a `bus_write` of `n` bytes is over within `1 + (n + 5) + POLL_BUDGET + 2 + 1` steps,
whatever the device answers. -/
def Obligations.BusWriteEndsWithinItsBound : Prop :=
  ∀ (d : Nat) (reg : Byte) (buf : List Byte) (s : State), s.Between →
    ∃ n t, 1 ≤ n ∧ n ≤ 1 + (buf.length + 5) + s.par.pollBudget + 2 + 1 ∧
      runAlone (.busWrite d reg buf) n s = .next t ∧ t.Over

/-- 60_exceptions.md R352: alone, a `bus_read` of `len` bytes is over within its bound, whatever the device answers. -/
def Obligations.BusReadEndsWithinItsBound : Prop :=
  ∀ (d : Nat) (reg : Byte) (len : Nat) (s : State), s.Between →
    ∃ n t, 1 ≤ n ∧
      n ≤ 1 + 5 + s.par.pollBudget + 3 + ((len + 1) * s.par.pollBudget + len) + 2 + 1 ∧
      runAlone (.busRead d reg len) n s = .next t ∧ t.Over

/-! ## Reset -/

/-- 70_reset_and_hazards.md R390; 10_state.md R90: every value the spec gives the state at driver load. -/
def Obligations.ResetIsTheStateAtDriverLoad : Prop :=
  (∀ k, (State.reset.window k).mapped = false ∧ (State.reset.window k).gen = 0) ∧
    State.reset.win.gpio.size = 44 ∧ State.reset.win.bsc.size = 8 ∧
    State.reset.win.gpio.base = State.reset.par.periBase + 0x200000#32 ∧
    State.reset.win.bsc.base = State.reset.par.periBase + 0x804000#32 ∧
    State.reset.eng.phase = .idle ∧ State.reset.eng.owner = none ∧ State.reset.eng.polls = 0 ∧
    (∀ m ∈ State.reset.clients, m.op = none ∧ m.step = 0) ∧ (∀ k o, State.reset.stored k o = none) ∧
    (∀ p, State.reset.dev.pullOf p = .unknown) ∧ State.reset.dev.pud = .none ∧ State.reset.hist = [] ∧
    State.reset.faults = [] ∧ State.reset.refused = false

/-- The reset state meets the invariant. -/
def Obligations.ResetMeetsTheInvariant : Prop := State.reset.Inv ∧ State.reset.BufferHoldsPops

/-! ## Reference device -/

/-- 42_bus_engine.md R326: the bits of the reference controller's status word. -/
def Obligations.ReferenceStatusShowsTheFlags : Prop :=
  ∀ (b : BscRef) (n : Nat), (statusWord b).getLsbD n = statusBit b n

/-- 42_bus_engine.md R321 to R323: the reference controller's register writes. -/
def Obligations.ReferenceControllerTakesRegisterWrites : Prop :=
  ∀ (b : BscRef) (v : Word),
    ((b.write 0 v).c = v &&& 0x8701#32 ∧ (b.write 0 v).dlen = b.dlen ∧ (b.write 0 v).a = b.a ∧
      (b.write 0 v).err = b.err ∧ (b.write 0 v).clkt = b.clkt ∧ (b.write 0 v).tgt = b.tgt) ∧
    ((b.write 0 v).txq = (if v.getLsbD 5 = true ∨ v.getLsbD 4 = true then [] else b.txq) ∧
      (b.write 0 v).rxq = if v.getLsbD 5 = true ∨ v.getLsbD 4 = true then [] else b.rxq) ∧
    (v.getLsbD 15 = true → v.getLsbD 7 = true →
      (b.write 0 v).ta = decide (b.dlen.toNat ≠ 0) ∧ (b.write 0 v).done = decide (b.dlen.toNat = 0) ∧
        (b.write 0 v).rd = v.getLsbD 0 ∧ (b.write 0 v).rem = b.dlen.toNat ∧ (b.write 0 v).first = true ∧
        (b.write 0 v).cur = b.a) ∧
    (v.getLsbD 15 = false ∨ v.getLsbD 7 = false →
      (b.write 0 v).ta = (v.getLsbD 15 && b.ta) ∧ (b.write 0 v).done = b.done ∧ (b.write 0 v).rd = b.rd ∧
        (b.write 0 v).rem = b.rem ∧ (b.write 0 v).first = b.first ∧ (b.write 0 v).cur = b.cur) ∧
    b.write 1 v =
      { b with
        clkt := if v.getLsbD 9 = true then false else b.clkt
        err := if v.getLsbD 8 = true then false else b.err
        done := if v.getLsbD 1 = true then false else b.done } ∧
    b.write 2 v = { b with dlen := v.setWidth 16 } ∧ b.write 3 v = { b with a := v.setWidth 7 } ∧
    b.write 4 v = { b with txq := if b.txq.length < 16 then b.txq ++ [v.setWidth 8] else b.txq }

/-- 42_bus_engine.md R325, R327: a byte step of a running transfer with an ACK target: a write's first byte sets the
pointer, a later one is stored at it; a read's byte comes from it; the pointer moves on modulo 256; the transfer completes
when its count reaches 0. The target is still there, every other target and every other field is kept. -/
def Obligations.ReferenceTargetFollowsItsPointer : Prop :=
  ∀ (b : BscRef) (t : Target), b.ta = true → Cells.get? b.tgt b.cur.toNat = some t → t.mode = .ack →
    Memory.wf t.regs →
    (b.rd = true → b.rxq.length < 16 →
      ∃ targets,
        b.byteStep =
          { b with
            rxq := b.rxq ++ [Memory.read t.regs t.ptr.toNat], rem := b.rem - 1, ta := decide (1 < b.rem)
            done := if 1 < b.rem then b.done else true, tgt := targets } ∧
        ∀ a, Cells.get? targets a =
          if a = b.cur.toNat then some { t with ptr := t.ptr + 1#8 } else Cells.get? b.tgt a) ∧
    (∀ x rest, b.rd = false → b.txq = x :: rest →
      ∃ targets u,
        b.byteStep =
          { b with
            txq := rest, first := false, rem := b.rem - 1, ta := decide (1 < b.rem)
            done := if 1 < b.rem then b.done else true, tgt := targets } ∧
        (∀ a, Cells.get? targets a = if a = b.cur.toNat then some u else Cells.get? b.tgt a) ∧
        (b.first = true → u = { t with ptr := x }) ∧
        (b.first = false → u.ptr = t.ptr + 1#8 ∧ u.mode = t.mode ∧
          ∀ a, Memory.read u.regs a = if a = t.ptr.toNat then x else Memory.read t.regs a))

/-- 42_bus_engine.md R325: a byte step with no target at the latched address ends the transfer with ERR and an empty
transmit FIFO, a STALL target holds it, a STRETCH target ends it with CLKT and without DONE; with no transfer running, with
nothing to send or with a full receive FIFO, nothing moves. -/
def Obligations.ReferenceByteStepWithoutAnAck : Prop :=
  ∀ b : BscRef,
    (b.ta = false → b.byteStep = b) ∧
    (b.ta = true → Cells.get? b.tgt b.cur.toNat = none →
      b.byteStep = { b with err := true, done := true, ta := false, txq := [] }) ∧
    ∀ t, b.ta = true → Cells.get? b.tgt b.cur.toNat = some t →
      (t.mode = .stall → b.byteStep = b) ∧ (t.mode = .stretch → b.byteStep = { b with clkt := true, ta := false }) ∧
        (t.mode = .ack → b.rd = false → b.txq = [] → b.byteStep = b) ∧
        (t.mode = .ack → b.rd = true → b.rxq.length = 16 → b.byteStep = b)

/-- 42_bus_engine.md R324, R326: a read of `FIFO` pops the front byte, or returns 0; a read of `S`, and no other, advances
the controller by `RDM_RATE` byte steps and then returns the status word. -/
def Obligations.ReferenceReadsPopAndAdvance : Prop :=
  ∀ (b : BscRef) (rate : Nat),
    (∀ x rest, b.rxq = x :: rest → b.read rate 4 = (x.setWidth 32, { b with rxq := rest })) ∧
    (b.rxq = [] → b.read rate 4 = (0#32, b)) ∧
    (b.read rate 1).2 = b.byteSteps rate ∧ (∀ n, (b.read rate 1).1.getLsbD n = statusBit (b.byteSteps rate) n) ∧
    b.byteSteps 0 = b ∧ (∀ n, b.byteSteps (n + 1) = b.byteStep.byteSteps n) ∧
    b.read rate 0 = (b.c, b) ∧ b.read rate 2 = (b.dlen.setWidth 32, b) ∧ b.read rate 3 = (b.a.setWidth 32, b) ∧
    b.read rate 5 = (0x5DC#32, b) ∧ b.read rate 6 = (0x300030#32, b) ∧ b.read rate 7 = (0x40#32, b)

/-- 41_gpio_fields.md R265: the reference GPIO span's level registers show the pins' levels, a STORE register shows what was
written, else its start value, else its datasheet reset value 0, with reserved bits 0, and a RESERVED offset reads 0. -/
def Obligations.ReferenceGpioSpanReads : Prop :=
  ∀ (d : DeviceState) (n : Nat),
    (d.gpioRead 13).getLsbD n = (decide (n < 32) && d.levels.getLsbD n) ∧
      (d.gpioRead 14).getLsbD n = (decide (n < 22) && d.levels.getLsbD (n + 32)) ∧
      ∀ o, (regClass .gpio o = .reserved → d.gpioRead o = 0#32) ∧
        (regClass .gpio o = .store →
          d.gpioRead o =
            writable .gpio o &&&
              match Cells.get? d.gpioStore o, Cells.get? d.gpioStart o with
              | some w, _ => w
              | none, some w => w
              | none, none => 0#32)

/-- The byte memory of a reference target: a read after a write gives the value written at its address and what was there
before elsewhere, and the canonical form is kept. -/
def Obligations.TargetMemoryReadsBackWrites : Prop :=
  ∀ (m : Memory) (a x : Nat) (v : Byte), Memory.wf m →
    Memory.wf (Memory.write m a v) ∧ Memory.read (Memory.write m a v) x = if x = a then v else Memory.read m x

/-! ## Codes -/

/-- 60_exceptions.md R340, R341, R345: the numeric codes; from every state of the invariant an error result a step returns
is one of the first three codes, of the operations its row names (codes 4 and 5 are never returned), and a fault a step
records is the acting client's, with the row's form of `info`. -/
def Obligations.ErrorsAndFaultsCarryTheirCodes : Prop :=
  (ErrCode.mapError.code = 1 ∧ ErrCode.payloadTooLarge.code = 2 ∧ ErrCode.busTimeout.code = 3 ∧
    ErrCode.invalidConfig.code = 4 ∧ ErrCode.allocationFailure.code = 5) ∧
  (FaultCode.offsetOutOfRange.code = 16 ∧ FaultCode.windowNotMapped.code = 17 ∧ FaultCode.busConflict.code = 18 ∧
    FaultCode.unmapInFlight.code = 19) ∧
  ∀ s t : State, s.Inv → step s = .next t →
    (∀ c i e, t.hist = s.hist ++ [.done c i (.err e)] →
      (e.code = 1 ∧ ∃ k, i = .map k) ∨ (e.code = 2 ∧ ∃ dev reg buf, i = .busWrite dev reg buf ∧ 16 ≤ buf.length) ∨
        (e.code = 3 ∧ isBusOp i = true)) ∧
    ∀ f, t.faults = s.faults ++ [f] →
      f.client = t.cur ∧
        ((f.code.code = 16 ∧ ∃ k o, f.info = .register k o) ∨
          (f.code.code = 17 ∧ ((∃ k o, f.info = .register k o) ∨ ∃ k, f.info = .window k)) ∨
          (f.code.code = 18 ∧ f.info = .client f.client) ∨
          (f.code.code = 19 ∧ ∃ k d, f.info = .user k (some d) ∧ d ≠ f.client))

/-! ## Reserved bits -/

/-- 10_state.md R58; 30_encoding.md R173: which bits are reserved; and with the parameter set as these rules say (log 28, the
model's choice), from every state of the invariant, every register write of an operation whose client does not choose the
bits has 0 in each of them. -/
def Obligations.BlockWritesZeroToReservedBits : Prop :=
  (∀ k o n, n < 32 → regClass k o ≠ .reserved → (fieldBits k o).getLsbD n = !reservedBit k o n) ∧
    ∀ (i : Instr) (s t : State) (k : WindowKind) (o : Nat) (v : Word), s.Inv → s.par.reservedBits = .zero →
      exec i s = .next t → t.hist = s.hist ++ [.access s.cur k o .write v] → choosesBits i = false →
      ∀ n, reservedBit k o n = true → v.getLsbD n = false
end

