-- ==== Sys2Proof/Laws/Cells.lean ====
section
/-! SUPPORT. Sparse tables: read after write, and every operation keeps the canonical form. -/

namespace Sys2Proof.Machine

variable {α : Type}

/-- Every key of a table satisfies what the keys of the table and the new key satisfy. -/
theorem Cells.mem_put {l : List (Nat × α)} {k : Nat} {v : α} {c : Nat × α} (h : c ∈ Cells.put l k v) :
    c = (k, v) ∨ c ∈ l := by
  induction l with
  | nil => simpa [Cells.put] using h
  | cons a rest ih =>
    obtain ⟨j, w⟩ := a
    simp only [Cells.put] at h
    split at h
    · simpa using h
    · split at h
      · rcases List.mem_cons.1 h with h | h
        · exact .inl h
        · exact .inr (List.mem_cons_of_mem _ h)
      · rcases List.mem_cons.1 h with h | h
        · exact .inr (h ▸ List.mem_cons_self)
        · exact (ih h).imp_right (List.mem_cons_of_mem _)

theorem Cells.mem_erase {l : List (Nat × α)} {k : Nat} {c : Nat × α} (h : c ∈ Cells.erase l k) : c ∈ l := by
  induction l with
  | nil => simp [Cells.erase] at h
  | cons a rest ih =>
    obtain ⟨j, w⟩ := a
    simp only [Cells.erase] at h
    split at h
    · exact List.mem_cons_of_mem _ h
    · rcases List.mem_cons.1 h with h | h
      · exact h ▸ List.mem_cons_self
      · exact List.mem_cons_of_mem _ (ih h)

theorem Cells.put_rising {l : List (Nat × α)} (k : Nat) (v : α) (h : Rising l) : Rising (Cells.put l k v) := by
  induction l with
  | nil => simp [Cells.put]
  | cons a rest ih =>
    obtain ⟨j, w⟩ := a
    obtain ⟨hj, hr⟩ := List.pairwise_cons.1 h
    simp only [Cells.put]
    split
    · rename_i hk
      refine List.pairwise_cons.2 ⟨fun c hc => ?_, h⟩
      rcases List.mem_cons.1 hc with rfl | hc
      · exact hk
      · exact Nat.lt_trans hk (hj c hc)
    · split
      · rename_i hk
        subst hk
        exact List.pairwise_cons.2 ⟨hj, hr⟩
      · rename_i h1 h2
        refine List.pairwise_cons.2 ⟨fun c hc => ?_, ih hr⟩
        rcases Cells.mem_put hc with rfl | hc
        · show j < k
          omega
        · exact hj c hc

theorem Cells.erase_rising {l : List (Nat × α)} (k : Nat) (h : Rising l) : Rising (Cells.erase l k) := by
  induction l with
  | nil => exact h
  | cons a rest ih =>
    obtain ⟨j, w⟩ := a
    obtain ⟨hj, hr⟩ := List.pairwise_cons.1 h
    simp only [Cells.erase]
    split
    · exact hr
    · exact List.pairwise_cons.2 ⟨fun c hc => hj c (Cells.mem_erase hc), ih hr⟩

/-- A key's value after a write. -/
theorem Cells.get?_put (l : List (Nat × α)) (k : Nat) (v : α) (k' : Nat) :
    Cells.get? (Cells.put l k v) k' = if k' = k then some v else Cells.get? l k' := by
  induction l with
  | nil => simp [Cells.put, Cells.get?, eq_comm]
  | cons a rest ih =>
    obtain ⟨j, w⟩ := a
    simp only [Cells.put]
    split
    · rw [Cells.get?]
      simp only [eq_comm (a := k)]
    · split
      · rename_i hk
        subst hk
        simp only [Cells.get?, eq_comm (a := k)]
        split <;> rfl
      · rename_i h1 h2
        simp only [Cells.get?, ih]
        by_cases e : j = k'
        · subst e
          rw [if_pos rfl, if_neg (fun e => h2 e.symm), if_pos rfl]
        · rw [if_neg e, if_neg e]

theorem Cells.get?_none_of_lt {l : List (Nat × α)} {k : Nat} (h : ∀ c ∈ l, k < c.1) : Cells.get? l k = none := by
  induction l with
  | nil => rfl
  | cons a rest ih =>
    obtain ⟨j, w⟩ := a
    have hj : k < j := h (j, w) List.mem_cons_self
    simp only [Cells.get?]
    rw [if_neg (by omega)]
    exact ih fun c hc => h c (List.mem_cons_of_mem _ hc)

/-- A key's value after taking a key out of a sorted table. -/
theorem Cells.get?_erase {l : List (Nat × α)} (h : Rising l) (k k' : Nat) :
    Cells.get? (Cells.erase l k) k' = if k' = k then none else Cells.get? l k' := by
  induction l with
  | nil => simp [Cells.erase, Cells.get?]
  | cons a rest ih =>
    obtain ⟨j, w⟩ := a
    obtain ⟨hj, hr⟩ := List.pairwise_cons.1 h
    simp only [Cells.erase]
    split
    · rename_i hk
      subst hk
      simp only [Cells.get?]
      split
      · rename_i hk'
        subst hk'
        exact Cells.get?_none_of_lt hj
      · rw [if_neg (fun e => by simp_all)]
    · simp only [Cells.get?, ih hr]
      split <;> split <;> simp_all

theorem Cells.get?_mem {l : List (Nat × α)} {k : Nat} {v : α} (h : Cells.get? l k = some v) : (k, v) ∈ l := by
  induction l with
  | nil => simp [Cells.get?] at h
  | cons a rest ih =>
    obtain ⟨j, w⟩ := a
    simp only [Cells.get?] at h
    split at h
    · simp_all
    · exact List.mem_cons_of_mem _ (ih h)

/-- Every byte write keeps the canonical form. -/
theorem Memory.write_wf {m : Memory} (a : Nat) (b : Byte) (h : Memory.wf m) : Memory.wf (Memory.write m a b) := by
  unfold Memory.write
  split
  · exact ⟨Cells.erase_rising a h.1, fun c hc => h.2 c (Cells.mem_erase hc)⟩
  · rename_i hb
    refine ⟨Cells.put_rising a b h.1, fun c hc => ?_⟩
    rcases Cells.mem_put hc with rfl | hc
    · exact hb
    · exact h.2 c hc

end Sys2Proof.Machine
end

