-- ==== Sys2Proof/Laws/State.lean ====
section
/-! SUPPORT. One lemma per field per update of the state. -/

namespace Sys2Proof.Machine

/-! ### log -/

@[simp] theorem State.log_win (s : State) (e : Event) : (s.log e).win = s.win := rfl
@[simp] theorem State.log_dev (s : State) (e : Event) : (s.log e).dev = s.dev := rfl
@[simp] theorem State.log_eng (s : State) (e : Event) : (s.log e).eng = s.eng := rfl
@[simp] theorem State.log_clients (s : State) (e : Event) : (s.log e).clients = s.clients := rfl
@[simp] theorem State.log_faults (s : State) (e : Event) : (s.log e).faults = s.faults := rfl
@[simp] theorem State.log_refused (s : State) (e : Event) : (s.log e).refused = s.refused := rfl
@[simp] theorem State.log_par (s : State) (e : Event) : (s.log e).par = s.par := rfl
@[simp] theorem State.log_cur (s : State) (e : Event) : (s.log e).cur = s.cur := rfl
@[simp] theorem State.log_env (s : State) (e : Event) : (s.log e).env = s.env := rfl
@[simp] theorem State.log_hist (s : State) (e : Event) : (s.log e).hist = s.hist ++ [e] := rfl

/-! ### updMe -/

@[simp] theorem State.updMe_win (s : State) (f : ClientState → ClientState) : (s.updMe f).win = s.win := rfl
@[simp] theorem State.updMe_dev (s : State) (f : ClientState → ClientState) : (s.updMe f).dev = s.dev := rfl
@[simp] theorem State.updMe_eng (s : State) (f : ClientState → ClientState) : (s.updMe f).eng = s.eng := rfl
@[simp] theorem State.updMe_hist (s : State) (f : ClientState → ClientState) : (s.updMe f).hist = s.hist := rfl
@[simp] theorem State.updMe_faults (s : State) (f : ClientState → ClientState) : (s.updMe f).faults = s.faults := rfl
@[simp] theorem State.updMe_refused (s : State) (f : ClientState → ClientState) : (s.updMe f).refused = s.refused := rfl
@[simp] theorem State.updMe_par (s : State) (f : ClientState → ClientState) : (s.updMe f).par = s.par := rfl
@[simp] theorem State.updMe_cur (s : State) (f : ClientState → ClientState) : (s.updMe f).cur = s.cur := rfl
@[simp] theorem State.updMe_env (s : State) (f : ClientState → ClientState) : (s.updMe f).env = s.env := rfl
@[simp] theorem State.updMe_clients (s : State) (f : ClientState → ClientState) : (s.updMe f).clients = s.clients.modify s.cur f := rfl

/-! ### setPhase -/

@[simp] theorem State.setPhase_win (s : State) (p : Phase) : (s.setPhase p).win = s.win := rfl
@[simp] theorem State.setPhase_dev (s : State) (p : Phase) : (s.setPhase p).dev = s.dev := rfl
@[simp] theorem State.setPhase_clients (s : State) (p : Phase) : (s.setPhase p).clients = s.clients := rfl
@[simp] theorem State.setPhase_hist (s : State) (p : Phase) : (s.setPhase p).hist = s.hist := rfl
@[simp] theorem State.setPhase_faults (s : State) (p : Phase) : (s.setPhase p).faults = s.faults := rfl
@[simp] theorem State.setPhase_refused (s : State) (p : Phase) : (s.setPhase p).refused = s.refused := rfl
@[simp] theorem State.setPhase_par (s : State) (p : Phase) : (s.setPhase p).par = s.par := rfl
@[simp] theorem State.setPhase_cur (s : State) (p : Phase) : (s.setPhase p).cur = s.cur := rfl
@[simp] theorem State.setPhase_env (s : State) (p : Phase) : (s.setPhase p).env = s.env := rfl
@[simp] theorem State.setPhase_eng (s : State) (p : Phase) : (s.setPhase p).eng = { s.eng with phase := p } := rfl

/-! ### drawn -/

@[simp] theorem State.drawn_win (s : State) : (s.drawn).win = s.win := rfl
@[simp] theorem State.drawn_dev (s : State) : (s.drawn).dev = s.dev := rfl
@[simp] theorem State.drawn_eng (s : State) : (s.drawn).eng = s.eng := rfl
@[simp] theorem State.drawn_clients (s : State) : (s.drawn).clients = s.clients := rfl
@[simp] theorem State.drawn_hist (s : State) : (s.drawn).hist = s.hist := rfl
@[simp] theorem State.drawn_faults (s : State) : (s.drawn).faults = s.faults := rfl
@[simp] theorem State.drawn_refused (s : State) : (s.drawn).refused = s.refused := rfl
@[simp] theorem State.drawn_par (s : State) : (s.drawn).par = s.par := rfl
@[simp] theorem State.drawn_cur (s : State) : (s.drawn).cur = s.cur := rfl

/-! ### mapAsked -/

@[simp] theorem State.mapAsked_win (s : State) : (s.mapAsked).win = s.win := rfl
@[simp] theorem State.mapAsked_dev (s : State) : (s.mapAsked).dev = s.dev := rfl
@[simp] theorem State.mapAsked_eng (s : State) : (s.mapAsked).eng = s.eng := rfl
@[simp] theorem State.mapAsked_clients (s : State) : (s.mapAsked).clients = s.clients := rfl
@[simp] theorem State.mapAsked_hist (s : State) : (s.mapAsked).hist = s.hist := rfl
@[simp] theorem State.mapAsked_faults (s : State) : (s.mapAsked).faults = s.faults := rfl
@[simp] theorem State.mapAsked_refused (s : State) : (s.mapAsked).refused = s.refused := rfl
@[simp] theorem State.mapAsked_par (s : State) : (s.mapAsked).par = s.par := rfl
@[simp] theorem State.mapAsked_cur (s : State) : (s.mapAsked).cur = s.cur := rfl

/-! ### deviceWrite -/

@[simp] theorem State.deviceWrite_win (s : State) (kind : WindowKind) (o : Nat) (v : Word) : (s.deviceWrite kind o v).win = s.win := rfl
@[simp] theorem State.deviceWrite_eng (s : State) (kind : WindowKind) (o : Nat) (v : Word) : (s.deviceWrite kind o v).eng = s.eng := rfl
@[simp] theorem State.deviceWrite_clients (s : State) (kind : WindowKind) (o : Nat) (v : Word) : (s.deviceWrite kind o v).clients = s.clients := rfl
@[simp] theorem State.deviceWrite_hist (s : State) (kind : WindowKind) (o : Nat) (v : Word) : (s.deviceWrite kind o v).hist = s.hist := rfl
@[simp] theorem State.deviceWrite_faults (s : State) (kind : WindowKind) (o : Nat) (v : Word) : (s.deviceWrite kind o v).faults = s.faults := rfl
@[simp] theorem State.deviceWrite_refused (s : State) (kind : WindowKind) (o : Nat) (v : Word) : (s.deviceWrite kind o v).refused = s.refused := rfl
@[simp] theorem State.deviceWrite_par (s : State) (kind : WindowKind) (o : Nat) (v : Word) : (s.deviceWrite kind o v).par = s.par := rfl
@[simp] theorem State.deviceWrite_cur (s : State) (kind : WindowKind) (o : Nat) (v : Word) : (s.deviceWrite kind o v).cur = s.cur := rfl
@[simp] theorem State.deviceWrite_env (s : State) (kind : WindowKind) (o : Nat) (v : Word) : (s.deviceWrite kind o v).env = s.env := rfl
@[simp] theorem State.deviceWrite_dev (s : State) (kind : WindowKind) (o : Nat) (v : Word) : (s.deviceWrite kind o v).dev = (s.dev.act s.par.device kind o v).keep kind o v := rfl

/-! ### turnTo -/

@[simp] theorem State.turnTo_win (s : State) (c : Nat) (rest : List Nat) : (s.turnTo c rest).win = s.win := rfl
@[simp] theorem State.turnTo_dev (s : State) (c : Nat) (rest : List Nat) : (s.turnTo c rest).dev = s.dev := rfl
@[simp] theorem State.turnTo_eng (s : State) (c : Nat) (rest : List Nat) : (s.turnTo c rest).eng = s.eng := rfl
@[simp] theorem State.turnTo_clients (s : State) (c : Nat) (rest : List Nat) : (s.turnTo c rest).clients = s.clients := rfl
@[simp] theorem State.turnTo_hist (s : State) (c : Nat) (rest : List Nat) : (s.turnTo c rest).hist = s.hist := rfl
@[simp] theorem State.turnTo_faults (s : State) (c : Nat) (rest : List Nat) : (s.turnTo c rest).faults = s.faults := rfl
@[simp] theorem State.turnTo_refused (s : State) (c : Nat) (rest : List Nat) : (s.turnTo c rest).refused = s.refused := rfl
@[simp] theorem State.turnTo_par (s : State) (c : Nat) (rest : List Nat) : (s.turnTo c rest).par = s.par := rfl
@[simp] theorem State.turnTo_cur (s : State) (c : Nat) (rest : List Nat) : (s.turnTo c rest).cur = c := rfl

/-! ### setWindow -/

@[simp] theorem State.setWindow_dev (s : State) (kind : WindowKind) (w : Window) : (s.setWindow kind w).dev = s.dev := by cases kind <;> rfl
@[simp] theorem State.setWindow_eng (s : State) (kind : WindowKind) (w : Window) : (s.setWindow kind w).eng = s.eng := by cases kind <;> rfl
@[simp] theorem State.setWindow_clients (s : State) (kind : WindowKind) (w : Window) : (s.setWindow kind w).clients = s.clients := by cases kind <;> rfl
@[simp] theorem State.setWindow_hist (s : State) (kind : WindowKind) (w : Window) : (s.setWindow kind w).hist = s.hist := by cases kind <;> rfl
@[simp] theorem State.setWindow_faults (s : State) (kind : WindowKind) (w : Window) : (s.setWindow kind w).faults = s.faults := by cases kind <;> rfl
@[simp] theorem State.setWindow_refused (s : State) (kind : WindowKind) (w : Window) : (s.setWindow kind w).refused = s.refused := by cases kind <;> rfl
@[simp] theorem State.setWindow_par (s : State) (kind : WindowKind) (w : Window) : (s.setWindow kind w).par = s.par := by cases kind <;> rfl
@[simp] theorem State.setWindow_cur (s : State) (kind : WindowKind) (w : Window) : (s.setWindow kind w).cur = s.cur := by cases kind <;> rfl
@[simp] theorem State.setWindow_env (s : State) (kind : WindowKind) (w : Window) : (s.setWindow kind w).env = s.env := by cases kind <;> rfl

/-! ### stop -/

@[simp] theorem State.stop_win (s : State) (x : Stop) : (s.stop x).win = s.win := by cases x <;> rfl
@[simp] theorem State.stop_dev (s : State) (x : Stop) : (s.stop x).dev = s.dev := by cases x <;> rfl
@[simp] theorem State.stop_eng (s : State) (x : Stop) : (s.stop x).eng = s.eng := by cases x <;> rfl
@[simp] theorem State.stop_hist (s : State) (x : Stop) : (s.stop x).hist = s.hist := by cases x <;> rfl
@[simp] theorem State.stop_par (s : State) (x : Stop) : (s.stop x).par = s.par := by cases x <;> rfl
@[simp] theorem State.stop_cur (s : State) (x : Stop) : (s.stop x).cur = s.cur := by cases x <;> rfl
@[simp] theorem State.stop_env (s : State) (x : Stop) : (s.stop x).env = s.env := by cases x <;> rfl
@[simp] theorem State.stop_clients (s : State) (x : Stop) : (s.stop x).clients = s.clients.modify s.cur fun m => { m with stopped := some x } := by cases x <;> rfl

/-! ### started -/

@[simp] theorem State.started_win (s : State) (i : Instr) : (s.started i).win = s.win := rfl
@[simp] theorem State.started_dev (s : State) (i : Instr) : (s.started i).dev = s.dev := rfl
@[simp] theorem State.started_eng (s : State) (i : Instr) : (s.started i).eng = s.eng := rfl
@[simp] theorem State.started_faults (s : State) (i : Instr) : (s.started i).faults = s.faults := rfl
@[simp] theorem State.started_refused (s : State) (i : Instr) : (s.started i).refused = s.refused := rfl
@[simp] theorem State.started_par (s : State) (i : Instr) : (s.started i).par = s.par := rfl
@[simp] theorem State.started_cur (s : State) (i : Instr) : (s.started i).cur = s.cur := rfl
@[simp] theorem State.started_env (s : State) (i : Instr) : (s.started i).env = s.env := rfl
@[simp] theorem State.started_hist (s : State) (i : Instr) : (s.started i).hist = s.hist ++ [.start s.cur i] := rfl
@[simp] theorem State.started_clients (s : State) (i : Instr) : (s.started i).clients = s.clients.modify s.cur fun m => { m with op := some i, step := 0, val := 0#32 } := rfl

/-! ### complete -/

@[simp] theorem State.complete_win (s : State) (i : Instr) (r : Result) : (s.complete i r).win = s.win := rfl
@[simp] theorem State.complete_dev (s : State) (i : Instr) (r : Result) : (s.complete i r).dev = s.dev := rfl
@[simp] theorem State.complete_eng (s : State) (i : Instr) (r : Result) : (s.complete i r).eng = s.eng := rfl
@[simp] theorem State.complete_faults (s : State) (i : Instr) (r : Result) : (s.complete i r).faults = s.faults := rfl
@[simp] theorem State.complete_refused (s : State) (i : Instr) (r : Result) : (s.complete i r).refused = s.refused := rfl
@[simp] theorem State.complete_par (s : State) (i : Instr) (r : Result) : (s.complete i r).par = s.par := rfl
@[simp] theorem State.complete_cur (s : State) (i : Instr) (r : Result) : (s.complete i r).cur = s.cur := rfl
@[simp] theorem State.complete_env (s : State) (i : Instr) (r : Result) : (s.complete i r).env = s.env := rfl
@[simp] theorem State.complete_hist (s : State) (i : Instr) (r : Result) : (s.complete i r).hist = s.hist ++ [.done s.cur i r] := rfl
@[simp] theorem State.complete_clients (s : State) (i : Instr) (r : Result) : (s.complete i r).clients = s.clients.modify s.cur fun m => { m with op := none, step := 0, val := 0#32 } := rfl

/-! ### finishBus -/

@[simp] theorem State.finishBus_win (s : State) (i : Instr) (r : Result) : (s.finishBus i r).win = s.win := rfl
@[simp] theorem State.finishBus_dev (s : State) (i : Instr) (r : Result) : (s.finishBus i r).dev = s.dev := rfl
@[simp] theorem State.finishBus_faults (s : State) (i : Instr) (r : Result) : (s.finishBus i r).faults = s.faults := rfl
@[simp] theorem State.finishBus_refused (s : State) (i : Instr) (r : Result) : (s.finishBus i r).refused = s.refused := rfl
@[simp] theorem State.finishBus_par (s : State) (i : Instr) (r : Result) : (s.finishBus i r).par = s.par := rfl
@[simp] theorem State.finishBus_cur (s : State) (i : Instr) (r : Result) : (s.finishBus i r).cur = s.cur := rfl
@[simp] theorem State.finishBus_env (s : State) (i : Instr) (r : Result) : (s.finishBus i r).env = s.env := rfl
@[simp] theorem State.finishBus_hist (s : State) (i : Instr) (r : Result) : (s.finishBus i r).hist = s.hist ++ [.done s.cur i r] := rfl
@[simp] theorem State.finishBus_clients (s : State) (i : Instr) (r : Result) : (s.finishBus i r).clients = s.clients.modify s.cur fun m => { m with op := none, step := 0, val := 0#32 } := rfl
@[simp] theorem State.finishBus_eng (s : State) (i : Instr) (r : Result) : (s.finishBus i r).eng = { s.eng with phase := .idle, owner := none } := rfl

/-! ### delay -/

@[simp] theorem State.delay_win (s : State) (us : Nat) : (s.delay us).win = s.win := rfl
@[simp] theorem State.delay_eng (s : State) (us : Nat) : (s.delay us).eng = s.eng := rfl
@[simp] theorem State.delay_faults (s : State) (us : Nat) : (s.delay us).faults = s.faults := rfl
@[simp] theorem State.delay_refused (s : State) (us : Nat) : (s.delay us).refused = s.refused := rfl
@[simp] theorem State.delay_par (s : State) (us : Nat) : (s.delay us).par = s.par := rfl
@[simp] theorem State.delay_cur (s : State) (us : Nat) : (s.delay us).cur = s.cur := rfl
@[simp] theorem State.delay_env (s : State) (us : Nat) : (s.delay us).env = s.env := rfl
@[simp] theorem State.delay_hist (s : State) (us : Nat) : (s.delay us).hist = s.hist ++ [.delay s.cur us] := rfl
@[simp] theorem State.delay_clients (s : State) (us : Nat) : (s.delay us).clients = s.clients.modify s.cur fun m => { m with step := m.step + 1 } := rfl
@[simp] theorem State.delay_dev (s : State) (us : Nat) : (s.delay us).dev = s.dev.settle us := rfl

/-! ### writeAccess -/

@[simp] theorem State.writeAccess_win (s : State) (kind : WindowKind) (o : Nat) (v : Word) : (s.writeAccess kind o v).win = s.win := rfl
@[simp] theorem State.writeAccess_eng (s : State) (kind : WindowKind) (o : Nat) (v : Word) : (s.writeAccess kind o v).eng = s.eng := rfl
@[simp] theorem State.writeAccess_faults (s : State) (kind : WindowKind) (o : Nat) (v : Word) : (s.writeAccess kind o v).faults = s.faults := rfl
@[simp] theorem State.writeAccess_refused (s : State) (kind : WindowKind) (o : Nat) (v : Word) : (s.writeAccess kind o v).refused = s.refused := rfl
@[simp] theorem State.writeAccess_par (s : State) (kind : WindowKind) (o : Nat) (v : Word) : (s.writeAccess kind o v).par = s.par := rfl
@[simp] theorem State.writeAccess_cur (s : State) (kind : WindowKind) (o : Nat) (v : Word) : (s.writeAccess kind o v).cur = s.cur := rfl
@[simp] theorem State.writeAccess_env (s : State) (kind : WindowKind) (o : Nat) (v : Word) : (s.writeAccess kind o v).env = s.env := rfl
@[simp] theorem State.writeAccess_hist (s : State) (kind : WindowKind) (o : Nat) (v : Word) : (s.writeAccess kind o v).hist = s.hist ++ [.access s.cur kind o .write v] := rfl
@[simp] theorem State.writeAccess_clients (s : State) (kind : WindowKind) (o : Nat) (v : Word) : (s.writeAccess kind o v).clients = s.clients.modify s.cur fun m => { m with step := m.step + 1 } := rfl
@[simp] theorem State.writeAccess_dev (s : State) (kind : WindowKind) (o : Nat) (v : Word) : (s.writeAccess kind o v).dev = (s.dev.act s.par.device kind o v).keep kind o v := rfl

/-! ### mapWindow -/

@[simp] theorem State.mapWindow_eng (s : State) (kind : WindowKind) : (s.mapWindow kind).eng = s.eng := by cases kind <;> rfl
@[simp] theorem State.mapWindow_clients (s : State) (kind : WindowKind) : (s.mapWindow kind).clients = s.clients := by cases kind <;> rfl
@[simp] theorem State.mapWindow_hist (s : State) (kind : WindowKind) : (s.mapWindow kind).hist = s.hist := by cases kind <;> rfl
@[simp] theorem State.mapWindow_faults (s : State) (kind : WindowKind) : (s.mapWindow kind).faults = s.faults := by cases kind <;> rfl
@[simp] theorem State.mapWindow_refused (s : State) (kind : WindowKind) : (s.mapWindow kind).refused = s.refused := by cases kind <;> rfl
@[simp] theorem State.mapWindow_par (s : State) (kind : WindowKind) : (s.mapWindow kind).par = s.par := by cases kind <;> rfl
@[simp] theorem State.mapWindow_cur (s : State) (kind : WindowKind) : (s.mapWindow kind).cur = s.cur := by cases kind <;> rfl
@[simp] theorem State.mapWindow_env (s : State) (kind : WindowKind) : (s.mapWindow kind).env = s.env := by cases kind <;> rfl
@[simp] theorem State.mapWindow_dev (s : State) (kind : WindowKind) : (s.mapWindow kind).dev = s.dev.forget kind := by cases kind <;> rfl

/-! ### deviceRead -/

@[simp] theorem State.deviceRead_win (s : State) (kind : WindowKind) (o : Nat) : ((s.deviceRead kind o).2).win = s.win := by unfold State.deviceRead; split <;> first | rfl | (split <;> rfl)
@[simp] theorem State.deviceRead_eng (s : State) (kind : WindowKind) (o : Nat) : ((s.deviceRead kind o).2).eng = s.eng := by unfold State.deviceRead; split <;> first | rfl | (split <;> rfl)
@[simp] theorem State.deviceRead_clients (s : State) (kind : WindowKind) (o : Nat) : ((s.deviceRead kind o).2).clients = s.clients := by unfold State.deviceRead; split <;> first | rfl | (split <;> rfl)
@[simp] theorem State.deviceRead_hist (s : State) (kind : WindowKind) (o : Nat) : ((s.deviceRead kind o).2).hist = s.hist := by unfold State.deviceRead; split <;> first | rfl | (split <;> rfl)
@[simp] theorem State.deviceRead_faults (s : State) (kind : WindowKind) (o : Nat) : ((s.deviceRead kind o).2).faults = s.faults := by unfold State.deviceRead; split <;> first | rfl | (split <;> rfl)
@[simp] theorem State.deviceRead_refused (s : State) (kind : WindowKind) (o : Nat) : ((s.deviceRead kind o).2).refused = s.refused := by unfold State.deviceRead; split <;> first | rfl | (split <;> rfl)
@[simp] theorem State.deviceRead_par (s : State) (kind : WindowKind) (o : Nat) : ((s.deviceRead kind o).2).par = s.par := by unfold State.deviceRead; split <;> first | rfl | (split <;> rfl)
@[simp] theorem State.deviceRead_cur (s : State) (kind : WindowKind) (o : Nat) : ((s.deviceRead kind o).2).cur = s.cur := by unfold State.deviceRead; split <;> first | rfl | (split <;> rfl)

/-! ### readAccess -/

@[simp] theorem State.readAccess_win (s : State) (kind : WindowKind) (o : Nat) : (s.readAccess kind o).win = s.win := by simp [State.readAccess]
@[simp] theorem State.readAccess_eng (s : State) (kind : WindowKind) (o : Nat) : (s.readAccess kind o).eng = s.eng := by simp [State.readAccess]
@[simp] theorem State.readAccess_faults (s : State) (kind : WindowKind) (o : Nat) : (s.readAccess kind o).faults = s.faults := by simp [State.readAccess]
@[simp] theorem State.readAccess_refused (s : State) (kind : WindowKind) (o : Nat) : (s.readAccess kind o).refused = s.refused := by simp [State.readAccess]
@[simp] theorem State.readAccess_par (s : State) (kind : WindowKind) (o : Nat) : (s.readAccess kind o).par = s.par := by simp [State.readAccess]
@[simp] theorem State.readAccess_cur (s : State) (kind : WindowKind) (o : Nat) : (s.readAccess kind o).cur = s.cur := by simp [State.readAccess]
@[simp] theorem State.readAccess_hist (s : State) (kind : WindowKind) (o : Nat) : (s.readAccess kind o).hist = s.hist ++ [.access s.cur kind o .read (s.deviceRead kind o).1] := by simp [State.readAccess]
@[simp] theorem State.readAccess_clients (s : State) (kind : WindowKind) (o : Nat) : (s.readAccess kind o).clients = s.clients.modify s.cur fun m => { m with step := m.step + 1, val := (s.deviceRead kind o).1 } := by simp [State.readAccess]
@[simp] theorem State.readAccess_dev (s : State) (kind : WindowKind) (o : Nat) : (s.readAccess kind o).dev = (s.deviceRead kind o).2.dev := by simp [State.readAccess]
@[simp] theorem State.readAccess_env (s : State) (kind : WindowKind) (o : Nat) : (s.readAccess kind o).env = (s.deviceRead kind o).2.env := by simp [State.readAccess]

end Sys2Proof.Machine
end

