-- ==== Sys2Proof/Laws/Device.lean ====
section
/-! SUPPORT. What a register access does to the device record: the kept words, the pull handshake, the controller. -/

namespace Sys2Proof.Machine

/-! ### Windows -/

@[simp] theorem State.window_setWindow_self (s : State) (kind : WindowKind) (w : Window) :
    (s.setWindow kind w).window kind = w := by cases kind <;> rfl

theorem State.window_setWindow_other (s : State) {kind kind' : WindowKind} (w : Window) (h : kind' ≠ kind) :
    (s.setWindow kind w).window kind' = s.window kind' := by cases kind <;> cases kind' <;> first | rfl | contradiction

/-- Two states with the same windows have the same slots. -/
theorem State.window_congr {s t : State} (h : t.win = s.win) (kind : WindowKind) : t.window kind = s.window kind := by
  cases kind <;> simp [State.window, h]

/-! ### Kept words -/

theorem DeviceState.store_putStore (d : DeviceState) (kind kind' : WindowKind) (o o' : Nat) (v : Word) :
    Cells.get? ((d.putStore kind o v).store kind') o' =
      if kind' = kind ∧ o' = o then some v else Cells.get? (d.store kind') o' := by
  cases kind <;> cases kind' <;> simp [DeviceState.store, DeviceState.putStore, Cells.get?_put]

/-- A device action keeps the written words. -/
@[simp] theorem DeviceState.act_store (d : DeviceState) (cfg : DeviceConfig) (kind kind' : WindowKind) (o : Nat)
    (v : Word) : (d.act cfg kind o v).store kind' = d.store kind' := by
  cases kind
  · simp only [DeviceState.act, DeviceState.writeSelect, DeviceState.writeMask]
    split
    · cases kind' <;> rfl
    · split
      · split
        · split <;> cases kind' <;> rfl
        · cases kind' <;> rfl
      · rfl
  · cases cfg <;> cases kind' <;> rfl

/-- What a write keeps: its own word in a STORE register, every other word as before. -/
theorem State.stored_deviceWrite (s : State) (kind kind' : WindowKind) (o o' : Nat) (v : Word) :
    (s.deviceWrite kind o v).stored kind' o' =
      if kind' = kind ∧ o' = o ∧ regClass kind o = .store then some v else s.stored kind' o' := by
  have h : regClass kind o = .store ∨ regClass kind o ≠ .store := by by_cases h : regClass kind o = .store <;> simp [h]
  rcases h with h | h
  · simp [State.stored, State.deviceWrite, DeviceState.keep, h, DeviceState.store_putStore]
  · cases hc : regClass kind o <;> simp_all [State.stored, State.deviceWrite, DeviceState.keep]

/-! ### Fields a write does not move -/

theorem DeviceState.keep_fields (d : DeviceState) (kind : WindowKind) (o : Nat) (v : Word) :
    (d.keep kind o v).pull = d.pull ∧ (d.keep kind o v).pud = d.pud ∧ (d.keep kind o v).levels = d.levels ∧
      (d.keep kind o v).gpioStart = d.gpioStart ∧ (d.keep kind o v).bsc = d.bsc := by
  unfold DeviceState.keep
  split <;> cases kind <;> exact ⟨rfl, rfl, rfl, rfl, rfl⟩

@[simp] theorem DeviceState.keep_pull (d : DeviceState) (kind : WindowKind) (o : Nat) (v : Word) :
    (d.keep kind o v).pull = d.pull := (d.keep_fields kind o v).1
@[simp] theorem DeviceState.keep_pud (d : DeviceState) (kind : WindowKind) (o : Nat) (v : Word) :
    (d.keep kind o v).pud = d.pud := (d.keep_fields kind o v).2.1
@[simp] theorem DeviceState.keep_levels (d : DeviceState) (kind : WindowKind) (o : Nat) (v : Word) :
    (d.keep kind o v).levels = d.levels := (d.keep_fields kind o v).2.2.1
@[simp] theorem DeviceState.keep_gpioStart (d : DeviceState) (kind : WindowKind) (o : Nat) (v : Word) :
    (d.keep kind o v).gpioStart = d.gpioStart := (d.keep_fields kind o v).2.2.2.1
@[simp] theorem DeviceState.keep_bsc (d : DeviceState) (kind : WindowKind) (o : Nat) (v : Word) :
    (d.keep kind o v).bsc = d.bsc := (d.keep_fields kind o v).2.2.2.2

@[simp] theorem DeviceState.writeMask_levels (d : DeviceState) (v : Word) : (d.writeMask v).levels = d.levels := by
  unfold DeviceState.writeMask; split <;> (try split) <;> rfl
@[simp] theorem DeviceState.writeMask_gpioStart (d : DeviceState) (v : Word) :
    (d.writeMask v).gpioStart = d.gpioStart := by
  unfold DeviceState.writeMask; split <;> (try split) <;> rfl
@[simp] theorem DeviceState.writeMask_bsc (d : DeviceState) (v : Word) : (d.writeMask v).bsc = d.bsc := by
  unfold DeviceState.writeMask; split <;> (try split) <;> rfl

@[simp] theorem DeviceState.act_levels (d : DeviceState) (cfg : DeviceConfig) (kind : WindowKind) (o : Nat) (v : Word) :
    (d.act cfg kind o v).levels = d.levels := by
  cases kind
  · simp only [DeviceState.act]; split <;> (try split) <;> simp [DeviceState.writeSelect]
  · cases cfg <;> rfl
@[simp] theorem DeviceState.act_gpioStart (d : DeviceState) (cfg : DeviceConfig) (kind : WindowKind) (o : Nat)
    (v : Word) : (d.act cfg kind o v).gpioStart = d.gpioStart := by
  cases kind
  · simp only [DeviceState.act]; split <;> (try split) <;> simp [DeviceState.writeSelect]
  · cases cfg <;> rfl

/-- Only a write of a GPIO pull register moves the handshake. -/
theorem DeviceState.act_pud (d : DeviceState) (cfg : DeviceConfig) (kind : WindowKind) (o : Nat) (v : Word)
    (h : ¬ (kind = .gpio ∧ (o = offGppud ∨ o = offGppudclk0))) : (d.act cfg kind o v).pud = d.pud := by
  cases kind
  · simp only [DeviceState.act]
    rw [if_neg (fun e => h ⟨rfl, .inl e⟩), if_neg (fun e => h ⟨rfl, .inr e⟩)]
  · cases cfg <;> rfl

/-- Only a write of the mask register moves a pin's pull. -/
theorem DeviceState.act_pull (d : DeviceState) (cfg : DeviceConfig) (kind : WindowKind) (o : Nat) (v : Word)
    (h : ¬ (kind = .gpio ∧ o = offGppudclk0)) : (d.act cfg kind o v).pull = d.pull := by
  cases kind
  · simp only [DeviceState.act]
    split
    · rfl
    · rw [if_neg (fun e => h ⟨rfl, e⟩)]
  · cases cfg <;> rfl

/-- The controller moves only by a BSC write under REFERENCE. -/
theorem DeviceState.act_bsc (d : DeviceState) (cfg : DeviceConfig) (kind : WindowKind) (o : Nat) (v : Word)
    (h : cfg = .loose ∨ kind = .gpio) : (d.act cfg kind o v).bsc = d.bsc := by
  cases kind
  · simp only [DeviceState.act]; split <;> (try split) <;> simp [DeviceState.writeSelect]
  · cases cfg
    · rfl
    · simp at h

/-! ### Latching -/

@[simp] theorem latchPins_length (m : Word) (new : PullState) (p : Nat) (l : List PullState) :
    (latchPins m new p l).length = l.length := by
  induction l generalizing p with
  | nil => rfl
  | cons x rest ih => simp [latchPins, ih]

/-- A pin of the mask takes the new state, every other pin keeps its own. -/
theorem latchPins_getD (m : Word) (new : PullState) (p k : Nat) (l : List PullState) (h : k < l.length) :
    (latchPins m new p l).getD k .unknown = if m.getLsbD (p + k) then new else l.getD k .unknown := by
  induction l generalizing p k with
  | nil => simp at h
  | cons x rest ih =>
    cases k with
    | zero => simp [latchPins]
    | succ k =>
      have h' : k < rest.length := by simpa using h
      have := ih (p + 1) k h'
      simpa [latchPins, Nat.add_assoc, Nat.add_comm 1 k] using this

/-- A write of the mask register keeps the number of pins. -/
@[simp] theorem DeviceState.writeMask_pull_length (d : DeviceState) (v : Word) :
    (d.writeMask v).pull.length = d.pull.length := by
  unfold DeviceState.writeMask; split <;> (try split) <;> simp

/-! ### Reads -/

/-- A device read keeps the device record but for the controller, and that too but for a BSC read under REFERENCE. -/
theorem State.deviceRead_dev (s : State) (kind : WindowKind) (o : Nat) :
    (s.deviceRead kind o).2.dev = s.dev ∨
      (s.par.device = .reference ∧ kind = .bsc ∧
        (s.deviceRead kind o).2.dev = { s.dev with bsc := (s.dev.bsc.read s.par.rdmRate o).2 }) := by
  unfold State.deviceRead
  cases hd : s.par.device
  · exact .inl rfl
  · cases kind
    · exact .inl rfl
    · exact .inr ⟨rfl, rfl, rfl⟩

/-- A device read uses up at most a draw. -/
theorem State.deviceRead_env (s : State) (kind : WindowKind) (o : Nat) :
    (s.deviceRead kind o).2.env.turns = s.env.turns ∧ (s.deviceRead kind o).2.env.mapAnswers = s.env.mapAnswers := by
  unfold State.deviceRead
  split
  · exact ⟨rfl, rfl⟩
  · split <;> exact ⟨rfl, rfl⟩

/-- A device read keeps every written word. -/
theorem State.stored_deviceRead (s : State) (kind kind' : WindowKind) (o o' : Nat) :
    (s.deviceRead kind o).2.stored kind' o' = s.stored kind' o' := by
  rcases s.deviceRead_dev kind o with h | ⟨_, _, h⟩ <;> cases kind' <;> simp [State.stored, DeviceState.store, h]

end Sys2Proof.Machine
end

