-- ==== Sys2Proof/Laws/Operands.lean ====
section
/-! SUPPORT. The operand checks of the start steps and well-formedness agree. -/

namespace Sys2Proof.Machine

/-- The operand check of each operation's start step. -/
def operandCheck : Instr → Option RefusalReason
  | .map _ => none
  | .unmap _ => none
  | .readWord _ _ => none
  | .writeWord _ _ _ => none
  | .setBits _ _ _ => none
  | .clearBits _ _ _ => none
  | .getField _ _ lsb width => checkShape lsb width
  | .setField _ _ lsb width value => checkFieldValue lsb width value
  | .delayUs _ => none
  | .configureAsInput pin => checkPin pin
  | .readPin pin => checkPin pin
  | .enablePullups _ => none
  | .busWrite dev _ buf => checkBusWrite dev buf
  | .busRead dev _ len => checkBusRead dev len

theorem checkPin_none (p : Int) : checkPin p = none ↔ pinAdmitted p = true := by
  unfold checkPin pinAdmitted; split <;> simp_all

theorem checkShape_none (lsb width : Nat) : checkShape lsb width = none ↔ shapeAdmitted lsb width = true := by
  unfold checkShape shapeAdmitted; split <;> simp_all

theorem checkFieldValue_none (lsb width : Nat) (v : Word) :
    checkFieldValue lsb width v = none ↔ (shapeAdmitted lsb width && decide (v.toNat < 2 ^ width)) = true := by
  unfold checkFieldValue shapeAdmitted; split <;> (try split) <;> simp_all

theorem checkBusWrite_none (dev : Nat) (buf : List Byte) :
    checkBusWrite dev buf = none ↔ dev < 128 ∧ buf.length ≤ 65535 := by
  unfold checkBusWrite Config.devAddrWidth Config.lenMax; split <;> (try split) <;> simp_all

theorem checkBusRead_none (dev len : Nat) : checkBusRead dev len = none ↔ dev < 128 ∧ 1 ≤ len ∧ len ≤ 65535 := by
  unfold checkBusRead Config.devAddrWidth Config.lenMax; split <;> (try split) <;> simp_all

end Sys2Proof.Machine
end

