-- ==== Sys2Proof/Laws/Ops.lean ====
section
/-! SUPPORT. What each shared operation can do, said once: the access check, a register access, the frame of an
operation's steps, and the search for another client. -/

namespace Sys2Proof.Machine

/-! ### Clients -/

/-- The acting client after a change of its record. -/
theorem getElem?_modify_self {l : List ClientState} {c : Nat} {m : ClientState} (f : ClientState → ClientState)
    (h : l[c]? = some m) : (l.modify c f)[c]? = some (f m) := by
  simp [h]

/-- Every other client after a change of the acting one's record. -/
theorem getElem?_modify_other {l : List ClientState} {c d : Nat} (f : ClientState → ClientState) (h : d ≠ c) :
    (l.modify c f)[d]? = l[d]? := by
  have h' : ¬ c = d := fun e => h e.symm
  simp [h']

/-- Two changes of one record are one. -/
theorem modify_modify (l : List ClientState) (c : Nat) (f g : ClientState → ClientState) :
    (l.modify c f).modify c g = l.modify c fun m => g (f m) := by
  apply List.ext_getElem?
  intro n
  by_cases h : c = n
  · simp [h, Function.comp_def]
  · simp [h]

/-- A record of a changed client list is a changed record or an old one. -/
theorem mem_modify {l : List ClientState} {c : Nat} {f : ClientState → ClientState} {m : ClientState}
    (h : m ∈ l.modify c f) : m ∈ l ∨ ∃ m', l[c]? = some m' ∧ m = f m' := by
  obtain ⟨d, hd⟩ := List.mem_iff_getElem?.1 h
  by_cases e : d = c
  · subst e
    rw [List.getElem?_modify_eq] at hd
    cases hl : l[d]? with
    | none => simp [hl] at hd
    | some m' => exact .inr ⟨m', rfl, by simpa [hl] using hd.symm⟩
  · rw [getElem?_modify_other f e] at hd
    exact .inl (List.mem_of_getElem? hd)

/-- Another client's search fails exactly when no other client's operation satisfies the test. -/
theorem otherUser_none {s : State} {p : Instr → Bool} :
    s.otherUser p = none ↔ ∀ d m i, d ≠ s.cur → s.clients[d]? = some m → m.op = some i → p i = false := by
  simp only [State.otherUser, List.find?_eq_none, List.mem_range]
  constructor
  · intro h d m i hd hm hi
    have hlt : d < s.clients.length := (List.getElem?_eq_some_iff.1 hm).1
    have := h d hlt
    simpa [hd, hm, hi] using this
  · intro h d _ hc
    cases hm : s.clients[d]? with
    | none => simp [hm] at hc
    | some m =>
      cases hi : m.op with
      | none => simp [hm, hi] at hc
      | some i =>
        have hd : d ≠ s.cur := by intro e; simp [e] at hc
        simp [hm, hi, h d m i hd hm hi] at hc

/-- A client the search finds is another client with such an operation in progress. -/
theorem otherUser_some {s : State} {p : Instr → Bool} {d : Nat} (h : s.otherUser p = some d) :
    d ≠ s.cur ∧ ∃ m i, s.clients[d]? = some m ∧ m.op = some i ∧ p i = true := by
  have hp := List.find?_some h
  cases hm : s.clients[d]? with
  | none => simp [hm] at hp
  | some m =>
    cases hi : m.op with
    | none => simp [hm, hi] at hp
    | some i =>
      simp only [hm, hi, Option.bind_some, Option.any_some, Bool.and_eq_true, decide_eq_true_eq] at hp
      exact ⟨hp.1, m, i, rfl, hi, hp.2⟩

/-! ### The access check -/

theorem accessCheck_read {s : State} {kind : WindowKind} {o : Nat} :
    accessCheck s kind o .read = none ↔ s.Readable kind o := by
  unfold accessCheck State.Readable
  constructor
  · intro h
    split at h <;> try contradiction
    split at h <;> try contradiction
    split at h <;> try contradiction
    rename_i h1 h2 h3
    exact ⟨by simpa using h1, by omega, fun hk => by
      by_cases he : s.eng.phase = .idle
      · exact .inl he
      · exact .inr (Classical.byContradiction fun ho => h3 ⟨hk, he, ho⟩)⟩
  · rintro ⟨h1, h2, h3⟩
    rw [if_neg (by simp [h1]), if_neg (by omega), if_neg, if_neg (by simp)]
    rintro ⟨hk, he, ho⟩
    exact (h3 hk).elim he ho

theorem accessCheck_write {s : State} {kind : WindowKind} {o : Nat} :
    accessCheck s kind o .write = none ↔ s.Writable kind o := by
  unfold accessCheck State.Writable State.Readable
  constructor
  · intro h
    split at h <;> try contradiction
    split at h <;> try contradiction
    split at h <;> try contradiction
    split at h <;> try contradiction
    rename_i h1 h2 h3 h4
    exact ⟨⟨by simpa using h1, by omega, fun hk => by
      by_cases he : s.eng.phase = .idle
      · exact .inl he
      · exact .inr (Classical.byContradiction fun ho => h3 ⟨hk, he, ho⟩)⟩, fun hr => h4 ⟨rfl, hr⟩⟩
  · rintro ⟨⟨h1, h2, h3⟩, h4⟩
    rw [if_neg (by simp [h1]), if_neg (by omega), if_neg, if_neg (by simp [h4])]
    rintro ⟨hk, he, ho⟩
    exact (h3 hk).elim he ho

/-- A failed check is a fault of the form R345's table gives it, or a refusal. -/
theorem accessCheck_some {s : State} {kind : WindowKind} {o : Nat} {dir : Dir} {x : Stop}
    (h : accessCheck s kind o dir = some x) :
    x = .fault .windowNotMapped (.register kind o) ∨ x = .fault .offsetOutOfRange (.register kind o) ∨
      x = .fault .busConflict (.client s.cur) ∨ x = .refuse .reservedWrite := by
  unfold accessCheck at h
  split_ifs at h <;> simp_all

/-- An admitted read. -/
theorem regRead_of_readable {s : State} {kind : WindowKind} {o : Nat} (f : Word → State → State)
    (h : s.Readable kind o) : s.regRead kind o f = f (s.deviceRead kind o).1 (s.readAccess kind o) := by
  simp [State.regRead, accessCheck_read.2 h]

/-- An admitted write. -/
theorem regWrite_of_writable {s : State} {kind : WindowKind} {o : Nat} {v : Word} (f : State → State)
    (h : s.Writable kind o) : s.regWrite kind o v f = f (s.writeAccess kind o v) := by
  simp [State.regWrite, accessCheck_write.2 h]

/-- What a read can do. -/
theorem regRead_cases (s : State) (kind : WindowKind) (o : Nat) (f : Word → State → State) :
    (∃ x, s.regRead kind o f = s.stop x) ∨
      (s.Readable kind o ∧ s.regRead kind o f = f (s.deviceRead kind o).1 (s.readAccess kind o)) := by
  unfold State.regRead
  split
  · exact .inl ⟨_, rfl⟩
  · rename_i h
    exact .inr ⟨accessCheck_read.1 h, rfl⟩

/-- What a write can do. -/
theorem regWrite_cases (s : State) (kind : WindowKind) (o : Nat) (v : Word) (f : State → State) :
    (∃ x, s.regWrite kind o v f = s.stop x) ∨
      (s.Writable kind o ∧ s.regWrite kind o v f = f (s.writeAccess kind o v)) := by
  unfold State.regWrite
  split
  · exact .inl ⟨_, rfl⟩
  · rename_i h
    exact .inr ⟨accessCheck_write.1 h, rfl⟩

/-- Claiming the engine passes exactly when the engine is claimable. -/
theorem claimCheck_none {s : State} : claimCheck s = none ↔ s.Claimable := by
  unfold claimCheck State.Claimable
  split
  · rename_i h
    simp [h]
  · rename_i h
    have he : s.eng.phase = .idle := Classical.byContradiction h
    split
    · rename_i d hd
      obtain ⟨hne, m, i, hm, hi, hp⟩ := otherUser_some hd
      simp only [reduceCtorEq, false_iff, not_and, not_forall]
      exact fun _ => ⟨d, m, i, hne, hm, hi, by simpa using hp⟩
    · rename_i hd
      rw [otherUser_none] at hd
      simpa [he] using hd

/-- A claim fails only with `BusConflict` of the claiming client. -/
theorem claimCheck_some {s : State} {x : Stop} (h : claimCheck s = some x) :
    x = .fault .busConflict (.client s.cur) := by
  unfold claimCheck at h
  split at h
  · simpa using h.symm
  · split at h <;> simp_all

/-! ### The word a clearing operation writes -/

/-- Outside the reserved bits the mask is cleared and the rest is as read, under either setting. -/
theorem Params.cleared_field (p : Params) {kind : WindowKind} {o n : Nat} (x m : Word)
    (h : (fieldBits kind o).getLsbD n = true) :
    (p.cleared kind o x m).getLsbD n = (x &&& ~~~m).getLsbD n := by
  unfold Params.cleared
  cases p.reservedBits <;> simp [h]

/-- With the reserved bits written as 0, they are. -/
theorem Params.cleared_reserved (p : Params) {kind : WindowKind} {o n : Nat} (x m : Word) (hp : p.reservedBits = .zero)
    (h : (fieldBits kind o).getLsbD n = false) : (p.cleared kind o x m).getLsbD n = false := by
  simp [Params.cleared, hp, h]

/-! ### The frame of an operation -/

/-- What an operation's step can do. -/
theorem operate_next {i : Instr} {start : State → State}
    {next : ClientState → State → Host.Outcome State Fault Refusal} {s t : State}
    (h : operate i start next s = .next t) :
    ∃ m, s.clients[s.cur]? = some m ∧ m.stopped = none ∧
      ((m.op = none ∧ t = start s) ∨ (m.op = some i ∧ next m s = .next t)) := by
  unfold operate at h
  split at h
  · contradiction
  · rename_i m hm
    split at h
    · contradiction
    · rename_i hs
      have hs : m.stopped = none := by simpa using hs
      split at h
      · rename_i ho
        exact ⟨m, hm, hs, .inl ⟨ho, by simpa using h.symm⟩⟩
      · rename_i j ho
        split at h
        · rename_i e
          exact ⟨m, hm, hs, .inr ⟨e ▸ ho, h⟩⟩
        · contradiction

/-- A client between operations makes the start step. -/
theorem operate_between {i : Instr} {start : State → State}
    {next : ClientState → State → Host.Outcome State Fault Refusal} {s : State} (h : s.Between) :
    operate i start next s = .next (start s) := by
  obtain ⟨m, hm, hs, ho⟩ := h
  simp [operate, hm, hs, ho]

/-- A client in this operation makes its next step. -/
theorem operate_inOp {i : Instr} {start : State → State}
    {next : ClientState → State → Host.Outcome State Fault Refusal} {s : State} {m : ClientState}
    (hm : s.clients[s.cur]? = some m) (hs : m.stopped = none) (ho : m.op = some i) :
    operate i start next s = next m s := by
  simp [operate, hm, hs, ho]

theorem operateScript_inOp {i : Instr} {check : Option RefusalReason} {script : Nat → Word → Act} {s : State} {n : Nat}
    {x : Word} (h : s.InOp i n x) : operateScript i check script s = .next (s.perform i (script n x)) := by
  obtain ⟨m, hm, hs, ho, rfl, rfl⟩ := h
  exact operate_inOp hm hs ho

theorem operateScript_between {i : Instr} {check : Option RefusalReason} {script : Nat → Word → Act} {s : State}
    (h : s.Between) : operateScript i check script s = .next (s.startChecked i check) :=
  operate_between h

end Sys2Proof.Machine
end

