-- ==== Sys2Proof/Laws/Exec.lean ====
section
/-! SUPPORT. Inversion of `exec` and of `step`: everything one step can do, said once. -/

namespace Sys2Proof.Machine

/-- What a bus operation sets up once it has claimed the engine. -/
def setUpOf : Instr → Engine → Engine
  | .busWrite dev reg buf => setUpWrite dev reg buf
  | .busRead dev reg len => setUpRead dev reg len
  | .map _ | .unmap _ | .readWord _ _ | .writeWord _ _ _ | .setBits _ _ _ | .clearBits _ _ _ | .getField _ _ _ _
  | .setField _ _ _ _ _ | .delayUs _ | .configureAsInput _ | .readPin _ | .enablePullups _ => id

/-- The start step of every operation. -/
def State.startOf (s : State) (i : Instr) : State :=
  if isBusOp i then s.startBus i (operandCheck i) (setUpOf i) else s.startChecked i (operandCheck i)

/-- A step after the start: one step of a fixed sequence, the body of `map` or `unmap`, or an engine step. -/
inductive GoesOn (i : Instr) (s t : State) : Prop where
  | script (a : Act) (hb : isBusOp i = false) (hm : ∀ k, i ≠ .map k ∧ i ≠ .unmap k)
      (hr : ∀ r, a = .finish r → r = .ok .unit ∨ (∃ v, r = .ok (.word v)) ∨ ∃ b, r = .ok (.bool b))
      (ht : t = s.perform i a)
  | map (k : WindowKind) (hi : i = .map k) (ht : t = s.mapBody i k)
  | unmap (k : WindowKind) (hi : i = .unmap k) (ht : t = s.unmapBody i k)
  | bus (hb : isBusOp i = true) (ho : s.eng.owner = some s.cur) (ht : s.engineStep i = some t)

/-- The fixed sequence of a window or GPIO operation, by the count of steps made and the value last read; none for `map`,
`unmap` and the bus operations. -/
def scriptOf (p : Params) : Instr → Option (Nat → Word → Act)
  | .readWord k o => some fun n x => if n = 0 then .read k o else .finish (.ok (.word x))
  | .writeWord k o v => some fun n _ => if n = 0 then .write k o v else .finish (.ok .unit)
  | .setBits k o m =>
    some fun n x => if n = 0 then .read k o else if n = 1 then .write k o (x ||| m) else .finish (.ok .unit)
  | .clearBits k o m =>
    some fun n x => if n = 0 then .read k o else if n = 1 then .write k o (p.cleared k o x m) else .finish (.ok .unit)
  | .getField k o lsb w =>
    some fun n x => if n = 0 then .read k o else .finish (.ok (.word (fieldGet x lsb w)))
  | .setField k o lsb w v =>
    some fun n x =>
      if n = 0 then .read k o else if n = 1 then .write k o (fieldSet x lsb w v) else .finish (.ok .unit)
  | .delayUs us => some fun n _ => if n = 0 then .delay us else .finish (.ok .unit)
  | .configureAsInput pin =>
    some fun n x =>
      if n = 0 then .read .gpio (fselWord pin.toNat)
      else if n = 1 then .write .gpio (fselWord pin.toNat) (p.cleared .gpio (fselWord pin.toNat) x (fselMask pin.toNat))
      else .finish (.ok .unit)
  | .readPin pin =>
    some fun n x => if n = 0 then .read .gpio (levWord pin.toNat) else .finish (.ok (.bool (pressed x pin.toNat)))
  | .enablePullups m =>
    some fun n _ =>
      if n = 0 then .write .gpio offGppud pudUp
      else if n = 1 then .delay pullSettleUs
      else if n = 2 then .write .gpio offGppudclk0 m
      else if n = 3 then .delay pullSettleUs
      else if n = 4 then .write .gpio offGppud 0#32
      else if n = 5 then .write .gpio offGppudclk0 0#32
      else .finish (.ok .unit)
  | .map _ | .unmap _ | .busWrite _ _ _ | .busRead _ _ _ => none

/-- A step inside a window or GPIO operation performs the next act of its sequence. -/
theorem exec_inOp {i : Instr} {f : Nat → Word → Act} {a : Act} {s : State} {n : Nat} {x : Word}
    (hf : scriptOf s.par i = some f) (h : s.InOp i n x) (ha : f n x = a) : exec i s = .next (s.perform i a) := by
  subst ha
  obtain ⟨m, hm, hs, ho, rfl, rfl⟩ := h
  cases i <;> simp only [scriptOf, Option.some.injEq, reduceCtorEq] at hf <;> subst hf <;>
    simp only [exec, execReadWord, execWriteWord, execSetBits, execClearBits, execGetField, execSetField, execDelayUs,
      execConfigureAsInput, execReadPin, execEnablePullups, operateScript, operate_inOp hm hs ho] <;>
    split <;> simp_all

/-- A client between operations makes the start step. -/
theorem exec_between (i : Instr) {s : State} (h : s.Between) : exec i s = .next (s.startOf i) := by
  cases i <;>
    simp only [exec, execMap, execUnmap, execReadWord, execWriteWord, execSetBits, execClearBits, execGetField,
      execSetField, execDelayUs, execConfigureAsInput, execReadPin, execEnablePullups, execBusWrite, execBusRead,
      operateScript] <;>
    exact operate_between h

/-- What a step of a fixed sequence's operation can do. -/
theorem operateScript_next {i : Instr} {check : Option RefusalReason} {script : Nat → Word → Act} {s t : State}
    (h : operateScript i check script s = .next t) :
    ∃ m, s.clients[s.cur]? = some m ∧ m.stopped = none ∧
      ((m.op = none ∧ t = s.startChecked i check) ∨ (m.op = some i ∧ t = s.perform i (script m.step m.val))) := by
  obtain ⟨m, hm, hs, ⟨ho, ht⟩ | ⟨ho, ht⟩⟩ := operate_next h
  · exact ⟨m, hm, hs, .inl ⟨ho, ht⟩⟩
  · exact ⟨m, hm, hs, .inr ⟨ho, by simpa using ht.symm⟩⟩

/-- What a step of a bus operation in progress needs. -/
theorem busNext_next {i : Instr} {s t : State} (h : busNext i s = .next t) :
    s.eng.owner = some s.cur ∧ s.engineStep i = some t := by
  unfold busNext at h
  split at h
  · rename_i ho
    split at h
    · rename_i u hu
      exact ⟨ho, by simpa [hu] using h⟩
    · contradiction
  · contradiction

/-- Everything a step of an operation can do. -/
theorem exec_next {i : Instr} {s t : State} (h : exec i s = .next t) :
    (s.Between ∧ t = s.startOf i) ∨
      ∃ m, s.clients[s.cur]? = some m ∧ m.stopped = none ∧ m.op = some i ∧ GoesOn i s t := by
  cases i with
  | map k =>
    simp only [exec, execMap] at h
    obtain ⟨m, hm, hs, ⟨ho, ht⟩ | ⟨ho, ht⟩⟩ := operate_next h
    · exact .inl ⟨⟨m, hm, hs, ho⟩, ht⟩
    · exact .inr ⟨m, hm, hs, ho, .map k rfl (by simpa using ht.symm)⟩
  | unmap k =>
    simp only [exec, execUnmap] at h
    obtain ⟨m, hm, hs, ⟨ho, ht⟩ | ⟨ho, ht⟩⟩ := operate_next h
    · exact .inl ⟨⟨m, hm, hs, ho⟩, ht⟩
    · exact .inr ⟨m, hm, hs, ho, .unmap k rfl (by simpa using ht.symm)⟩
  | readWord k o =>
    simp only [exec, execReadWord] at h
    obtain ⟨m, hm, hs, ⟨ho, ht⟩ | ⟨ho, ht⟩⟩ := operateScript_next h
    · exact .inl ⟨⟨m, hm, hs, ho⟩, ht⟩
    · refine .inr ⟨m, hm, hs, ho, .script _ rfl (by simp) ?_ ht⟩
      intro r hr
      split at hr <;> first | contradiction | (cases hr; simp)
  | writeWord k o v =>
    simp only [exec, execWriteWord] at h
    obtain ⟨m, hm, hs, ⟨ho, ht⟩ | ⟨ho, ht⟩⟩ := operateScript_next h
    · exact .inl ⟨⟨m, hm, hs, ho⟩, ht⟩
    · refine .inr ⟨m, hm, hs, ho, .script _ rfl (by simp) ?_ ht⟩
      intro r hr
      split at hr <;> first | contradiction | (cases hr; simp)
  | setBits k o v =>
    simp only [exec, execSetBits] at h
    obtain ⟨m, hm, hs, ⟨ho, ht⟩ | ⟨ho, ht⟩⟩ := operateScript_next h
    · exact .inl ⟨⟨m, hm, hs, ho⟩, ht⟩
    · refine .inr ⟨m, hm, hs, ho, .script _ rfl (by simp) ?_ ht⟩
      intro r hr
      split at hr <;> first | contradiction | (cases hr; simp)
  | clearBits k o v =>
    simp only [exec, execClearBits] at h
    obtain ⟨m, hm, hs, ⟨ho, ht⟩ | ⟨ho, ht⟩⟩ := operateScript_next h
    · exact .inl ⟨⟨m, hm, hs, ho⟩, ht⟩
    · refine .inr ⟨m, hm, hs, ho, .script _ rfl (by simp) ?_ ht⟩
      intro r hr
      split at hr <;> first | contradiction | (cases hr; simp)
  | getField k o l w =>
    simp only [exec, execGetField] at h
    obtain ⟨m, hm, hs, ⟨ho, ht⟩ | ⟨ho, ht⟩⟩ := operateScript_next h
    · exact .inl ⟨⟨m, hm, hs, ho⟩, ht⟩
    · refine .inr ⟨m, hm, hs, ho, .script _ rfl (by simp) ?_ ht⟩
      intro r hr
      split at hr <;> first | contradiction | (cases hr; simp)
  | setField k o l w v =>
    simp only [exec, execSetField] at h
    obtain ⟨m, hm, hs, ⟨ho, ht⟩ | ⟨ho, ht⟩⟩ := operateScript_next h
    · exact .inl ⟨⟨m, hm, hs, ho⟩, ht⟩
    · refine .inr ⟨m, hm, hs, ho, .script _ rfl (by simp) ?_ ht⟩
      intro r hr
      split at hr <;> first | contradiction | (cases hr; simp)
  | delayUs us =>
    simp only [exec, execDelayUs] at h
    obtain ⟨m, hm, hs, ⟨ho, ht⟩ | ⟨ho, ht⟩⟩ := operateScript_next h
    · exact .inl ⟨⟨m, hm, hs, ho⟩, ht⟩
    · refine .inr ⟨m, hm, hs, ho, .script _ rfl (by simp) ?_ ht⟩
      intro r hr
      split at hr <;> first | contradiction | (cases hr; simp)
  | configureAsInput p =>
    simp only [exec, execConfigureAsInput] at h
    obtain ⟨m, hm, hs, ⟨ho, ht⟩ | ⟨ho, ht⟩⟩ := operateScript_next h
    · exact .inl ⟨⟨m, hm, hs, ho⟩, ht⟩
    · refine .inr ⟨m, hm, hs, ho, .script _ rfl (by simp) ?_ ht⟩
      intro r hr
      split at hr <;> first | contradiction | (cases hr; simp)
  | readPin p =>
    simp only [exec, execReadPin] at h
    obtain ⟨m, hm, hs, ⟨ho, ht⟩ | ⟨ho, ht⟩⟩ := operateScript_next h
    · exact .inl ⟨⟨m, hm, hs, ho⟩, ht⟩
    · refine .inr ⟨m, hm, hs, ho, .script _ rfl (by simp) ?_ ht⟩
      intro r hr
      split at hr <;> first | contradiction | (cases hr; simp)
  | enablePullups v =>
    simp only [exec, execEnablePullups] at h
    obtain ⟨m, hm, hs, ⟨ho, ht⟩ | ⟨ho, ht⟩⟩ := operateScript_next h
    · exact .inl ⟨⟨m, hm, hs, ho⟩, ht⟩
    · refine .inr ⟨m, hm, hs, ho, .script _ rfl (by simp) ?_ ht⟩
      intro r hr
      split at hr <;> first | contradiction | (cases hr; simp)
  | busWrite d r b =>
    simp only [exec, execBusWrite] at h
    obtain ⟨m, hm, hs, ⟨ho, ht⟩ | ⟨ho, ht⟩⟩ := operate_next h
    · exact .inl ⟨⟨m, hm, hs, ho⟩, ht⟩
    · exact .inr ⟨m, hm, hs, ho, .bus rfl (busNext_next ht).1 (busNext_next ht).2⟩
  | busRead d r n =>
    simp only [exec, execBusRead] at h
    obtain ⟨m, hm, hs, ⟨ho, ht⟩ | ⟨ho, ht⟩⟩ := operate_next h
    · exact .inl ⟨⟨m, hm, hs, ho⟩, ht⟩
    · exact .inr ⟨m, hm, hs, ho, .bus rfl (busNext_next ht).1 (busNext_next ht).2⟩

/-- What the start step can do. -/
theorem State.startOf_cases (s : State) (i : Instr) :
    (∃ r, operandCheck i = some r ∧ s.startOf i = (s.started i).stop (.refuse r)) ∨
      (isBusOp i = true ∧ ¬ s.Claimable ∧ s.startOf i = (s.started i).stop (.fault .busConflict (.client s.cur))) ∨
      (isBusOp i = true ∧ operandCheck i = none ∧ s.Claimable ∧
        s.startOf i = { s.started i with eng := { setUpOf i s.eng with owner := some s.cur } }) ∨
      (isBusOp i = false ∧ operandCheck i = none ∧ s.startOf i = s.started i) := by
  unfold State.startOf State.startBus State.startChecked
  cases hb : isBusOp i <;> cases ho : operandCheck i
  · simp
  · exact .inl ⟨_, rfl, rfl⟩
  · cases hc : claimCheck s with
    | none => simp [claimCheck_none.1 hc]
    | some x =>
      have : ¬ s.Claimable := fun e => by simp [claimCheck_none.2 e] at hc
      simp [this, claimCheck_some hc]
  · exact .inl ⟨_, rfl, rfl⟩

/-- What `map`'s completion step can do. -/
theorem State.mapBody_cases (s : State) (i : Instr) (k : WindowKind) :
    ((s.window k).mapped = true ∧ s.mapBody i k = s.complete i (.err .mapError)) ∨
      ((s.window k).mapped = false ∧ s.mapAnswer k = true ∧
        s.mapBody i k = (s.mapAsked.mapWindow k).complete i (.ok (.handle k ((s.window k).gen + 1)))) ∨
      ((s.window k).mapped = false ∧ s.mapAnswer k = false ∧
        s.mapBody i k = s.mapAsked.complete i (.err .mapError)) := by
  unfold State.mapBody
  cases (s.window k).mapped <;> cases s.mapAnswer k <;> simp

/-- What `unmap`'s completion step can do. -/
theorem State.unmapBody_cases (s : State) (i : Instr) (k : WindowKind) :
    (∃ x, s.unmapBody i k = s.stop x) ∨
      ((s.window k).mapped = true ∧ (k = .bsc → s.eng.phase = .idle) ∧
        (∀ d m j, d ≠ s.cur → s.clients[d]? = some m → m.op = some j → touches j k = false) ∧
        s.unmapBody i k = (s.setWindow k { s.window k with mapped := false }).complete i (.ok .unit)) := by
  unfold State.unmapBody
  split
  · exact .inl ⟨_, rfl⟩
  · rename_i hm
    split
    · exact .inl ⟨_, rfl⟩
    · rename_i hu
      split
      · exact .inl ⟨_, rfl⟩
      · rename_i hb
        refine .inr ⟨by simpa using hm, fun hk => ?_, otherUser_none.1 hu, rfl⟩
        exact Classical.byContradiction fun he => hb ⟨hk, he⟩

/-- What one step of a fixed sequence can do. -/
theorem State.perform_cases (s : State) (i : Instr) (a : Act) :
    (∃ x, s.perform i a = s.stop x) ∨
      (∃ k o, a = .read k o ∧ s.Readable k o ∧ s.perform i a = s.readAccess k o) ∨
      (∃ k o v, a = .write k o v ∧ s.Writable k o ∧ s.perform i a = s.writeAccess k o v) ∨
      (∃ us, a = .delay us ∧ s.perform i a = s.delay us) ∨
      (∃ r, a = .finish r ∧ s.perform i a = s.complete i r) := by
  cases a with
  | read k o =>
    rcases regRead_cases s k o fun _ t => t with ⟨x, h⟩ | ⟨hr, h⟩
    · exact .inl ⟨x, h⟩
    · exact .inr (.inl ⟨k, o, rfl, hr, h⟩)
  | write k o v =>
    rcases regWrite_cases s k o v id with ⟨x, h⟩ | ⟨hr, h⟩
    · exact .inl ⟨x, h⟩
    · exact .inr (.inr (.inl ⟨k, o, v, rfl, hr, h⟩))
  | delay us => exact .inr (.inr (.inr (.inl ⟨us, rfl, rfl⟩)))
  | finish r => exact .inr (.inr (.inr (.inr ⟨r, rfl, rfl⟩)))

/-- Two engine records of one bus call in flight: only the sequencer's progress differs, and it does not go to `END_ERR`. -/
structure Engine.SameCall (e e' : Engine) : Prop where
  owner : e'.owner = e.owner
  dir : e'.dir = e.dir
  dev : e'.dev = e.dev
  reg : e'.reg = e.reg
  wbuf : e'.wbuf = e.wbuf
  len : e'.len = e.len
  phase : e'.phase ≠ .endErr

/-- The engine serves bus operations only. -/
theorem Engine.Serves.isBusOp {e : Engine} {i : Instr} (h : e.Serves i) : isBusOp i = true := by
  cases i <;> first | rfl | exact h.elim

/-- The engine goes on serving its operation while the call is the same. -/
theorem Engine.SameCall.serves {e e' : Engine} {i : Instr} (h : e.SameCall e') (hp : e.phase ≠ .endErr)
    (hs : e.Serves i) : e'.Serves i := by
  cases i <;> simp_all [Engine.Serves, h.dir, h.dev, h.reg, h.wbuf, h.len, h.phase]

/-- What an engine step can do, its new engine record left to the phase: it stops the client, makes one access on BSC and
moves the engine, or completes the operation. -/
inductive EngineMove (i : Instr) (s t : State) : Prop where
  | stop (x : Stop) (ht : t = s.stop x)
  | read (o : Nat) (e : Engine) (ho : o = offS ∨ o = offFifo) (hr : s.Readable .bsc o) (he : s.eng.SameCall e)
      (hp : s.eng.phase ≠ .endErr) (ht : t = { s.readAccess .bsc o with eng := e })
  | write (o : Nat) (v : Word) (e : Engine) (hw : s.Writable .bsc o) (he : s.eng.SameCall e)
      (hp : s.eng.phase ≠ .endErr) (ht : t = { s.writeAccess .bsc o v with eng := e })
  | finish (r : Result) (ht : t = s.finishBus i r)

theorem EngineMove.of_write {i : Instr} {s t : State} (o : Nat) (v : Word) (f : State → State)
    (hp : s.eng.phase ≠ .endErr) (hf : ∀ u : State, ∃ e : Engine, f u = { u with eng := e } ∧ u.eng.SameCall e)
    (ht : t = s.regWrite .bsc o v f) : EngineMove i s t := by
  rcases regWrite_cases s .bsc o v f with ⟨x, h⟩ | ⟨hw, h⟩
  · exact .stop x (ht.trans h)
  · obtain ⟨e, hfe, he⟩ := hf (s.writeAccess .bsc o v)
    exact .write o v e hw (by simpa using he) hp (ht.trans (h.trans hfe))

theorem EngineMove.of_read {i : Instr} {s t : State} (o : Nat) (f : Word → State → State)
    (ho : o = offS ∨ o = offFifo) (hp : s.eng.phase ≠ .endErr)
    (hf : ∀ (v : Word) (u : State), ∃ e : Engine, f v u = { u with eng := e } ∧ u.eng.SameCall e)
    (ht : t = s.regRead .bsc o f) : EngineMove i s t := by
  rcases regRead_cases s .bsc o f with ⟨x, h⟩ | ⟨hr, h⟩
  · exact .stop x (ht.trans h)
  · obtain ⟨e, hfe, he⟩ := hf (s.deviceRead .bsc o).1 (s.readAccess .bsc o)
    exact .read o e ho hr (by simpa using he) hp (ht.trans (h.trans hfe))

theorem EngineMove.of_poll {i : Instr} {s t : State} (test : Word → Phase) (hp : s.eng.phase ≠ .endErr)
    (htest : ∀ v, test v ≠ .endErr) (ht : t = s.poll test) : EngineMove i s t := by
  unfold State.poll at ht
  split at ht
  · refine .of_write _ _ _ hp ?_ ht
    exact fun u => ⟨_, rfl, rfl, rfl, rfl, rfl, rfl, rfl, by simp⟩
  · refine .of_read _ _ (.inl rfl) hp ?_ ht
    refine fun v u => ⟨_, rfl, rfl, rfl, rfl, rfl, rfl, rfl, ?_⟩
    dsimp only
    split
    · simp
    · exact htest v

theorem State.engineStep_cases {s t : State} {i : Instr} (h : s.engineStep i = some t) : EngineMove i s t := by
  have hx : ∀ p, s.eng.phase = p → p ≠ .endErr → s.eng.phase ≠ .endErr := fun p hp hn => hp ▸ hn
  unfold State.engineStep at h
  split at h
  · contradiction
  all_goals have ht := (Option.some.inj h).symm
  all_goals rename_i hph
  all_goals first
    | exact .finish _ ht
    | (refine .of_poll _ (hx _ hph (by simp)) ?_ ht
       intro v
       try dsimp only
       repeat' split
       all_goals simp)
    | (refine .of_read _ _ (.inr rfl) (hx _ hph (by simp)) ?_ ht
       exact fun v u => ⟨_, rfl, rfl, rfl, rfl, rfl, rfl, rfl, by simp⟩)
    | (refine .of_write _ _ _ (hx _ hph (by simp)) ?_ ht
       refine fun u => ⟨_, rfl, rfl, rfl, rfl, rfl, rfl, rfl, ?_⟩
       dsimp only [State.setPhase]
       repeat' split
       all_goals simp)

/-- What a step of the machine can do: the picked client goes on with its operation, starts the next one of its program,
or meets a call that spells no operation. -/
theorem step_next {s t : State} (h : step s = .next t) :
    ∃ c rest m, s.pick = some (c, rest) ∧ s.clients[c]? = some m ∧
      ((∃ i, m.op = some i ∧ exec i (s.turnTo c rest) = .next t) ∨
        ∃ call calls, m.op = none ∧ m.prog = call :: calls ∧
          ((∃ i, decode call = .ok i ∧
              exec i ((s.turnTo c rest).updMe fun m => { m with prog := calls }) = .next t) ∨
            ((∃ e, decode call = .error e) ∧
              t = ((s.turnTo c rest).updMe fun m => { m with prog := calls }).stop (.refuse .badSelector)))) := by
  unfold step State.fetch at h
  cases hp : s.pick with
  | none => simp [hp] at h
  | some p =>
    obtain ⟨c, rest⟩ := p
    cases hm : s.clients[c]? with
    | none => simp [hp, hm] at h
    | some m =>
      refine ⟨c, rest, m, rfl, hm, ?_⟩
      cases ho : m.op with
      | some i => exact .inl ⟨i, rfl, by simpa [hp, hm, ho] using h⟩
      | none =>
        cases hq : m.prog with
        | nil => simp [hp, hm, ho, hq] at h
        | cons call calls =>
          refine .inr ⟨call, calls, rfl, rfl, ?_⟩
          cases hd : decode call with
          | ok i => exact .inl ⟨i, rfl, by simpa [hp, hm, ho, hq, hd] using h⟩
          | error e =>
            refine .inr ⟨⟨e, rfl⟩, ?_⟩
            simpa [hp, hm, ho, hq, hd] using h.symm

/-- The picked client has a step. -/
theorem pick_canMove {s : State} {c : Nat} {rest : List Nat} (h : s.pick = some (c, rest)) : s.canMove c = true := by
  unfold State.pick at h
  split at h
  · rename_i d more hd
    obtain ⟨rfl, -⟩ : d = c ∧ more = rest := by simpa using h
    have := List.dropWhile_eq_nil_iff.not.1 (by rw [hd]; simp : s.env.turns.dropWhile (fun c => !s.canMove c) ≠ [])
    have h2 := List.head_dropWhile_not (fun c => !s.canMove c) (l := s.env.turns) (by rw [hd]; simp)
    simpa [hd] using h2
  · split at h
    · contradiction
    · rename_i d hd
      obtain ⟨rfl, -⟩ : d = c ∧ ([] : List Nat) = rest := by simpa using h
      have : d ∈ s.movers := by simp [hd]
      simpa [State.movers] using (List.mem_filter.1 this).2
    · rename_i d e more hd
      have hc := (Prod.mk.inj (Option.some.inj h)).1
      have hlt : Config.turn s.hist s.env.draws % (more.length + 2) < (d :: e :: more).length :=
        Nat.mod_lt _ (by simp)
      have : c ∈ s.movers := by
        rw [hd, ← hc, List.getD_eq_getElem _ _ hlt]
        exact List.getElem_mem hlt
      exact (List.mem_filter.1 this).2

end Sys2Proof.Machine
end

