-- ==== Sys2Proof/Laws/PerInstr.lean ====
section
/-! SUPPORT. Per-instruction families: one lemma per constructor of Instr. `OperandCheck`: the start step's operand check
lets an operation through exactly when it is well-formed. -/

namespace Sys2Proof.Laws.OperandCheck

open Sys2Proof.Machine

/-- The check passes exactly on the operand domain. -/
def Statement (i : Instr) : Prop := operandCheck i = none ↔ i.wellFormed = true

theorem map (kind : WindowKind) : Statement (.map kind) := by simp [Statement, operandCheck, Instr.wellFormed]
theorem unmap (kind : WindowKind) : Statement (.unmap kind) := by simp [Statement, operandCheck, Instr.wellFormed]
theorem readWord (kind : WindowKind) (offset : Nat) : Statement (.readWord kind offset) := by
  simp [Statement, operandCheck, Instr.wellFormed]
theorem writeWord (kind : WindowKind) (offset : Nat) (value : Word) : Statement (.writeWord kind offset value) := by
  simp [Statement, operandCheck, Instr.wellFormed]
theorem setBits (kind : WindowKind) (offset : Nat) (mask : Word) : Statement (.setBits kind offset mask) := by
  simp [Statement, operandCheck, Instr.wellFormed]
theorem clearBits (kind : WindowKind) (offset : Nat) (mask : Word) : Statement (.clearBits kind offset mask) := by
  simp [Statement, operandCheck, Instr.wellFormed]
theorem getField (kind : WindowKind) (offset lsb width : Nat) : Statement (.getField kind offset lsb width) :=
  checkShape_none lsb width
theorem setField (kind : WindowKind) (offset lsb width : Nat) (value : Word) :
    Statement (.setField kind offset lsb width value) := checkFieldValue_none lsb width value
theorem delayUs (us : Nat) : Statement (.delayUs us) := by simp [Statement, operandCheck, Instr.wellFormed]
theorem configureAsInput (pin : Int) : Statement (.configureAsInput pin) := checkPin_none pin
theorem readPin (pin : Int) : Statement (.readPin pin) := checkPin_none pin
theorem enablePullups (mask : Word) : Statement (.enablePullups mask) := by
  simp [Statement, operandCheck, Instr.wellFormed]
theorem busWrite (dev : Nat) (reg : Byte) (buf : List Byte) : Statement (.busWrite dev reg buf) := by
  simp only [Statement, operandCheck, Instr.wellFormed, Bool.and_eq_true, decide_eq_true_eq]
  exact checkBusWrite_none dev buf
theorem busRead (dev : Nat) (reg : Byte) (len : Nat) : Statement (.busRead dev reg len) := by
  simp only [Statement, operandCheck, Instr.wellFormed, Bool.and_eq_true, decide_eq_true_eq]
  exact checkBusRead_none dev len

end Sys2Proof.Laws.OperandCheck
end

