-- ==== Sys2Proof/Laws/Reference.lean ====
section
/-! SUPPORT. The reference controller keeps its FIFOs within their depth and its targets in canonical form. -/

namespace Sys2Proof.Machine

/-- Both FIFOs within their depth, the targets sorted, each target's registers in canonical form
(42_bus_engine.md R320). -/
structure BscRef.Wf (b : BscRef) : Prop where
  tx_fits : b.txq.length ≤ 16
  rx_fits : b.rxq.length ≤ 16
  rising : Rising b.tgt
  regs_wf : ∀ t ∈ b.tgt, Memory.wf t.2.regs

/-- Only the FIFOs and the targets matter to the form. -/
theorem BscRef.Wf.congr {b b' : BscRef} (h : b.Wf) (htx : b'.txq = b.txq) (hrx : b'.rxq = b.rxq)
    (ht : b'.tgt = b.tgt) : b'.Wf :=
  ⟨htx ▸ h.tx_fits, hrx ▸ h.rx_fits, ht ▸ h.rising, ht ▸ h.regs_wf⟩

theorem BscRef.Wf.writeC {b : BscRef} (h : b.Wf) (v : Word) : (b.writeC v).Wf := by
  have key : (b.writeC v).tgt = b.tgt ∧ ((b.writeC v).txq = b.txq ∧ (b.writeC v).rxq = b.rxq ∨
      (b.writeC v).txq = [] ∧ (b.writeC v).rxq = []) := by
    cases hc : ctrlClear v <;> cases he : ctrlI2cen v <;> cases hs : ctrlSt v <;> cases hd : b.dlen.toNat <;>
      simp [BscRef.writeC, hc, he, hs, hd]
  obtain ⟨ht, ⟨h1, h2⟩ | ⟨h1, h2⟩⟩ := key
  · exact h.congr h1 h2 ht
  · exact ⟨by simp [h1], by simp [h2], ht ▸ h.rising, ht ▸ h.regs_wf⟩

theorem BscRef.Wf.write {b : BscRef} (h : b.Wf) (o : Nat) (v : Word) : (b.write o v).Wf := by
  unfold BscRef.write
  split
  · exact h.writeC v
  split
  · exact h.congr rfl rfl rfl
  split
  · exact h.congr rfl rfl rfl
  split
  · exact h.congr rfl rfl rfl
  split
  · unfold BscRef.push
    split
    · rename_i hl
      exact ⟨by simp only [Config.fifoDepth] at hl; simp; omega, h.rx_fits, h.rising, h.regs_wf⟩
    · exact h
  · exact h

theorem BscRef.Wf.countByte {b : BscRef} (h : b.Wf) : b.countByte.Wf := by
  unfold BscRef.countByte
  split <;> exact h.congr rfl rfl rfl

/-- Putting a target whose registers are in canonical form keeps the form. -/
theorem targets_put {l : List (Nat × Target)} (a : Nat) (t : Target) (hr : Rising l)
    (hw : ∀ c ∈ l, Memory.wf c.2.regs) (ht : Memory.wf t.regs) :
    Rising (Cells.put l a t) ∧ ∀ c ∈ Cells.put l a t, Memory.wf c.2.regs := by
  refine ⟨Cells.put_rising a t hr, fun c hc => ?_⟩
  rcases Cells.mem_put hc with rfl | hc
  · exact ht
  · exact hw c hc

theorem BscRef.Wf.sendByte {b : BscRef} (h : b.Wf) {t : Target} (ht : Memory.wf t.regs) : (b.sendByte t).Wf := by
  unfold BscRef.sendByte
  split
  · exact h
  · rename_i x rest hq
    refine BscRef.Wf.countByte ?_
    have hl : rest.length ≤ 16 := by have := h.tx_fits; simp [hq] at this; omega
    have hwf : ∀ t' : Target, (t' = { t with ptr := x } ∨
        t' = { t with regs := Memory.write t.regs t.ptr.toNat x, ptr := t.ptr + 1#8 }) → Memory.wf t'.regs := by
      rintro t' (rfl | rfl)
      · exact ht
      · exact Memory.write_wf _ _ ht
    split
    · exact ⟨hl, h.rx_fits, (targets_put _ _ h.rising h.regs_wf (hwf _ (.inl rfl))).1,
        (targets_put _ _ h.rising h.regs_wf (hwf _ (.inl rfl))).2⟩
    · exact ⟨hl, h.rx_fits, (targets_put _ _ h.rising h.regs_wf (hwf _ (.inr rfl))).1,
        (targets_put _ _ h.rising h.regs_wf (hwf _ (.inr rfl))).2⟩

theorem BscRef.Wf.receiveByte {b : BscRef} (h : b.Wf) {t : Target} (ht : Memory.wf t.regs) : (b.receiveByte t).Wf := by
  unfold BscRef.receiveByte
  split
  · exact h
  · rename_i hl
    have := h.rx_fits
    have hp := targets_put b.cur.toNat { t with ptr := t.ptr + 1#8 } h.rising h.regs_wf ht
    refine BscRef.Wf.countByte ⟨h.tx_fits, ?_, hp.1, hp.2⟩
    simp only [Config.fifoDepth] at hl
    simp
    omega

theorem BscRef.Wf.byteStep {b : BscRef} (h : b.Wf) : b.byteStep.Wf := by
  unfold BscRef.byteStep
  split
  · split
    · exact ⟨by simp, h.rx_fits, h.rising, h.regs_wf⟩
    · rename_i t ht
      have hw := h.regs_wf _ (Cells.get?_mem ht)
      split
      · exact h
      · exact h.congr rfl rfl rfl
      · split
        · exact h.receiveByte hw
        · exact h.sendByte hw
  · exact h

theorem BscRef.Wf.byteSteps {b : BscRef} (h : b.Wf) (n : Nat) : (BscRef.byteSteps n b).Wf := by
  induction n generalizing b with
  | zero => exact h
  | succ n ih => exact ih h.byteStep

theorem BscRef.Wf.read {b : BscRef} (h : b.Wf) (rate o : Nat) : (b.read rate o).2.Wf := by
  unfold BscRef.read
  split
  · exact h
  split
  · exact h.byteSteps rate
  split
  · exact h
  split
  · exact h
  split
  · split
    · exact h
    · rename_i x rest hq
      exact ⟨h.tx_fits, by have := h.rx_fits; simp [hq] at this; simp; omega, h.rising, h.regs_wf⟩
  · exact h

end Sys2Proof.Machine
end

