-- ==== Sys2Proof/Tests/Slice0.lean ====
section
/-! SUPPORT. Tests of one step each, with expected values from the spec's rules, examples and test vectors, and a named
witness for the hypotheses of every obligation that has any. -/

namespace Sys2Proof.Tests

open Sys2Proof.Machine Sys2Proof.Claims

/-! ### Small states -/

/-- The next state, none for a fault or a refusal. -/
def nextOf : Host.Outcome State Fault Refusal → Option State
  | .next t => some t
  | .fault _ => none
  | .refused _ => none

/-- Both windows mapped once. -/
def mapped : State :=
  { State.reset with
    win := { gpio := { State.reset.win.gpio with mapped := true, gen := 1 }
             bsc := { State.reset.win.bsc with mapped := true, gen := 1 } } }

/-- Client 0 in operation `i`, with `n` steps made and `x` last read. -/
def inside (i : Instr) (n : Nat) (x : Word) (s : State) : State :=
  { s with clients := [{ ClientState.reset with op := some i, step := n, val := x }, ClientState.reset] }

/-- The next register reads return these words. -/
def answering (l : List Word) (s : State) : State := { s with env := { s.env with answers := l } }

/-- The platform answers the next map request so. -/
def granting (b : Bool) (s : State) : State := { s with env := { s.env with mapAnswers := [b] } }

/-- Client 0 will issue this call. -/
def issuing (c : Call) (s : State) : State :=
  { s with clients := [{ ClientState.reset with prog := [c] }, ClientState.reset] }

/-- Client 1 in operation `i`, client 0 as it was. -/
def besides (i : Instr) (s : State) : State :=
  { s with clients := s.clients.take 1 ++ [{ ClientState.reset with op := some i }] }

/-- A bus write of two bytes. -/
def aWrite : Instr := .busWrite 0x20 0x00#8 [0xFF#8]

/-- A bus read of two bytes. -/
def aRead : Instr := .busRead 0x20 0x12#8 2

/-- Client 0 in its bus operation, at this phase of the engine. -/
def busAt (i : Instr) (p : Phase) (s : State) : State :=
  { inside i 0 0#32 s with
    eng :=
      { Engine.reset with
        phase := p, owner := some 0, dev := 0x20#8
        dir := (match i with | .busRead _ _ _ => .read | _ => .write)
        wbuf := (match i with | .busRead _ _ _ => [] | _ => [0xFF#8])
        reg := (match i with | .busRead _ _ _ => 0x12#8 | _ => 0x00#8)
        len := 2#16, rbuf := [0#8, 0#8] } }

/-- The levels of vectors W and G: pins 4 and 17 low, every other pin high. -/
def reference (s : State) : State :=
  { s with
    par := { s.par with device := .reference }
    dev := { s.dev with levels := 0x3FFFFFFFFDFFEF#54, gpioStore := [(0, 0x1249#32)] } }

/-- A next state with a property, from an evaluation. -/
theorem exists_next {o : Host.Outcome State Fault Refusal} {p : State → Bool} (h : (nextOf o).any p = true) :
    ∃ t, o = .next t ∧ p t = true := by
  cases o with
  | next t => exact ⟨t, rfl, by simpa [nextOf] using h⟩
  | fault r => simp [nextOf] at h
  | refused r => simp [nextOf] at h

/-! ### Well-formedness (30_encoding.md R169; 60_exceptions.md R347): each check refuses an ill-formed operation -/

theorem test_wf_pin_below : (Instr.configureAsInput (-1)).wellFormed = false := by decide
theorem test_wf_pin_above : (Instr.readPin 54).wellFormed = false := by decide
theorem test_wf_pin_last : (Instr.readPin 53).wellFormed = true := by decide
theorem test_wf_width_zero : (Instr.getField .gpio 0 3 0).wellFormed = false := by decide
theorem test_wf_shape_too_wide : (Instr.getField .gpio 0 31 2).wellFormed = false := by decide
theorem test_wf_set_shape : (Instr.setField .gpio 0 32 1 0#32).wellFormed = false := by decide
theorem test_wf_value_too_wide : (Instr.setField .gpio 0 0 3 8#32).wellFormed = false := by decide
theorem test_wf_write_dev : (Instr.busWrite 128 0#8 [1#8]).wellFormed = false := by decide
theorem test_wf_write_long : (Instr.busWrite 0 0#8 (List.replicate 65536 0#8)).wellFormed = false := by
  simp only [Instr.wellFormed, List.length_replicate]
  decide
theorem test_wf_read_dev : (Instr.busRead 128 0#8 1).wellFormed = false := by decide
theorem test_wf_read_zero : (Instr.busRead 0x20 0#8 0).wellFormed = false := by decide
theorem test_wf_read_long : (Instr.busRead 0x20 0#8 65536).wellFormed = false := by decide
theorem test_wf_read_longest : (Instr.busRead 127 0#8 65535).wellFormed = true := by decide

/-! ### Decoding: the selectors of 30_encoding.md R170 written out bit by bit, every argument non-zero -/

theorem test_decode_map : decode ⟨0b00000001#8, .k .bsc⟩ = .ok (.map .bsc) := rfl
theorem test_decode_unmap : decode ⟨0b00000010#8, .k .bsc⟩ = .ok (.unmap .bsc) := rfl
theorem test_decode_readWord : decode ⟨0b00010000#8, .ko .bsc 4⟩ = .ok (.readWord .bsc 4) := rfl
theorem test_decode_writeWord : decode ⟨0b00010001#8, .kov .bsc 3 0x20#32⟩ = .ok (.writeWord .bsc 3 0x20#32) := rfl
theorem test_decode_setBits : decode ⟨0b00010010#8, .kov .bsc 1 0x302#32⟩ = .ok (.setBits .bsc 1 0x302#32) := rfl
theorem test_decode_clearBits : decode ⟨0b00010011#8, .kov .bsc 3 0x7#32⟩ = .ok (.clearBits .bsc 3 0x7#32) := rfl
theorem test_decode_getField : decode ⟨0b00010100#8, .kof .gpio 5 12 3⟩ = .ok (.getField .gpio 5 12 3) := rfl
theorem test_decode_setField : decode ⟨0b00010101#8, .kofv .gpio 5 6 3 4#32⟩ = .ok (.setField .gpio 5 6 3 4#32) := rfl
theorem test_decode_delayUs : decode ⟨0b00011000#8, .us 10⟩ = .ok (.delayUs 10) := rfl
theorem test_decode_configureAsInput : decode ⟨0b00100000#8, .p 17⟩ = .ok (.configureAsInput 17) := rfl
theorem test_decode_readPin : decode ⟨0b00100001#8, .p 53⟩ = .ok (.readPin 53) := rfl
theorem test_decode_enablePullups : decode ⟨0b00100010#8, .m 0x0BC6C61C#32⟩ = .ok (.enablePullups 0x0BC6C61C#32) := rfl
theorem test_decode_busWrite :
    decode ⟨0b00110000#8, .bw 0x20 0x12#8 [1#8, 2#8]⟩ = .ok (.busWrite 0x20 0x12#8 [1#8, 2#8]) := rfl
theorem test_decode_busRead : decode ⟨0b00110001#8, .br 0x20 0x12#8 3⟩ = .ok (.busRead 0x20 0x12#8 3) := rfl
theorem test_decode_hole : decode ⟨0b00010110#8, .ko .bsc 4⟩ = .error .badSelector := rfl
theorem test_decode_record : decode ⟨0b00010000#8, .us 10⟩ = .error .badRecord := rfl

/-! ### One step of each operation -/

/-- 40_register_window.md R201. -/
theorem test_map_granted :
    (nextOf (exec (.map .gpio) (granting true (inside (.map .gpio) 0 0#32 State.reset)))).map
      (fun t => (t.win.gpio.mapped, t.win.gpio.gen, t.hist)) =
      some (true, 1, [.done 0 (.map .gpio) (.ok (.handle .gpio 1))]) := by decide
/-- Vector W16. -/
theorem test_map_twice :
    (nextOf (exec (.map .gpio) (inside (.map .gpio) 0 0#32 mapped))).map (fun t => (t.win.gpio.gen, t.hist)) =
      some (1, [.done 0 (.map .gpio) (.err .mapError)]) := by decide
/-- Vector W18. -/
theorem test_unmap :
    (nextOf (exec (.unmap .gpio) (inside (.unmap .gpio) 0 0#32 mapped))).map (fun t => (t.win.gpio.mapped, t.hist)) =
      some (false, [.done 0 (.unmap .gpio) (.ok .unit)]) := by decide
/-- Vector UF1, the other way about: client 1 is in the read. -/
theorem test_unmap_in_flight :
    (nextOf (exec (.unmap .bsc) (besides aRead (inside (.unmap .bsc) 0 0#32 mapped)))).map
      (fun t => (t.win.bsc.mapped, t.faults)) = some (true, [⟨0, .unmapInFlight, .user .bsc (some 1)⟩]) := by decide
/-- Vector W1. -/
theorem test_read_word :
    (nextOf (exec (.readWord .gpio 13) (inside (.readWord .gpio 13) 0 0#32 (reference mapped)))).map State.hist =
      some [.access 0 .gpio 13 .read 0xFFFDFFEF#32] := by decide
/-- Vector W4. -/
theorem test_read_word_out_of_range :
    (nextOf (exec (.readWord .gpio 44) (inside (.readWord .gpio 44) 0 0#32 mapped))).map
      (fun t => (t.hist, t.faults)) = some ([], [⟨0, .offsetOutOfRange, .register .gpio 44⟩]) := by decide
/-- Vector W14: a READ_ONLY register keeps nothing. -/
theorem test_write_word_read_only :
    (nextOf (exec (.writeWord .gpio 13 0#32) (inside (.writeWord .gpio 13 0#32) 0 0#32 mapped))).map
      (fun t => (t.hist, t.dev.gpioStore)) = some ([.access 0 .gpio 13 .write 0#32], []) := by decide
/-- Vector W5. -/
theorem test_write_word_reserved :
    (nextOf (exec (.writeWord .gpio 7 1#32) (inside (.writeWord .gpio 7 1#32) 0 0#32 mapped))).map
      (fun t => (t.hist, t.refused)) = some ([], true) := by decide
/-- Vector W6. -/
theorem test_set_bits :
    (nextOf (exec (.setBits .gpio 0 0x38#32) (inside (.setBits .gpio 0 0x38#32) 1 0x1249#32 mapped))).map State.hist =
      some [.access 0 .gpio 0 .write 0x1279#32] := by decide
/-- Vector W7. -/
theorem test_clear_bits :
    (nextOf (exec (.clearBits .gpio 0 0x38#32) (inside (.clearBits .gpio 0 0x38#32) 1 0x1279#32 mapped))).map
      State.hist = some [.access 0 .gpio 0 .write 0x1241#32] := by decide
/-- Vector W8. -/
theorem test_get_field :
    (nextOf (exec (.getField .gpio 0 12 3) (inside (.getField .gpio 0 12 3) 1 0x1249#32 mapped))).map State.hist =
      some [.done 0 (.getField .gpio 0 12 3) (.ok (.word 1#32))] := by decide
/-- Vector W10. -/
theorem test_get_field_whole_word :
    (nextOf (exec (.getField .gpio 0 0 32) (inside (.getField .gpio 0 0 32) 1 0x1249#32 mapped))).map State.hist =
      some [.done 0 (.getField .gpio 0 0 32) (.ok (.word 0x1249#32))] := by decide
/-- Vector W9. -/
theorem test_set_field :
    (nextOf (exec (.setField .gpio 0 6 3 4#32) (inside (.setField .gpio 0 6 3 4#32) 1 0x1249#32 mapped))).map
      State.hist = some [.access 0 .gpio 0 .write 0x1309#32] := by decide
/-- 41_gpio_fields.md R262. -/
theorem test_delay_settles :
    (nextOf (exec (.delayUs 10)
      { inside (.delayUs 10) 0 0#32 State.reset with
        dev := { DeviceState.reset with pud := .sel (some 2#2) false } })).map
      (fun t => (t.hist, t.dev.pud)) = some ([.delay 0 10], .sel (some 2#2) true) := by decide
/-- 41_gpio_fields.md R262: 9 microseconds settle nothing. -/
theorem test_delay_too_short :
    (nextOf (exec (.delayUs 9)
      { inside (.delayUs 9) 0 0#32 State.reset with
        dev := { DeviceState.reset with pud := .sel (some 2#2) false } })).map
      (fun t => t.dev.pud) = some (.sel (some 2#2) false) := by decide
/-- Vector G1. -/
theorem test_configure_as_input :
    (nextOf (exec (.configureAsInput 4) (inside (.configureAsInput 4) 1 0x1249#32 mapped))).map State.hist =
      some [.access 0 .gpio 0 .write 0x249#32] := by decide
/-- 10_state.md R58: a reserved bit read as 1 is written as 0. -/
theorem test_configure_reserved_zero :
    (nextOf (exec (.configureAsInput 4) (inside (.configureAsInput 4) 1 0xC0001249#32 mapped))).map State.hist =
      some [.access 0 .gpio 0 .write 0x249#32] := by decide
/-- 41_gpio_fields.md R250, the other setting of log 28: it is written back as it was read. -/
theorem test_clear_bits_reserved_as_read :
    (nextOf (exec (.clearBits .gpio 0 0x38#32)
      (inside (.clearBits .gpio 0 0x38#32) 1 0xC0001279#32
        { mapped with par := { mapped.par with reservedBits := .asRead } }))).map
      State.hist = some [.access 0 .gpio 0 .write 0xC0001241#32] := by decide
/-- Vector G4. -/
theorem test_configure_last_pin :
    (nextOf (exec (.configureAsInput 53) (inside (.configureAsInput 53) 1 0xFFF#32 mapped))).map State.hist =
      some [.access 0 .gpio 5 .write 0x1FF#32] := by decide
/-- Vector G7-4. -/
theorem test_read_pin_pressed :
    (nextOf (exec (.readPin 4) (inside (.readPin 4) 1 0xFFFDFFEF#32 mapped))).map State.hist =
      some [.done 0 (.readPin 4) (.ok (.bool true))] := by decide
/-- Vector G7-31. -/
theorem test_read_pin_released :
    (nextOf (exec (.readPin 31) (inside (.readPin 31) 1 0xFFFDFFEF#32 mapped))).map State.hist =
      some [.done 0 (.readPin 31) (.ok (.bool false))] := by decide
/-- Vector G8, its first step. -/
theorem test_enable_pullups_select :
    (nextOf (exec (.enablePullups 0x10#32) (inside (.enablePullups 0x10#32) 0 0#32 mapped))).map
      (fun t => (t.hist, t.dev.pud)) = some ([.access 0 .gpio 37 .write 2#32], .sel (some 2#2) false) := by decide
/-- Vector G8, its last write: the latch. -/
theorem test_enable_pullups_latch :
    (nextOf (exec (.enablePullups 0x10#32)
      { inside (.enablePullups 0x10#32) 5 0#32 mapped with
        dev := { DeviceState.reset with pud := .clk (some 2#2) 0x10#32 true true } })).map
      (fun t => (t.dev.pullOf 4, t.dev.pullOf 5, t.dev.pud)) = some (.up, .unknown, .none) := by decide
/-- Vector BW1, its first access. -/
theorem test_bus_write_address :
    (nextOf (exec aWrite (busAt aWrite .wA mapped))).map (fun t => (t.hist, t.eng.phase)) =
      some ([.access 0 .bsc 3 .write 0x20#32], .wDlen) := by decide
/-- Vector CK1, its poll. -/
theorem test_bus_write_clock_stretch :
    (nextOf (exec aWrite (answering [0x211#32] (busAt aWrite .wWait mapped)))).map
      (fun t => (t.hist, t.eng.phase, t.eng.s)) = some ([.access 0 .bsc 1 .read 0x211#32], .abC, 0x211#32) := by decide
/-- Vector BR1, the start of the receive part. -/
theorem test_bus_read_start :
    (nextOf (exec aRead (busAt aRead .rGo mapped))).map (fun t => (t.hist, t.eng.phase)) =
      some ([.access 0 .bsc 0 .write 0x8091#32], .rWait) := by decide
/-- Vector RACE1, a pop. -/
theorem test_bus_read_pop :
    (nextOf (exec aRead (answering [0xAA#32] (busAt aRead .rFfifo mapped)))).map
      (fun t => (t.hist, t.eng.rbuf, t.eng.idx, t.eng.phase)) =
      some ([.access 0 .bsc 4 .read 0xAA#32], [0xAA#8, 0#8], 1, .rFpoll) := by decide

/-- 42_bus_engine.md R320, R326, R329: `S` of the idle reference controller reads 0x50, whoever reads it. -/
theorem test_reference_status :
    (nextOf (exec (.readWord .bsc 1) (inside (.readWord .bsc 1) 0 0#32 (reference mapped)))).map State.hist =
      some [.access 0 .bsc 1 .read 0x50#32] := by decide
/-- 60_exceptions.md R340, R345. -/
theorem test_codes : ErrCode.busTimeout.code = 3 ∧ FaultCode.busConflict.code = 18 := by decide

/-! ### Fetching -/

/-- A table word placed after reset is the very next step's operation. -/
theorem test_fetch_word :
    (nextOf (step (State.reset.withFetchWord 8 0x22))).map State.hist = some [.start 0 (.enablePullups 0#32)] := by decide
/-- 30_encoding.md R172. -/
theorem test_fetch_bad_selector :
    (nextOf (step (State.reset.withFetchWord 8 0x16))).map (fun t => (t.hist, t.refused)) = some ([], true) := by decide
/-- No program is in the reset state (log 7). -/
theorem test_reset_has_no_step : nextOf (step State.reset) = none := by decide
/-- The byte memory of a target after reset: there is no target. -/
theorem test_reset_targets : State.reset.dev.bsc.tgt = [] := by decide
/-- The canonical form of byte memory with nothing listed. -/
theorem test_empty_memory_wf : Memory.wf [] := by decide

/-! ### Witnesses: for each obligation with hypotheses, a concrete input that meets them together -/

theorem reset_between : State.reset.Between := ⟨_, rfl, rfl, rfl⟩
theorem mapped_between : mapped.Between := ⟨_, rfl, rfl, rfl⟩
theorem inside_inOp (i : Instr) (n : Nat) (x : Word) {s : State} (h : s.cur = 0) : (inside i n x s).InOp i n x :=
  ⟨{ ClientState.reset with op := some i, step := n, val := x }, by simp [inside, h], rfl, rfl, rfl, rfl⟩
theorem reset_claimable : State.reset.Claimable := by
  refine ⟨rfl, fun d m i _ hm hi => ?_⟩
  have : m ∈ State.reset.clients := List.mem_of_getElem? hm
  simp [State.reset, ClientState.reset] at this
  simp [this] at hi
theorem busAt_holds (i : Instr) (p : Phase) {s : State} (h : s.cur = 0) : (busAt i p s).Holds i :=
  ⟨by simp [busAt, inside, h], { ClientState.reset with op := some i, step := 0, val := 0#32 },
    by simp [busAt, inside, h], rfl, rfl⟩
theorem mapped_bsc : mapped.BscMapped := ⟨rfl, rfl⟩

theorem witness_SelectorOutsideTheMapSetsTheRefusalMark :
    ∃ (s : State) (c : Nat) (rest : List Nat) (m : ClientState) (call : Call) (calls : List Call),
      s.pick = some (c, rest) ∧ s.clients[c]? = some m ∧ m.op = none ∧ m.prog = call :: calls ∧
        call.selector.toNat ∉
          [0x01, 0x02, 0x10, 0x11, 0x12, 0x13, 0x14, 0x15, 0x18, 0x20, 0x21, 0x22, 0x30, 0x31] :=
  ⟨issuing ⟨0x32#8, .us 0⟩ State.reset, 0, [], { ClientState.reset with prog := [⟨0x32#8, .us 0⟩] }, ⟨0x32#8, .us 0⟩, [],
    by decide, by decide, by decide, by decide, by decide⟩
theorem witness_SetFieldKeepsTheOtherBits_top :
    ∃ (v : Word) (lsb w : Nat), 1 ≤ w ∧ lsb + w ≤ 32 ∧ v.toNat < 2 ^ w := ⟨1#32, 31, 1, by decide, by decide, by decide⟩
theorem witness_SetFieldKeepsTheOtherBits_whole :
    ∃ (v : Word) (lsb w : Nat), 1 ≤ w ∧ lsb + w ≤ 32 ∧ v.toNat < 2 ^ w :=
  ⟨0xFFFFFFFF#32, 0, 32, by decide, by decide, by decide⟩
theorem witness_ModeMaskCoversThePinsThreeBits : ∃ p : Nat, p < 54 := ⟨53, by decide⟩
theorem witness_StepRunsTheDecodedOperation_call :
    ∃ (s : State) (c : Nat) (rest : List Nat) (m : ClientState) (call : Call) (calls : List Call) (i : Instr),
      s.pick = some (c, rest) ∧ s.clients[c]? = some m ∧ m.op = none ∧ m.prog = call :: calls ∧ decode call = .ok i :=
  ⟨issuing (encode aRead) State.reset, 0, [], { ClientState.reset with prog := [encode aRead] }, encode aRead, [], aRead,
    by decide, by decide, by decide, by decide, rfl⟩
theorem witness_StepRunsTheDecodedOperation_goes_on :
    ∃ (s : State) (c : Nat) (rest : List Nat) (m : ClientState) (i : Instr),
      s.pick = some (c, rest) ∧ s.clients[c]? = some m ∧ m.op = some i :=
  ⟨inside aRead 0 0#32 State.reset, 0, [], { ClientState.reset with op := some aRead }, aRead, by decide, by decide,
    by decide⟩
theorem witness_TurnsGoToClientsWithAStep :
    ∃ (s : State) (c : Nat) (rest : List Nat),
      s.env.turns = c :: rest ∧ s.canMove c = true ∧ s.pick = some (c, rest) :=
  ⟨{ inside aRead 0 0#32 State.reset with env := { State.reset.env with turns := [0, 1] } }, 0, [1], by decide, by decide,
    by decide⟩
theorem witness_OperationStartsWithItsEvent :
    ∃ (i : Instr) (s : State), isBusOp i = false ∧ i.wellFormed = true ∧ s.Between :=
  ⟨.readPin 53, State.reset, rfl, by decide, reset_between⟩
theorem witness_OperandsOutsideTheirDomainAreRefused : ∃ (i : Instr) (s : State), i.wellFormed = false ∧ s.Between :=
  ⟨.busRead 127 0#8 0, State.reset, by decide, reset_between⟩
theorem witness_PinsOutsideTheRangeAreRefused_below : ∃ (p : Int) (s : State), (p < 0 ∨ 54 ≤ p) ∧ s.Between :=
  ⟨-1, State.reset, by decide, reset_between⟩
theorem witness_PinsOutsideTheRangeAreRefused_above : ∃ (p : Int) (s : State), (p < 0 ∨ 54 ≤ p) ∧ s.Between :=
  ⟨54, State.reset, by decide, reset_between⟩
theorem witness_WideDeviceAddressIsRefusedNotMasked : ∃ (d : Nat) (s : State), 128 ≤ d ∧ s.Between :=
  ⟨128, State.reset, by decide, reset_between⟩
theorem witness_WideFieldValueIsRefusedNotMasked :
    ∃ (lsb w : Nat) (v : Word) (s : State), 1 ≤ w ∧ lsb + w ≤ 32 ∧ 2 ^ w ≤ v.toNat ∧ s.Between :=
  ⟨29, 3, 8#32, State.reset, by decide, by decide, by decide, reset_between⟩
theorem witness_ReadStepReturnsWhatTheBlockWrote :
    ∃ (i : Instr) (k : WindowKind) (o : Nat) (x : Word) (s : State),
      readOf i = some (k, o) ∧ s.InOp i 0 x ∧ s.Readable k o ∧ s.par.device = .loose ∧ regClass k o = .store ∧
        s.stored k o = some 0x1249#32 ∧ s.env.answers = [7#32] :=
  ⟨.readWord .gpio 0, .gpio, 0, 0#32,
    inside (.readWord .gpio 0) 0 0#32
      (answering [7#32] { mapped with dev := { mapped.dev with gpioStore := [(0, 0x1249#32)] } }),
    rfl, inside_inOp _ _ _ rfl, ⟨rfl, by decide, by decide⟩, rfl, rfl, rfl, rfl⟩
theorem witness_ReadStepReturnsWhatTheBlockWrote_reference :
    ∃ (i : Instr) (o : Nat) (x : Word) (s : State),
      readOf i = some (.bsc, o) ∧ s.InOp i 0 x ∧ s.Readable .bsc o ∧ s.par.device = .reference :=
  ⟨.readWord .bsc 4, 4, 0#32, inside (.readWord .bsc 4) 0 0#32 (reference mapped), rfl, inside_inOp _ _ _ rfl,
    ⟨rfl, by decide, fun _ => .inl rfl⟩, rfl⟩
theorem witness_WriteStepStoresExactlyItsWord :
    ∃ (i : Instr) (n : Nat) (k : WindowKind) (o : Nat) (v x : Word) (s : State),
      writeOf s.par n x i = some (k, o, v) ∧ s.InOp i n x ∧ s.Writable k o :=
  ⟨.enablePullups 1#32, 5, .gpio, 38, 0#32, 0#32, inside (.enablePullups 1#32) 5 0#32 mapped, rfl, inside_inOp _ _ _ rfl,
    ⟨rfl, by decide, by decide⟩, by decide⟩
theorem witness_DelayStepOnlySettlesThePull :
    ∃ (i : Instr) (n us : Nat) (x : Word) (s : State), delayOf n i = some us ∧ s.InOp i n x :=
  ⟨.enablePullups 1#32, 3, 10, 0#32, inside (.enablePullups 1#32) 3 0#32 mapped, rfl, inside_inOp _ _ _ rfl⟩
theorem witness_CompletionReturnsTheResult :
    ∃ (i : Instr) (n : Nat) (x : Word) (r : Result) (s : State), resultOf n x i = some r ∧ s.InOp i n x :=
  ⟨.getField .gpio 0 31 1, 1, 5#32, .ok (.word 0#32), inside (.getField .gpio 0 31 1) 1 5#32 mapped, by decide,
    inside_inOp _ _ _ rfl⟩
theorem witness_OperationAloneLeavesItsTrace :
    ∃ (i : Instr) (s : State), isBusOp i = false ∧ (∀ k, i ≠ .map k ∧ i ≠ .unmap k) ∧ i.wellFormed = true ∧ s.Between ∧
      ∀ k o, registerOf i = some (k, o) → s.Readable k o ∧ (writes i = true → regClass k o ≠ .reserved) := by
  refine ⟨.setBits .gpio 38 1#32, mapped, rfl, by simp, by decide, mapped_between, fun k o h => ?_⟩
  obtain ⟨rfl, rfl⟩ : WindowKind.gpio = k ∧ 38 = o := by simpa [registerOf] using h
  exact ⟨⟨rfl, by decide, by decide⟩, by decide⟩
theorem nextAccess_inside {i : Instr} {n : Nat} {x : Word} {k : WindowKind} {o : Nat} {d : Dir} {s : State} (h : s.cur = 0)
    (ha : accessOf s.par n x i = some (k, o, d)) : NextAccess (inside i n x s) i k o d := .inl ⟨n, x, inside_inOp _ _ _ h, ha⟩
theorem witness_FailedAccessCheckStopsTheClient_unmapped :
    ∃ (i : Instr) (k : WindowKind) (o : Nat) (d : Dir) (s : State), NextAccess s i k o d ∧ (s.window k).mapped = false :=
  ⟨.readWord .bsc 0, .bsc, 0, .read, inside (.readWord .bsc 0) 0 0#32 State.reset, nextAccess_inside rfl rfl, rfl⟩
/-- The first access of a bus operation, its window unmapped since. -/
theorem witness_FailedAccessCheckStopsTheClient_engine :
    ∃ (i : Instr) (o : Nat) (d : Dir) (s : State),
      isBusOp i = true ∧ NextAccess s i .bsc o d ∧ (s.window .bsc).mapped = false :=
  ⟨aWrite, 3, .write, busAt aWrite .wA State.reset, rfl, .inr ⟨rfl, busAt_holds _ _ rfl, rfl, rfl⟩, rfl⟩
theorem witness_FailedAccessCheckStopsTheClient_range :
    ∃ (i : Instr) (k : WindowKind) (o : Nat) (d : Dir) (s : State),
      NextAccess s i k o d ∧ (s.window k).mapped = true ∧ (s.window k).size ≤ o :=
  ⟨.getField .bsc 8 0 1, .bsc, 8, .read, inside (.getField .bsc 8 0 1) 0 0#32 mapped, nextAccess_inside rfl rfl, rfl,
    by decide⟩
theorem witness_FailedAccessCheckStopsTheClient_conflict :
    ∃ (i : Instr) (o : Nat) (d : Dir) (s : State),
      NextAccess s i .bsc o d ∧ (s.window .bsc).mapped = true ∧ o < (s.window .bsc).size ∧ s.eng.phase ≠ .idle ∧
        s.eng.owner ≠ some s.cur :=
  ⟨.readWord .bsc 7, 7, .read,
    inside (.readWord .bsc 7) 0 0#32 { mapped with eng := { Engine.reset with phase := .wA, owner := some 1 } },
    nextAccess_inside rfl rfl, rfl, by decide, by decide, by decide⟩
/-- The second access of a read-modify-write. -/
theorem witness_FailedAccessCheckStopsTheClient_reserved :
    ∃ (i : Instr) (k : WindowKind) (o : Nat) (s : State),
      NextAccess s i k o .write ∧ s.Readable k o ∧ regClass k o = .reserved :=
  ⟨.setBits .gpio 43 1#32, .gpio, 43, inside (.setBits .gpio 43 1#32) 1 0#32 mapped, nextAccess_inside rfl rfl,
    ⟨rfl, by decide, by decide⟩, by decide⟩
theorem witness_FaultsAndRefusalsArePrecise :
    ∃ (i : Instr) (s t : State), exec i s = .next t ∧ ∃ m, t.clients[s.cur]? = some m ∧ m.stopped ≠ none := by
  obtain ⟨t, ht, hp⟩ := exists_next (o := exec (.readWord .gpio 0) (inside (.readWord .gpio 0) 0 0#32 State.reset))
    (p := fun t => (t.clients[0]?).any fun m => m.stopped.isSome) (by decide)
  refine ⟨_, _, t, ht, ?_⟩
  obtain ⟨m, hm, hs⟩ := (Option.any_eq_true _ _).1 hp
  exact ⟨m, hm, by intro e; simp [e] at hs⟩
theorem witness_EveryAccessPassedItsCheck :
    ∃ (s t : State) (c : Nat) (k : WindowKind) (o : Nat) (d : Dir) (v : Word),
      step s = .next t ∧ t.hist = s.hist ++ [.access c k o d v] := by
  obtain ⟨t, ht, hp⟩ := exists_next (o := step (inside (.writeWord .bsc 3 1#32) 0 0#32 mapped))
    (p := fun t => decide (t.hist = [.access 0 .bsc 3 .write 1#32])) (by decide)
  exact ⟨_, t, 0, .bsc, 3, .write, 1#32, ht, of_decide_eq_true hp⟩
theorem witness_GrantedMapMakesAFreshWindow :
    ∃ (k : WindowKind) (n : Nat) (x : Word) (s : State),
      s.InOp (.map k) n x ∧ (s.window k).mapped = false ∧ s.mapAnswer k = true :=
  ⟨.bsc, 0, 0#32, granting true (inside (.map .bsc) 0 0#32 State.reset), inside_inOp _ _ _ rfl, rfl, rfl⟩
theorem witness_MapErrorChangesNothing_mapped :
    ∃ (k : WindowKind) (n : Nat) (x : Word) (s : State), s.InOp (.map k) n x ∧ (s.window k).mapped = true :=
  ⟨.bsc, 0, 0#32, inside (.map .bsc) 0 0#32 mapped, inside_inOp _ _ _ rfl, rfl⟩
theorem witness_MapErrorChangesNothing_refused :
    ∃ (k : WindowKind) (n : Nat) (x : Word) (s : State), s.InOp (.map k) n x ∧ s.mapAnswer k = false :=
  ⟨.bsc, 0, 0#32, granting false (inside (.map .bsc) 0 0#32 State.reset), inside_inOp _ _ _ rfl, rfl⟩
theorem alone {i : Instr} {s : State} (h : s.cur = 0) (d : Nat) (m : ClientState) (j : Instr) (hd : d ≠ 0)
    (hm : (inside i 0 0#32 s).clients[d]? = some m) (hj : m.op = some j) : s.cur = d := by
  match d with
  | 0 => exact h
  | 1 =>
    simp [inside] at hm
    simp [← hm, ClientState.reset] at hj
  | d + 2 => simp [inside] at hm
theorem witness_UnmapEndsTheWindowOnly :
    ∃ (k : WindowKind) (n : Nat) (x : Word) (s : State),
      s.InOp (.unmap k) n x ∧ (s.window k).mapped = true ∧
        (∀ d m i, d ≠ s.cur → s.clients[d]? = some m → m.op = some i → touches i k = false) ∧
        (k = .bsc → s.eng.phase = .idle) :=
  ⟨.bsc, 0, 0#32, inside (.unmap .bsc) 0 0#32 mapped, inside_inOp _ _ _ rfl, rfl,
    fun d m i hd hm hi => absurd (alone (s := mapped) rfl d m i hd hm hi) (fun e => hd e.symm), fun _ => rfl⟩
theorem witness_UnmapFaultsWhileTheSpanIsInUse_unmapped :
    ∃ (k : WindowKind) (n : Nat) (x : Word) (s : State), s.InOp (.unmap k) n x ∧ (s.window k).mapped = false :=
  ⟨.gpio, 0, 0#32, inside (.unmap .gpio) 0 0#32 State.reset, inside_inOp _ _ _ rfl, rfl⟩
theorem witness_UnmapFaultsWhileTheSpanIsInUse_other :
    ∃ (k : WindowKind) (n : Nat) (x : Word) (s : State),
      s.InOp (.unmap k) n x ∧ (s.window k).mapped = true ∧
        ∃ d m i, d ≠ s.cur ∧ s.clients[d]? = some m ∧ m.op = some i ∧ touches i k = true :=
  ⟨.gpio, 0, 0#32, besides (.readPin 0) (inside (.unmap .gpio) 0 0#32 mapped),
    ⟨{ ClientState.reset with op := some (.unmap .gpio) }, rfl, rfl, rfl, rfl, rfl⟩, rfl, 1,
    { ClientState.reset with op := some (.readPin 0) }, .readPin 0, by decide, rfl, rfl, by decide⟩
theorem witness_UnmapFaultsWhileTheSpanIsInUse_engine :
    ∃ (n : Nat) (x : Word) (s : State),
      s.InOp (.unmap .bsc) n x ∧ (s.window .bsc).mapped = true ∧
        (∀ d m i, d ≠ s.cur → s.clients[d]? = some m → m.op = some i → touches i .bsc = false) ∧ s.eng.phase ≠ .idle :=
  ⟨0, 0#32, { inside (.unmap .bsc) 0 0#32 mapped with eng := { Engine.reset with phase := .wA, owner := some 1 } },
    inside_inOp _ _ _ rfl, rfl,
    fun d m i hd hm hi => absurd (alone (s := mapped) rfl d m i hd hm hi) (fun e => hd e.symm), by decide⟩
theorem witness_LowLevelReadsAsPressed : ∃ (p : Nat) (x : Word) (s : State), p < 54 ∧ s.InOp (.readPin p) 1 x :=
  ⟨53, 0#32, inside (.readPin 53) 1 0#32 mapped, by decide, inside_inOp _ _ _ rfl⟩
/-- The handshake state vector G9 leaves. -/
theorem witness_EnablePullupsPullsUpExactlyTheMask :
    ∃ (m : Word) (s : State), s.Between ∧ s.win.gpio.mapped = true ∧ s.win.gpio.size = 44 ∧
      (∀ c q a b, s.dev.pud ≠ .clk c q a b) ∧ s.dev.pud = .sel (some 0#2) false ∧ m ≠ 0#32 ∧ 31 < s.dev.pull.length :=
  ⟨0x80000000#32, { mapped with dev := { mapped.dev with pud := .sel (some 0#2) false } }, mapped_between, rfl, rfl,
    by simp, rfl, by decide, by decide⟩
theorem witness_PullRegistersMoveTheHandshake_select :
    ∃ (i : Instr) (n : Nat) (v x : Word) (s : State),
      s.InOp i n x ∧ writeOf s.par n x i = some (.gpio, 37, v) ∧ s.Writable .gpio 37 :=
  ⟨.setBits .gpio 37 1#32, 1, 3#32, 2#32, inside (.setBits .gpio 37 1#32) 1 2#32 mapped, inside_inOp _ _ _ rfl, rfl,
    ⟨rfl, by decide, by decide⟩, by decide⟩
theorem witness_PullRegistersMoveTheHandshake_mask :
    ∃ (i : Instr) (n : Nat) (v x : Word) (s : State),
      s.InOp i n x ∧ writeOf s.par n x i = some (.gpio, 38, v) ∧ s.Writable .gpio 38 ∧ 53 < s.dev.pull.length :=
  ⟨.clearBits .gpio 38 1#32, 1, 0#32, 1#32, inside (.clearBits .gpio 38 1#32) 1 1#32 mapped, inside_inOp _ _ _ rfl, rfl,
    ⟨⟨rfl, by decide, by decide⟩, by decide⟩, by decide⟩
theorem witness_PullChangesOnlyAtALatch : ∃ s t : State, step s = .next t ∧ t.dev.pull ≠ s.dev.pull := by
  obtain ⟨t, ht, hp⟩ := exists_next
    (o := step
      { inside (.writeWord .gpio 38 0#32) 0 0#32 mapped with
        dev := { DeviceState.reset with pud := .clk (some 2#2) 1#32 true true } })
    (p := fun t => decide (t.dev.pull ≠ DeviceState.reset.pull)) (by decide)
  exact ⟨_, t, ht, of_decide_eq_true hp⟩
theorem witness_BusWriteStartClaimsTheEngine :
    ∃ (d : Nat) (buf : List Byte) (s : State), d < 128 ∧ buf.length ≤ 15 ∧ s.Between ∧ s.Claimable :=
  ⟨127, List.replicate 15 1#8, State.reset, by decide, by decide, reset_between, reset_claimable⟩
theorem witness_BusReadStartClaimsTheEngine :
    ∃ (d len : Nat) (s : State), d < 128 ∧ 1 ≤ len ∧ len ≤ 65535 ∧ s.Between ∧ s.Claimable :=
  ⟨127, 65535, State.reset, by decide, by decide, by decide, reset_between, reset_claimable⟩
theorem witness_LongPayloadReturnsPayloadTooLarge :
    ∃ (d : Nat) (buf : List Byte) (s : State), d < 128 ∧ 16 ≤ buf.length ∧ buf.length ≤ 65535 ∧ s.Between ∧ s.Claimable :=
  ⟨0, List.replicate 16 1#8, State.reset, by decide, by decide, by decide, reset_between, reset_claimable⟩
theorem witness_LongPayloadReturnsPayloadTooLarge_boundary :
    ∃ (d : Nat) (buf : List Byte) (s : State), d < 128 ∧ buf.length = 15 ∧ s.Between ∧ s.Claimable :=
  ⟨0, List.replicate 15 1#8, State.reset, by decide, by decide, reset_between, reset_claimable⟩
theorem witness_LongPayloadReturnsPayloadTooLarge_enters :
    ∃ (i : Instr) (s t : State), exec i s = .next t ∧ t.eng.phase = .endErr ∧ s.eng.phase ≠ .endErr := by
  obtain ⟨t, ht, hp⟩ := exists_next (o := exec (.busWrite 0 0#8 (List.replicate 16 1#8)) State.reset)
    (p := fun t => decide (t.eng.phase = .endErr)) (by decide)
  exact ⟨_, _, t, ht, of_decide_eq_true hp, by decide⟩
theorem witness_LongPayloadReturnsPayloadTooLarge_returns :
    ∃ (i : Instr) (s t : State), exec i s = .next t ∧ t.hist = s.hist ++ [.done s.cur i (.err .payloadTooLarge)] := by
  obtain ⟨t, ht, hp⟩ := exists_next (o := exec aWrite (busAt aWrite .endErr mapped))
    (p := fun t => decide (t.hist = [.done 0 aWrite (.err .payloadTooLarge)])) (by decide)
  exact ⟨_, _, t, ht, of_decide_eq_true hp⟩
theorem witness_OverlappingBusOperationFaults :
    ∃ (i : Instr) (s : State), isBusOp i = true ∧ i.wellFormed = true ∧ s.Between ∧ ¬ s.Claimable :=
  ⟨aRead, { State.reset with eng := { Engine.reset with phase := .wA, owner := some 1 } }, rfl, by decide,
    ⟨_, rfl, rfl, rfl⟩, fun h => by simpa using h.1⟩
/-- The engine is idle, and client 1 reads a BSC register. -/
theorem witness_OverlappingBusOperationFaults_window :
    ∃ (i : Instr) (s : State), isBusOp i = true ∧ i.wellFormed = true ∧ s.Between ∧ ¬ s.Claimable ∧ s.eng.phase = .idle :=
  ⟨aRead, besides (.readWord .bsc 0) State.reset, rfl, by decide, ⟨_, rfl, rfl, rfl⟩,
    fun h => h.2 1 { ClientState.reset with op := some (.readWord .bsc 0) } (.readWord .bsc 0) (by decide) rfl rfl rfl, rfl⟩
theorem witness_EngineWritePhasesFollowTheTable :
    ∃ (i : Instr) (o : Nat) (v : Word) (e : Engine) (s : State),
      isBusOp i = true ∧ s.Holds i ∧ s.BscMapped ∧ engineWrite s.eng = some (o, v, e) :=
  ⟨aWrite, 4, 0xFF#32, _, busAt aWrite (.wFifo 1) mapped, rfl, busAt_holds _ _ rfl, ⟨rfl, rfl⟩, rfl⟩
theorem witness_PollSamplesOnceOrAborts_samples :
    ∃ (i : Instr) (s : State), isBusOp i = true ∧ s.Holds i ∧ s.BscMapped ∧ (∃ v p, afterPoll s.eng v = some p) ∧
      s.eng.polls ≠ s.par.pollBudget :=
  ⟨aRead, busAt aRead .rCpoll mapped, rfl, busAt_holds _ _ rfl, ⟨rfl, rfl⟩, ⟨0#32, _, rfl⟩, by decide⟩
theorem witness_PollSamplesOnceOrAborts_aborts :
    ∃ (i : Instr) (s : State), isBusOp i = true ∧ s.Holds i ∧ s.BscMapped ∧ (∃ v p, afterPoll s.eng v = some p) ∧
      s.eng.polls = s.par.pollBudget :=
  ⟨aRead, { busAt aRead .rCpoll mapped with par := { Params.reset with pollBudget := 0 } }, rfl, busAt_holds _ _ rfl,
    ⟨rfl, rfl⟩, ⟨0#32, _, rfl⟩, by decide⟩
theorem witness_PopStoresTheNextByte :
    ∃ (i : Instr) (p : Phase) (s : State), isBusOp i = true ∧ s.Holds i ∧ s.BscMapped ∧ afterPop s.eng.phase = some p :=
  ⟨aRead, .rFpoll, busAt aRead .rFfifo mapped, rfl, busAt_holds _ _ rfl, ⟨rfl, rfl⟩, rfl⟩
theorem witness_PopStoresTheNextByte_scripted :
    ∃ (p : Phase) (s : State) (a : Word) (more : List Word), s.Holds aRead ∧ s.BscMapped ∧ afterPop s.eng.phase = some p ∧
      s.par.device = .loose ∧ s.env.answers = a :: more :=
  ⟨.rFpoll, answering [0xAA#32] (busAt aRead .rFfifo mapped), 0xAA#32, [],
    ⟨rfl, { ClientState.reset with op := some aRead }, rfl, rfl, rfl⟩, ⟨rfl, rfl⟩, rfl, rfl, rfl⟩
theorem witness_PollSamplesOnceOrAborts_reference :
    ∃ s : State, s.Holds aRead ∧ s.BscMapped ∧ (∃ v p, afterPoll s.eng v = some p) ∧ s.eng.polls ≠ s.par.pollBudget ∧
      s.par.device = .reference :=
  ⟨reference (busAt aRead .rCpoll mapped), ⟨rfl, { ClientState.reset with op := some aRead }, rfl, rfl, rfl⟩, ⟨rfl, rfl⟩,
    ⟨0#32, _, rfl⟩, by decide, rfl⟩
theorem witness_BusCompletionReleasesTheEngine_write :
    ∃ (i : Instr) (r : Result) (s : State), isBusOp i = true ∧ s.Holds i ∧ endResult s.eng = some r :=
  ⟨aWrite, .ok (.word 0#32), busAt aWrite .endOk mapped, rfl, busAt_holds _ _ rfl, rfl⟩
theorem witness_BusCompletionReleasesTheEngine_read :
    ∃ (i : Instr) (r : Result) (s : State), isBusOp i = true ∧ s.Holds i ∧ endResult s.eng = some r :=
  ⟨aRead, .ok (.bytes [0#8, 0#8] 0 0#32), busAt aRead .endOk mapped, rfl, busAt_holds _ _ rfl, rfl⟩
theorem witness_EngineWritesOnlyItsControlWords :
    ∃ (i : Instr) (s t : State), isBusOp i = true ∧ exec i s = .next t ∧
      t.hist = s.hist ++ [.access s.cur .bsc 0 .write 0x8080#32] := by
  obtain ⟨t, ht, hp⟩ := exists_next (o := exec aWrite (busAt aWrite .wGo mapped))
    (p := fun t => decide (t.hist = [.access 0 .bsc 0 .write 0x8080#32])) (by decide)
  exact ⟨_, _, t, rfl, ht, of_decide_eq_true hp⟩
theorem witness_NoFifoWriteAfterTheStart :
    ∃ (i : Instr) (s t : State), isBusOp i = true ∧ ¬ s.Between ∧ s.eng.phase.started = true ∧ exec i s = .next t := by
  obtain ⟨t, ht, -⟩ := exists_next (o := exec aRead (busAt aRead .rGo mapped)) (p := fun _ => true) (by decide)
  refine ⟨_, _, t, rfl, ?_, rfl, ht⟩
  rintro ⟨m, hm, -, ho⟩
  simp [busAt, inside, mapped, State.reset] at hm
  simp [← hm] at ho
theorem witness_step_next : ∃ s t : State, step s = .next t ∧ s.refused = true ∧
    ∃ m, s.clients[1]? = some m ∧ m.stopped ≠ none := by
  obtain ⟨t, ht, -⟩ := exists_next
    (o := step
      { State.reset with
        refused := true
        clients := [{ ClientState.reset with prog := [encode aRead] },
          { ClientState.reset with stopped := some (.refuse .badPin) }] }) (p := fun _ => true) (by decide)
  exact ⟨_, t, ht, rfl, _, rfl, by decide⟩
theorem mapped_places : mapped.PlacesInv :=
  ⟨by decide, by decide, by decide, by decide, by decide, by decide, by decide, by decide⟩
theorem witness_EveryWordAddressIsAligned : ∃ s : State, s.PlacesInv := ⟨mapped, mapped_places⟩
theorem reset_device : DeviceState.reset.Inv :=
  ⟨by decide, by decide, by decide, by decide, by decide, by decide, by decide, by decide, by decide⟩

/-- With an idle engine as at reset, no fault, no client stopped and none in a bus operation, the invariant holds. -/
theorem idle_inv {s : State} (hp : s.PlacesInv) (hd : s.dev.Inv) (he : s.eng = Engine.reset) (hf : s.faults = [])
    (hc : ∀ m ∈ s.clients, m.op.any isBusOp = false ∧ m.stopped = none ∧ (m.op = none → m.step = 0 ∧ m.val = 0#32)) :
    s.Inv := by
  refine ⟨hp, hd, ?_, ?_, ?_, fun m hm ho => (hc m hm).2.2 ho, ?_, ?_, ?_⟩
  · constructor <;> simp [he, Engine.reset, Phase.readOnly, Phase.writing]
  · simp [he, Engine.reset]
  · intro c m i hm hi hb
    have := (hc m (List.mem_of_getElem? hm)).1
    simp [hi, hb] at this
  · simp [hf]
  · intro c m code info hm hs
    simp [(hc m (List.mem_of_getElem? hm)).2.1] at hs
  · intro m hm r hs
    simp [(hc m hm).2.1] at hs

/-- A client about to issue a bus read: a state of the invariant from which the machine has a step. -/
def ready : State := issuing (encode aRead) mapped
theorem ready_inv : ready.Inv :=
  idle_inv ⟨by decide, by decide, by decide, by decide, by decide, by decide, by decide, by decide⟩ reset_device rfl rfl
    (by decide)
theorem witness_EveryStepKeepsTheInvariant : ∃ s t : State, s.Inv ∧ s.BufferHoldsPops ∧ step s = .next t := by
  obtain ⟨t, ht, -⟩ := exists_next (o := step ready) (p := fun _ => true) (by decide)
  exact ⟨ready, t, ready_inv, fun c h => by simp [ready, issuing, mapped, State.reset, Engine.reset] at h, ht⟩
/-- Client 0 at the end of a successful write, its last sample with `DONE`. -/
def wrote : State := { busAt aWrite .endOk mapped with eng := { (busAt aWrite .endOk mapped).eng with s := 0x52#32 } }
theorem busAt_clients {i : Instr} {s : State} (hs : s.clients = [{ ClientState.reset with op := some i }, ClientState.reset])
    (ho : s.eng.owner = some 0) (hf : s.faults = []) (hserve : s.eng.Serves i) : s.ClientsInv := by
  refine ⟨fun c hc => ?_, fun c m j hm hj hb _ => ?_, fun m hm hn => ?_, by simp [hf], fun c m code info hm h => ?_,
    fun m hm r h => ?_⟩
  · obtain rfl : 0 = c := by simpa [ho] using hc
    exact ⟨{ ClientState.reset with op := some i }, i, by simp [hs], rfl, hserve⟩
  · match c with
    | 0 => exact ho
    | 1 =>
      simp [hs] at hm
      simp [← hm, ClientState.reset] at hj
    | c + 2 => simp [hs] at hm
  · simp only [hs, List.mem_cons, List.not_mem_nil, or_false] at hm
    rcases hm with rfl | rfl
    · simp at hn
    · exact ⟨rfl, rfl⟩
  · have := List.mem_of_getElem? hm
    simp only [hs, List.mem_cons, List.not_mem_nil, or_false] at this
    rcases this with rfl | rfl <;> simp [ClientState.reset] at h
  · simp only [hs, List.mem_cons, List.not_mem_nil, or_false] at hm
    rcases hm with rfl | rfl <;> simp [ClientState.reset] at h
theorem wrote_inv : wrote.Inv := by
  refine ⟨⟨by decide, by decide, by decide, by decide, by decide, by decide, by decide, by decide⟩, reset_device, ?_,
    busAt_clients (i := aWrite) rfl rfl rfl ⟨rfl, rfl, rfl, rfl⟩⟩
  refine ⟨by decide, by decide, by decide, by decide, by decide, fun j _ => ?_, by decide, by decide, by decide, by decide,
    by decide, ?_, by decide, by decide, by decide, by decide⟩
  · rcases j with _ | _ | j <;> rfl
  · intro j h
    simp [wrote, busAt] at h
theorem witness_BusCompletionReleasesTheEngine_sample :
    ∃ (s : State) (r : Result), s.Holds aWrite ∧ endResult s.eng = some r ∧ s.Inv :=
  ⟨wrote, .ok (.word 0x52#32), ⟨rfl, { ClientState.reset with op := some aWrite }, rfl, rfl, rfl⟩, rfl, wrote_inv⟩
theorem witness_BlockWritesZeroToReservedBits :
    ∃ (i : Instr) (s t : State) (v : Word), s.Inv ∧ s.par.reservedBits = .zero ∧ exec i s = .next t ∧
      t.hist = s.hist ++ [.access s.cur .gpio 5 .write v] ∧ choosesBits i = false ∧ reservedBit .gpio 5 12 = true := by
  obtain ⟨t, ht, hp⟩ := exists_next
    (o := exec (.configureAsInput 53) (inside (.configureAsInput 53) 1 0xFFFFFFFF#32 mapped))
    (p := fun t => decide (t.hist = [.access 0 .gpio 5 .write 0x1FF#32])) (by decide)
  refine ⟨_, _, t, 0x1FF#32, idle_inv ?_ reset_device rfl rfl (by decide), rfl, ht, of_decide_eq_true hp, rfl, rfl⟩
  exact ⟨by decide, by decide, by decide, by decide, by decide, by decide, by decide, by decide⟩
/-- Client 0 about to be told that its window is mapped already. -/
theorem witness_ErrorsAndFaultsCarryTheirCodes_error :
    ∃ s t : State, s.Inv ∧ step s = .next t ∧ t.hist = s.hist ++ [.done 0 (.map .gpio) (.err .mapError)] := by
  obtain ⟨t, ht, hp⟩ := exists_next (o := step (inside (.map .gpio) 0 0#32 mapped))
    (p := fun t => decide (t.hist = [.done 0 (.map .gpio) (.err .mapError)])) (by decide)
  refine ⟨_, t, idle_inv ?_ reset_device rfl rfl (by decide), ht, of_decide_eq_true hp⟩
  exact ⟨by decide, by decide, by decide, by decide, by decide, by decide, by decide, by decide⟩
theorem witness_ErrorsAndFaultsCarryTheirCodes_fault :
    ∃ s t : State, s.Inv ∧ step s = .next t ∧ t.faults = s.faults ++ [⟨0, .windowNotMapped, .window .gpio⟩] := by
  obtain ⟨t, ht, hp⟩ := exists_next (o := step (inside (.unmap .gpio) 0 0#32 State.reset))
    (p := fun t => decide (t.faults = [⟨0, .windowNotMapped, .window .gpio⟩])) (by decide)
  refine ⟨_, t, idle_inv ?_ reset_device rfl rfl (by decide), ht, of_decide_eq_true hp⟩
  exact ⟨by decide, by decide, by decide, by decide, by decide, by decide, by decide, by decide⟩
theorem witness_operations_alone : State.reset.Between := reset_between
theorem witness_ReferenceControllerTakesRegisterWrites :
    ∃ v : Word, v.getLsbD 15 = true ∧ v.getLsbD 7 = true ∧ v.getLsbD 4 = true := ⟨0x8091#32, by decide⟩
/-- An ACK target at address 0, latched by the controller. -/
def busy (rd : Bool) (tx rx : List Byte) (mode : TargetMode) : BscRef :=
  { BscRef.reset with ta := true, rd := rd, rem := 1, txq := tx, rxq := rx, tgt := [(0, ⟨[], 0xFF#8, mode⟩)] }
theorem witness_ReferenceTargetFollowsItsPointer_read :
    ∃ (b : BscRef) (t : Target), b.ta = true ∧ Cells.get? b.tgt b.cur.toNat = some t ∧ t.mode = .ack ∧
      Memory.wf t.regs ∧ b.rd = true ∧ b.rxq.length < 16 :=
  ⟨busy true [] (List.replicate 15 1#8) .ack, ⟨[], 0xFF#8, .ack⟩, rfl, rfl, rfl, by decide, rfl, by decide⟩
theorem witness_ReferenceTargetFollowsItsPointer_first :
    ∃ (b : BscRef) (t : Target) (x : Byte) (rest : List Byte), b.ta = true ∧
      Cells.get? b.tgt b.cur.toNat = some t ∧ t.mode = .ack ∧ Memory.wf t.regs ∧ b.rd = false ∧ b.txq = x :: rest ∧
      b.first = true :=
  ⟨{ busy false [0x12#8, 7#8] [] .ack with first := true, rem := 2 }, ⟨[], 0xFF#8, .ack⟩, 0x12#8, [7#8], rfl, rfl, rfl,
    by decide, rfl, rfl, rfl⟩
theorem witness_ReferenceTargetFollowsItsPointer_later :
    ∃ (b : BscRef) (t : Target) (x : Byte) (rest : List Byte), b.ta = true ∧
      Cells.get? b.tgt b.cur.toNat = some t ∧ t.mode = .ack ∧ Memory.wf t.regs ∧ b.rd = false ∧ b.txq = x :: rest ∧
      b.first = false :=
  ⟨busy false [7#8] [] .ack, ⟨[], 0xFF#8, .ack⟩, 7#8, [], rfl, rfl, rfl, by decide, rfl, rfl, rfl⟩
theorem witness_ReferenceByteStepWithoutAnAck :
    (BscRef.reset.ta = false) ∧
      (({ BscRef.reset with ta := true } : BscRef).ta = true ∧
        Cells.get? ({ BscRef.reset with ta := true } : BscRef).tgt 0 = none) ∧
      (∀ mode, ∃ t, Cells.get? (busy false [] [] mode).tgt (busy false [] [] mode).cur.toNat = some t ∧ t.mode = mode) ∧
      (busy true [] (List.replicate 16 1#8) .ack).rxq.length = 16 :=
  ⟨rfl, ⟨rfl, rfl⟩, fun _ => ⟨_, rfl, rfl⟩, by decide⟩
theorem witness_TargetMemoryReadsBackWrites : ∃ m : Memory, Memory.wf m ∧ m ≠ [] := ⟨[(3, 1#8), (255, 2#8)], by decide⟩

end Sys2Proof.Tests
end

section
/-! SUPPORT. Everything a step of one operation does, as one shared update of the state; and the principle that carries
a property through every step of the machine. -/

namespace Sys2Proof.Machine

/-- What a completion step did before `Done`: nothing, a question the platform answered, a granted map, or an unmap
(40_register_window.md R201, R203). -/
inductive CompletionBody (s : State) : State → Prop where
  | nothing : CompletionBody s s
  | asked : CompletionBody s s.mapAsked
  | granted (k : WindowKind) : CompletionBody s (s.mapAsked.mapWindow k)
  | unmapped (k : WindowKind) : CompletionBody s (s.setWindow k { s.window k with mapped := false })

theorem CompletionBody.eng {s u : State} (h : CompletionBody s u) : u.eng = s.eng := by
  cases h <;> simp
theorem CompletionBody.cur {s u : State} (h : CompletionBody s u) : u.cur = s.cur := by
  cases h <;> simp
theorem CompletionBody.clients {s u : State} (h : CompletionBody s u) : u.clients = s.clients := by
  cases h <;> simp
theorem CompletionBody.faults {s u : State} (h : CompletionBody s u) : u.faults = s.faults := by
  cases h <;> simp
theorem CompletionBody.refused {s u : State} (h : CompletionBody s u) : u.refused = s.refused := by
  cases h <;> simp

/-- The engine after a register access of operation `i`: a window or GPIO operation leaves it alone, and its owner moves
it within one bus call. -/
inductive EngineAfter (i : Instr) (s : State) (e : Engine) : Prop where
  | untouched (hb : isBusOp i = false) (he : e = s.eng)
  | sameCall (hb : isBusOp i = true) (ho : s.eng.owner = some s.cur) (hp : s.eng.phase ≠ .endErr)
      (hc : s.eng.SameCall e)

/-- What one step of operation `i` can do, by the update it makes (10_state.md R54). -/
inductive Move (i : Instr) (s t : State) : Prop where
  | start (hs : s.Between) (hb : isBusOp i = false) (ht : t = s.started i)
  | startStop (x : Stop) (hs : s.Between) (ht : t = (s.started i).stop x)
  | claim (hs : s.Between) (hb : isBusOp i = true) (hc : operandCheck i = none) (he : s.Claimable)
      (ht : t = { s.started i with eng := { setUpOf i s.eng with owner := some s.cur } })
  | stop (x : Stop) {n : Nat} {v : Word} (hs : s.InOp i n v) (ht : t = s.stop x)
  | read (k : WindowKind) (o : Nat) (e : Engine) {n : Nat} {v : Word} (hs : s.InOp i n v) (hr : s.Readable k o)
      (he : EngineAfter i s e) (ht : t = { s.readAccess k o with eng := e })
  | write (k : WindowKind) (o : Nat) (w : Word) (e : Engine) {n : Nat} {v : Word} (hs : s.InOp i n v)
      (hw : s.Writable k o) (he : EngineAfter i s e) (ht : t = { s.writeAccess k o w with eng := e })
  | delay (us : Nat) {n : Nat} {v : Word} (hs : s.InOp i n v) (ht : t = s.delay us)
  | complete (u : State) (r : Result) {n : Nat} {v : Word} (hs : s.InOp i n v) (hb : isBusOp i = false)
      (hu : CompletionBody s u) (ht : t = u.complete i r)
  | release (r : Result) {n : Nat} {v : Word} (hs : s.InOp i n v) (hb : isBusOp i = true)
      (ho : s.eng.owner = some s.cur) (ht : t = s.finishBus i r)

theorem Move.of_startOf (i : Instr) {s : State} (hs : s.Between) : Move i s (s.startOf i) := by
  rcases s.startOf_cases i with ⟨r, -, ht⟩ | ⟨-, -, ht⟩ | ⟨hb, hc, he, ht⟩ | ⟨hb, -, ht⟩
  · exact .startStop _ hs ht
  · exact .startStop _ hs ht
  · exact .claim hs hb hc he ht
  · exact .start hs hb ht

theorem Move.of_perform {i : Instr} {s : State} {n : Nat} {v : Word} (hs : s.InOp i n v) (hb : isBusOp i = false)
    (a : Act) : Move i s (s.perform i a) := by
  rcases s.perform_cases i a with ⟨x, ht⟩ | ⟨k, o, -, hr, ht⟩ | ⟨k, o, w, -, hw, ht⟩ | ⟨us, -, ht⟩ | ⟨r, -, ht⟩
  · exact .stop x hs ht
  · exact .read k o (s.readAccess k o).eng hs hr (.untouched hb (by simp)) ht
  · exact .write k o w s.eng hs hw (.untouched hb rfl) ht
  · exact .delay us hs ht
  · exact .complete s r hs hb .nothing ht

theorem Move.of_mapBody {i : Instr} {s : State} {n : Nat} {v : Word} (hs : s.InOp i n v) (hb : isBusOp i = false)
    (k : WindowKind) : Move i s (s.mapBody i k) := by
  rcases s.mapBody_cases i k with ⟨-, ht⟩ | ⟨-, -, ht⟩ | ⟨-, -, ht⟩
  · exact .complete _ _ hs hb .nothing ht
  · exact .complete _ _ hs hb (.granted k) ht
  · exact .complete _ _ hs hb .asked ht

theorem Move.of_unmapBody {i : Instr} {s : State} {n : Nat} {v : Word} (hs : s.InOp i n v) (hb : isBusOp i = false)
    (k : WindowKind) : Move i s (s.unmapBody i k) := by
  rcases s.unmapBody_cases i k with ⟨x, ht⟩ | ⟨-, -, -, ht⟩
  · exact .stop x hs ht
  · exact .complete _ _ hs hb (.unmapped k) ht

theorem Move.of_engineStep {i : Instr} {s t : State} {n : Nat} {v : Word} (hs : s.InOp i n v) (hb : isBusOp i = true)
    (ho : s.eng.owner = some s.cur) (ht : s.engineStep i = some t) : Move i s t := by
  cases State.engineStep_cases ht with
  | stop x ht => exact .stop x hs ht
  | read o e _ hr he hp ht => exact .read .bsc o e hs hr (.sameCall hb ho hp he) ht
  | write o w e hw he hp ht => exact .write .bsc o w e hs hw (.sameCall hb ho hp he) ht
  | finish r ht => exact .release r hs hb ho ht

/-- Every step of an operation is such a move. -/
theorem exec_move {i : Instr} {s t : State} (h : exec i s = .next t) : Move i s t := by
  rcases exec_next h with ⟨hs, rfl⟩ | ⟨m, hm, hstop, hop, hgo⟩
  · exact .of_startOf i hs
  · have hs : s.InOp i m.step m.val := ⟨m, hm, hstop, hop, rfl, rfl⟩
    cases hgo with
    | script a hb _ _ ht => exact ht ▸ .of_perform hs hb a
    | map k hi ht => exact ht ▸ .of_mapBody hs (by simp [hi, isBusOp]) k
    | unmap k hi ht => exact ht ▸ .of_unmapBody hs (by simp [hi, isBusOp]) k
    | bus hb ho ht => exact .of_engineStep hs hb ho ht

/-- A property is kept by every step of the machine when it is kept by the choice of the turn, by taking a call from the
acting client's program, by every step of an operation, and by the refusal of a call that spells none. -/
theorem step_keeps {P : State → Prop} (turn : ∀ s c rest, P s → P (s.turnTo c rest))
    (take : ∀ s calls, s.Between → P s → P (s.updMe fun m => { m with prog := calls }))
    (run : ∀ i s t, P s → exec i s = .next t → P t)
    (bad : ∀ s, s.Between → P s → P (s.stop (.refuse .badSelector)))
    {s t : State} (hs : P s) (h : step s = .next t) : P t := by
  obtain ⟨c, rest, m, hp, hm, hcase⟩ := step_next h
  have hturn : P (s.turnTo c rest) := turn s c rest hs
  rcases hcase with ⟨i, -, hx⟩ | ⟨call, calls, hop, -, hcall⟩
  · exact run i _ t hturn hx
  · have hstop : m.stopped = none := by
      have hmove := pick_canMove hp
      simp [State.canMove, hm, ClientState.canStep] at hmove
      exact hmove.1
    have hbetween : (s.turnTo c rest).Between := ⟨m, hm, hstop, hop⟩
    have htake := take _ calls hbetween hturn
    rcases hcall with ⟨i, -, hx⟩ | ⟨-, rfl⟩
    · exact run i _ t htake hx
    · exact bad _ ⟨_, getElem?_modify_self _ hm, hstop, hop⟩ htake

end Sys2Proof.Machine
end

section
/-! SUPPORT. What no step moves: the parameters, the windows' places, the harness's inputs and the number of clients
(10_state.md R43; 20_memory.md R112; 41_gpio_fields.md R265). -/

namespace Sys2Proof.Machine

/-- `t` has the parameters, window places, harness inputs and number of clients of `s`. -/
structure State.SamePlaces (s t : State) : Prop where
  par : t.par = s.par
  base : ∀ k, (t.window k).base = (s.window k).base
  size : ∀ k, (t.window k).size = (s.window k).size
  levels : t.dev.levels = s.dev.levels
  gpioStart : t.dev.gpioStart = s.dev.gpioStart
  clients : t.clients.length = s.clients.length

theorem State.SamePlaces.refl (s : State) : s.SamePlaces s :=
  ⟨rfl, fun _ => rfl, fun _ => rfl, rfl, rfl, rfl⟩

theorem State.SamePlaces.trans {s t u : State} (h : s.SamePlaces t) (g : t.SamePlaces u) : s.SamePlaces u :=
  ⟨g.par.trans h.par, fun k => (g.base k).trans (h.base k), fun k => (g.size k).trans (h.size k),
    g.levels.trans h.levels, g.gpioStart.trans h.gpioStart, g.clients.trans h.clients⟩

/-- An update that touches neither the windows nor the harness's inputs keeps the places. -/
theorem State.SamePlaces.of_win {s t : State} (hpar : t.par = s.par) (hwin : t.win = s.win)
    (hlev : t.dev.levels = s.dev.levels) (hstart : t.dev.gpioStart = s.dev.gpioStart)
    (hlen : t.clients.length = s.clients.length) : s.SamePlaces t :=
  ⟨hpar, fun k => by rw [State.window_congr hwin], fun k => by rw [State.window_congr hwin], hlev, hstart, hlen⟩

@[simp] theorem DeviceState.forget_levels (d : DeviceState) (k : WindowKind) : (d.forget k).levels = d.levels := by
  cases k <;> rfl
@[simp] theorem DeviceState.forget_gpioStart (d : DeviceState) (k : WindowKind) :
    (d.forget k).gpioStart = d.gpioStart := by
  cases k <;> rfl

@[simp] theorem State.deviceRead_levels (s : State) (k : WindowKind) (o : Nat) :
    (s.deviceRead k o).2.dev.levels = s.dev.levels := by
  rcases s.deviceRead_dev k o with h | ⟨-, -, h⟩ <;> simp [h]
@[simp] theorem State.deviceRead_gpioStart (s : State) (k : WindowKind) (o : Nat) :
    (s.deviceRead k o).2.dev.gpioStart = s.dev.gpioStart := by
  rcases s.deviceRead_dev k o with h | ⟨-, -, h⟩ <;> simp [h]

/-- Replacing a slot by one of the same place keeps the places. -/
theorem State.samePlaces_setWindow (s : State) (k : WindowKind) {w : Window} (hb : w.base = (s.window k).base)
    (hs : w.size = (s.window k).size) : s.SamePlaces (s.setWindow k w) := by
  refine ⟨by simp, fun k' => ?_, fun k' => ?_, by simp, by simp, by simp⟩ <;> by_cases hk : k' = k
  · simp [hk, hb]
  · rw [State.window_setWindow_other s w hk]
  · simp [hk, hs]
  · rw [State.window_setWindow_other s w hk]

theorem State.samePlaces_mapAsked (s : State) : s.SamePlaces s.mapAsked :=
  .of_win rfl rfl rfl rfl rfl

theorem State.window_mapWindow (s : State) (k k' : WindowKind) :
    (s.mapWindow k).window k' =
      (s.setWindow k { s.window k with mapped := true, gen := (s.window k).gen + 1 }).window k' := by
  cases k <;> cases k' <;> rfl

theorem State.samePlaces_mapWindow (s : State) (k : WindowKind) : s.SamePlaces (s.mapWindow k) := by
  have h := s.samePlaces_setWindow k (w := { s.window k with mapped := true, gen := (s.window k).gen + 1 }) rfl rfl
  refine ⟨by simp, fun k' => ?_, fun k' => ?_, by simp, by simp, by simp⟩ <;> rw [State.window_mapWindow]
  · exact h.base k'
  · exact h.size k'

theorem CompletionBody.samePlaces {s u : State} (h : CompletionBody s u) : s.SamePlaces u := by
  cases h with
  | nothing => exact .refl s
  | asked => exact s.samePlaces_mapAsked
  | granted k => exact s.samePlaces_mapAsked.trans (s.mapAsked.samePlaces_mapWindow k)
  | unmapped k => exact s.samePlaces_setWindow k rfl rfl

theorem State.samePlaces_complete (s : State) (i : Instr) (r : Result) : s.SamePlaces (s.complete i r) :=
  .of_win rfl rfl rfl rfl (by simp)

theorem State.samePlaces_stop (s : State) (x : Stop) : s.SamePlaces (s.stop x) :=
  .of_win (by simp) (by simp) (by simp) (by simp) (by simp)

theorem Move.samePlaces {i : Instr} {s t : State} (h : Move i s t) : s.SamePlaces t := by
  cases h with
  | start _ _ ht => exact ht ▸ .of_win rfl rfl rfl rfl (by simp)
  | startStop x _ ht => exact ht ▸ .of_win (by simp) (by simp) (by simp) (by simp) (by simp)
  | claim _ _ _ _ ht => exact ht ▸ .of_win rfl rfl rfl rfl (by simp)
  | stop x _ ht => exact ht ▸ s.samePlaces_stop x
  | read k o e _ _ _ ht => exact ht ▸ .of_win (by simp) (by simp) (by simp) (by simp) (by simp)
  | write k o w e _ _ _ ht => exact ht ▸ .of_win rfl rfl (by simp) (by simp) (by simp)
  | delay us _ ht => exact ht ▸ .of_win rfl rfl rfl rfl (by simp)
  | complete u r _ _ hu ht => exact ht ▸ hu.samePlaces.trans (u.samePlaces_complete i r)
  | release r _ _ _ ht => exact ht ▸ .of_win rfl rfl rfl rfl (by simp)

theorem step_samePlaces {s t : State} (h : step s = .next t) : s.SamePlaces t := by
  refine step_keeps (P := s.SamePlaces) ?turn ?take ?run ?bad (.refl s) h
  case turn => exact fun u c rest hu => hu.trans (.of_win rfl rfl rfl rfl rfl)
  case take => exact fun u calls _ hu => hu.trans (.of_win rfl rfl rfl rfl (by simp))
  case run => exact fun i u v hu hx => hu.trans (exec_move hx).samePlaces
  case bad => exact fun u _ hu => hu.trans (u.samePlaces_stop _)

/-- The places' part of the invariant speaks of nothing a step moves. -/
theorem State.PlacesInv.of_samePlaces {s t : State} (h : s.PlacesInv) (hst : s.SamePlaces t) : t.PlacesInv where
  gpio_base := by rw [hst.par]; exact (hst.base .gpio).trans h.gpio_base
  gpio_size := (hst.size .gpio).trans h.gpio_size
  bsc_base := by rw [hst.par]; exact (hst.base .bsc).trans h.bsc_base
  bsc_size := (hst.size .bsc).trans h.bsc_size
  some_client := by
    rw [← List.length_pos_iff, hst.clients, List.length_pos_iff]
    exact h.some_client
  base_aligned := by rw [hst.par]; exact h.base_aligned
  budget := by rw [hst.par]; exact h.budget
  rdm_rate := by rw [hst.par]; exact h.rdm_rate

/-- A sum of aligned words is aligned, also where it wraps at 2^32. -/
theorem toNat_add_aligned {a b : Word} (ha : a.toNat % 4 = 0) (hb : b.toNat % 4 = 0) : (a + b).toNat % 4 = 0 := by
  rw [BitVec.toNat_add]
  omega

theorem State.PlacesInv.window_base_aligned {s : State} (h : s.PlacesInv) (k : WindowKind) :
    (s.window k).base.toNat % 4 = 0 := by
  cases k with
  | gpio =>
    rw [show (s.window .gpio).base = s.par.periBase + Config.gpioOffset from h.gpio_base]
    exact toNat_add_aligned h.base_aligned rfl
  | bsc =>
    rw [show (s.window .bsc).base = s.par.periBase + Config.bscOffset from h.bsc_base]
    exact toNat_add_aligned h.base_aligned rfl

/-- Settles O43: every update a step is made of keeps the places (`step_samePlaces`). -/
theorem placesAndParametersStayFixed : Obligations.PlacesAndParametersStayFixed := by
  intro s t h
  have hst := step_samePlaces h
  exact ⟨hst.par, fun k => ⟨hst.base k, hst.size k⟩, hst.levels, hst.gpioStart⟩

/-- Settles O44: a word's address is an aligned base (`PERI_BASE` and both offsets are aligned) and four times its
offset. -/
theorem everyWordAddressIsAligned : Obligations.EveryWordAddressIsAligned := by
  intro s k o h
  have hb := h.window_base_aligned k
  unfold Window.addr
  omega

end Sys2Proof.Machine
end

section
/-! SUPPORT. Every step keeps the device record in canonical form (10_state.md R61, R63, R65; 42_bus_engine.md R320). -/

namespace Sys2Proof.Machine

theorem DeviceState.Inv.bsc_wf {d : DeviceState} (h : d.Inv) : d.bsc.Wf :=
  ⟨h.tx_fits, h.rx_fits, h.targets_rising, h.targets_wf⟩

/-- With the written words and the number of pins kept, only the controller's form is left to show. -/
theorem DeviceState.Inv.of_same_words {d d' : DeviceState} (h : d.Inv) (hg : d'.gpioStore = d.gpioStore)
    (hb : d'.bscStore = d.bscStore) (hp : d'.pull.length = d.pull.length) (hc : d'.bsc.Wf) : d'.Inv where
  gpio_rising := hg ▸ h.gpio_rising
  bsc_rising := hb ▸ h.bsc_rising
  gpio_stored := hg ▸ h.gpio_stored
  bsc_stored := hb ▸ h.bsc_stored
  pull_length := hp.trans h.pull_length
  tx_fits := hc.tx_fits
  rx_fits := hc.rx_fits
  targets_rising := hc.rising
  targets_wf := hc.regs_wf

theorem DeviceState.Inv.deviceRead {s : State} (h : s.dev.Inv) (k : WindowKind) (o : Nat) :
    (s.deviceRead k o).2.dev.Inv := by
  rcases s.deviceRead_dev k o with hd | ⟨-, -, hd⟩ <;> rw [hd]
  · exact h
  · exact h.of_same_words rfl rfl rfl (h.bsc_wf.read _ _)

@[simp] theorem DeviceState.act_pull_length (d : DeviceState) (cfg : DeviceConfig) (k : WindowKind) (o : Nat)
    (v : Word) : (d.act cfg k o v).pull.length = d.pull.length := by
  by_cases hk : k = .gpio ∧ o = offGppudclk0
  · obtain ⟨rfl, rfl⟩ := hk
    exact d.writeMask_pull_length v
  · rw [d.act_pull cfg k o v hk]

theorem BscRef.Wf.act {d : DeviceState} (h : d.bsc.Wf) (cfg : DeviceConfig) (k : WindowKind) (o : Nat) (v : Word) :
    (d.act cfg k o v).bsc.Wf := by
  by_cases hk : cfg = .loose ∨ k = .gpio
  · rw [d.act_bsc cfg k o v hk]
    exact h
  · cases cfg <;> cases k <;> simp at hk
    exact h.write o v

theorem DeviceState.Inv.act {d : DeviceState} (h : d.Inv) (cfg : DeviceConfig) (k : WindowKind) (o : Nat) (v : Word) :
    (d.act cfg k o v).Inv :=
  h.of_same_words (d.act_store cfg k .gpio o v) (d.act_store cfg k .bsc o v) (d.act_pull_length cfg k o v)
    (h.bsc_wf.act cfg k o v)

/-- A word put at a STORE register's offset keeps a store sorted and free of other registers' offsets. -/
theorem store_put {l : Store} {P : Nat → Prop} (hr : Rising l) (hl : ∀ c ∈ l, P c.1) {o : Nat} (ho : P o) (v : Word) :
    Rising (Cells.put l o v) ∧ ∀ c ∈ Cells.put l o v, P c.1 := by
  refine ⟨Cells.put_rising o v hr, fun c hc => ?_⟩
  rcases Cells.mem_put hc with rfl | hc
  · exact ho
  · exact hl c hc

theorem DeviceState.Inv.putStore {d : DeviceState} (h : d.Inv) {k : WindowKind} {o : Nat} (hk : regClass k o = .store)
    (v : Word) : (d.putStore k o v).Inv := by
  cases k with
  | gpio =>
    obtain ⟨hr, hs⟩ := store_put (P := fun o => gpioClass o = .store) h.gpio_rising h.gpio_stored hk v
    exact { h with gpio_rising := hr, gpio_stored := hs }
  | bsc =>
    obtain ⟨hr, hs⟩ := store_put (P := fun o => bscClass o = .store) h.bsc_rising h.bsc_stored hk v
    exact { h with bsc_rising := hr, bsc_stored := hs }

theorem DeviceState.Inv.keep {d : DeviceState} (h : d.Inv) (k : WindowKind) (o : Nat) (v : Word) :
    (d.keep k o v).Inv := by
  unfold DeviceState.keep
  split
  next hk => exact h.putStore hk v
  all_goals exact h

theorem DeviceState.Inv.settle {d : DeviceState} (h : d.Inv) (us : Nat) : (d.settle us).Inv :=
  h.of_same_words rfl rfl rfl h.bsc_wf

theorem DeviceState.Inv.forget {d : DeviceState} (h : d.Inv) (k : WindowKind) : (d.forget k).Inv := by
  cases k with
  | gpio => exact { h with gpio_rising := .nil, gpio_stored := by simp [DeviceState.forget], pull_length := rfl }
  | bsc => exact { h with bsc_rising := .nil, bsc_stored := by simp [DeviceState.forget] }

theorem CompletionBody.device_inv {s u : State} (h : CompletionBody s u) (hd : s.dev.Inv) : u.dev.Inv := by
  cases h with
  | nothing => exact hd
  | asked => exact hd
  | granted k => simpa using hd.forget k
  | unmapped k => simpa using hd

theorem Move.device_inv {i : Instr} {s t : State} (h : Move i s t) (hd : s.dev.Inv) : t.dev.Inv := by
  cases h with
  | start _ _ ht => exact ht ▸ hd
  | startStop x _ ht => simpa [ht] using hd
  | claim _ _ _ _ ht => exact ht ▸ hd
  | stop x _ ht => simpa [ht] using hd
  | read k o e _ _ _ ht => simpa [ht] using hd.deviceRead k o
  | write k o w e _ _ _ ht => simpa [ht] using (hd.act s.par.device k o w).keep k o w
  | delay us _ ht => simpa [ht] using hd.settle us
  | complete u r _ _ hu ht => simpa [ht] using hu.device_inv hd
  | release r _ _ _ ht => exact ht ▸ hd

end Sys2Proof.Machine
end

section
/-! SUPPORT. Every step keeps the engine record consistent (10_state.md R46 to R52). The invariant is told apart into
what holds in every phase and what one phase adds, so that a step has to show no more than what its new phase adds. -/

namespace Sys2Proof.Machine

/-- What holds of the engine record's fields in every phase. -/
structure Engine.Fits (e : Engine) (budget : Nat) : Prop where
  dev_fits : e.dev.toNat < 128
  payload_fits : e.wbuf.length ≤ 15
  buffer_length : e.rbuf.length = e.len.toNat
  idx_fits : e.idx ≤ e.len.toNat
  tail_zero : ∀ j, e.idx ≤ j → e.rbuf.getD j 0#8 = 0#8
  polls_fit : e.polls ≤ budget
  select_reads : e.sel = true → e.dir = .read ∧ e.wbuf = []

/-- What holds of the engine record beside that while it is in phase `p` of a transaction (42_bus_engine.md R284). -/
def Engine.AtPhase (e : Engine) : Phase → Prop
  | .idle => False
  | .wA | .wDlen | .wClr | .wGo | .wWait => e.dir = .read → e.idx = 0 ∧ e.sel = true
  | .wFifo i => (e.dir = .read → e.idx = 0 ∧ e.sel = true) ∧ i ≤ e.wbuf.length
  | .rDlen | .rClr | .rGo => e.dir = .read ∧ e.idx = 0
  | .rWait | .rCpoll | .rDpoll | .rFpoll => e.dir = .read
  | .rCfifo | .rFfifo => e.dir = .read ∧ e.wants e.s = true
  | .abC | .abS | .endTimeout | .endErr => True
  | .endOk => (e.dir = .write → flagDone e.s = true) ∧ (e.dir = .read → e.wants e.s = false)

theorem Engine.wants_iff (e : Engine) (v : Word) :
    e.wants v = true ↔ flagRxd v = true ∧ e.idx < e.len.toNat := by
  simp [Engine.wants]

theorem Engine.Inv.fits {e : Engine} {b : Nat} (h : e.Inv b) : e.Fits b :=
  ⟨h.dev_fits, h.payload_fits, h.buffer_length, h.idx_fits, h.tail_zero, h.polls_fit, h.select_reads⟩

/-- An engine in the invariant that has an owner satisfies what its phase adds. -/
theorem Engine.Inv.atPhase {e : Engine} {b : Nat} (h : e.Inv b) (ho : e.owner ≠ none) : e.AtPhase e.phase := by
  have hidle : e.phase ≠ .idle := fun hp => ho (h.idle_iff.1 hp)
  have hwrite : e.phase.writing = true → e.phase.beforeReceive = true → e.dir = .read → e.idx = 0 ∧ e.sel = true :=
    fun hw hb hd => ⟨h.idx_zero hd hb, h.select_set hd hw⟩
  have hpop : e.phase = .rCfifo ∨ e.phase = .rFfifo → e.wants e.s = true :=
    fun hp => (e.wants_iff _).2 ⟨h.pop_ready hp, h.pop_fits hp⟩
  have hread : e.phase.readOnly = true → e.phase.beforeReceive = true → e.dir = .read ∧ e.idx = 0 :=
    fun hr hb => ⟨h.receive_reads hr, h.idx_zero (h.receive_reads hr) hb⟩
  cases hp : e.phase with
  | idle => exact hidle hp
  | wA | wDlen | wClr | wGo | wWait => exact hwrite (by rw [hp]; rfl) (by rw [hp]; rfl)
  | wFifo i => exact ⟨hwrite (by rw [hp]; rfl) (by rw [hp]; rfl), h.fifo_index i hp⟩
  | rDlen | rClr | rGo => exact hread (by rw [hp]; rfl) (by rw [hp]; rfl)
  | rWait | rCpoll | rDpoll | rFpoll => exact h.receive_reads (by rw [hp]; rfl)
  | rCfifo => exact ⟨h.receive_reads (by rw [hp]; rfl), hpop (.inl hp)⟩
  | rFfifo => exact ⟨h.receive_reads (by rw [hp]; rfl), hpop (.inr hp)⟩
  | abC | abS | endTimeout | endErr => trivial
  | endOk => exact ⟨fun hd => h.write_done hd hp, fun hd => h.read_drained hd hp⟩

theorem Engine.AtPhase.reads {e : Engine} {p : Phase} (h : e.AtPhase p) (hp : p.readOnly = true) : e.dir = .read := by
  cases p with
  | rDlen | rClr | rGo | rCfifo | rFfifo => exact h.1
  | rWait | rCpoll | rDpoll | rFpoll => exact h
  | _ => contradiction

theorem Engine.AtPhase.idx_zero {e : Engine} {p : Phase} (h : e.AtPhase p) (hp : p.beforeReceive = true)
    (hd : e.dir = .read) : e.idx = 0 := by
  cases p with
  | wA | wDlen | wClr | wGo | wWait => exact (h hd).1
  | wFifo i => exact (h.1 hd).1
  | rDlen | rClr | rGo => exact h.2
  | _ => contradiction

theorem Engine.AtPhase.selects {e : Engine} {p : Phase} (h : e.AtPhase p) (hp : p.writing = true)
    (hd : e.dir = .read) : e.sel = true := by
  cases p with
  | wA | wDlen | wClr | wGo | wWait => exact (h hd).2
  | wFifo i => exact (h.1 hd).2
  | _ => contradiction

theorem Engine.AtPhase.pops {e : Engine} {p : Phase} (h : e.AtPhase p) (hp : p = .rCfifo ∨ p = .rFfifo) :
    flagRxd e.s = true ∧ e.idx < e.len.toNat := by
  rcases hp with rfl | rfl <;> exact (e.wants_iff _).1 h.2

/-- An owned engine whose fields fit and satisfy what its phase adds is in the invariant. -/
theorem Engine.Fits.inv {e : Engine} {b : Nat} (h : e.Fits b) (ho : e.owner ≠ none) (ha : e.AtPhase e.phase) :
    e.Inv b where
  dev_fits := h.dev_fits
  payload_fits := h.payload_fits
  buffer_length := h.buffer_length
  idx_fits := h.idx_fits
  tail_zero := h.tail_zero
  polls_fit := h.polls_fit
  select_reads := h.select_reads
  idle_iff := ⟨fun hp => by rw [hp] at ha; exact ha.elim, fun hn => absurd hn ho⟩
  pop_fits := fun hp => (ha.pops hp).2
  receive_reads := ha.reads
  idx_zero := fun hd hp => ha.idx_zero hp hd
  fifo_index := fun i hp => by rw [hp] at ha; exact ha.2
  pop_ready := fun hp => (ha.pops hp).1
  select_set := fun hd hp => ha.selects hp hd
  write_done := fun hd hp => by rw [hp] at ha; exact ha.1 hd
  read_drained := fun hd hp => by rw [hp] at ha; exact ha.2 hd

/-- A released engine is in the invariant. -/
theorem Engine.Fits.released {e : Engine} {b : Nat} (h : e.Fits b) :
    ({ e with phase := .idle, owner := none } : Engine).Inv b := by
  obtain ⟨hdev, hpay, hbuf, hidx, htail, hpolls, hsel⟩ := h
  constructor <;> simp_all [Phase.readOnly, Phase.beforeReceive, Phase.writing]

/-- Going to another phase of the transaction. -/
theorem Engine.Inv.setPhase {e : Engine} {b : Nat} (h : e.Inv b) (ho : e.owner ≠ none) {p : Phase} (ha : e.AtPhase p) :
    ({ e with phase := p } : Engine).Inv b :=
  Engine.Fits.inv { h.fits with } ho ha

end Sys2Proof.Machine
end

section
/-! SUPPORT. Every engine step and every claim keeps the engine record consistent (42_bus_engine.md R284). -/

namespace Sys2Proof.Machine

section EngineStep

variable {s : State} {b : Nat}

/-- A register write keeps the engine's invariant where what comes after it does: a stop leaves the engine alone. -/
theorem State.regWrite_inv (h : s.eng.Inv b) (o : Nat) (v : Word) {f : State → State}
    (hf : ∀ u : State, u.eng = s.eng → (f u).eng.Inv b) : (s.regWrite .bsc o v f).eng.Inv b := by
  rcases regWrite_cases s .bsc o v f with ⟨x, ht⟩ | ⟨-, ht⟩ <;> rw [ht]
  · simpa using h
  · exact hf _ (by simp)

/-- The same for a register read. -/
theorem State.regRead_inv (h : s.eng.Inv b) (o : Nat) {f : Word → State → State}
    (hf : ∀ (v : Word) (u : State), u.eng = s.eng → (f v u).eng.Inv b) : (s.regRead .bsc o f).eng.Inv b := by
  rcases regRead_cases s .bsc o f with ⟨x, ht⟩ | ⟨-, ht⟩ <;> rw [ht]
  · simpa using h
  · exact hf _ _ (by simp)

/-- A write that does no more than move the engine to phase `p`. -/
theorem State.regWrite_setPhase_inv (h : s.eng.Inv b) (ho : s.eng.owner ≠ none) (o : Nat) (v : Word) {p : Phase}
    (ha : s.eng.AtPhase p) : (s.regWrite .bsc o v fun t => t.setPhase p).eng.Inv b := by
  refine State.regWrite_inv h o v fun u hu => ?_
  rw [State.setPhase_eng, hu]
  exact h.setPhase ho ha

/-- A poll: the budget is not passed, and the phase's test is asked about the new sample only. -/
theorem State.poll_inv (h : s.eng.Inv s.par.pollBudget) (ho : s.eng.owner ≠ none) {test : Word → Phase}
    (ha : ∀ v, ({ s.eng with s := v } : Engine).AtPhase (test v)) : (s.poll test).eng.Inv s.par.pollBudget := by
  unfold State.poll
  split
  · exact State.regWrite_setPhase_inv h ho _ _ trivial
  · next hpolls =>
    refine State.regRead_inv h offS fun v u hu => ?_
    have hfit : s.eng.polls + 1 ≤ s.par.pollBudget := by have := h.polls_fit; omega
    dsimp only
    rw [hu]
    refine Engine.Fits.inv { h.fits with polls_fit := hfit } ho ?_
    dsimp only
    split
    · trivial
    · exact ha v

/-- A pop where data is wanted: the byte is stored at `idx`, and the zero tail begins after it. -/
theorem State.pop_inv (h : s.eng.Inv b) (ho : s.eng.owner ≠ none) {next : Phase} (hw : s.eng.idx < s.eng.len.toNat)
    (ha : ∀ e : Engine, e.dir = s.eng.dir → e.AtPhase next) : (s.pop next).eng.Inv b := by
  refine State.regRead_inv h offFifo fun v u hu => ?_
  dsimp only
  rw [hu]
  refine Engine.Fits.inv ?_ ho (ha _ rfl)
  refine { h.fits with buffer_length := ?_, idx_fits := hw, tail_zero := fun j hj => ?_, polls_fit := Nat.zero_le _ }
  · simpa using h.buffer_length
  · have hne : s.eng.idx ≠ j := by
      dsimp only at hj
      omega
    have htail := h.tail_zero j (by dsimp only at hj; omega)
    simpa [List.getElem?_set_ne hne] using htail

/-- Where a poll of `W_WAIT` may lead (42_bus_engine.md R284): only a read selects, so a select write goes to `R_DLEN` and
a plain write that showed `DONE` to `END_OK`. -/
theorem Engine.Fits.atPhase_wWait {e : Engine} (h : e.Fits b) (ha : e.AtPhase .wWait) (v : Word) :
    ({ e with s := v } : Engine).AtPhase
      (if flagDone v then (if e.sel then .rDlen else .endOk) else .wWait) := by
  split
  next hdone =>
    split
    next hsel => exact ⟨(h.select_reads hsel).1, (ha (h.select_reads hsel).1).1⟩
    next hsel => exact ⟨fun _ => hdone, fun hd => absurd (ha hd).2 hsel⟩
  next => exact ha

/-- Every phase hands on what the next one adds to the invariant. -/
theorem State.engineStep_inv {t : State} {i : Instr} (h : s.eng.Inv s.par.pollBudget) (ho : s.eng.owner ≠ none)
    (hx : s.engineStep i = some t) : t.eng.Inv s.par.pollBudget := by
  have ha := h.atPhase ho
  cases hp : s.eng.phase <;> rw [hp] at ha <;>
    simp only [State.engineStep, hp, Option.some.injEq, reduceCtorEq] at hx <;> subst hx
  case wA | wClr | rClr => exact State.regWrite_setPhase_inv h ho _ _ ha
  case abC | abS => exact State.regWrite_setPhase_inv h ho _ _ trivial
  case wDlen => exact State.regWrite_setPhase_inv h ho _ _ ⟨ha, Nat.zero_le _⟩
  case wFifo k =>
    refine State.regWrite_setPhase_inv h ho _ _ ?_
    split
    next hk => exact ⟨ha.1, hk⟩
    next => exact ha.1
  case wGo =>
    refine State.regWrite_inv h _ _ fun u hu => ?_
    dsimp only
    rw [hu]
    exact Engine.Fits.inv { h.fits with polls_fit := Nat.zero_le _ } ho ha
  case rDlen =>
    refine State.regWrite_inv h _ _ fun u hu => ?_
    dsimp only
    rw [hu]
    exact Engine.Fits.inv { h.fits with select_reads := fun hs => by contradiction } ho ha
  case rGo =>
    have htail : ∀ j, 0 ≤ j → s.eng.rbuf.getD j 0#8 = 0#8 := fun j hj => h.tail_zero j (ha.2 ▸ hj)
    refine State.regWrite_inv h _ _ fun u hu => ?_
    dsimp only
    rw [hu]
    exact Engine.Fits.inv
      { h.fits with idx_fits := Nat.zero_le _, tail_zero := htail, polls_fit := Nat.zero_le _ } ho ha.1
  case wWait => exact State.poll_inv h ho (h.fits.atPhase_wWait ha)
  case rWait | rDpoll =>
    refine State.poll_inv h ho fun v => ?_
    split <;> exact ha
  case rCpoll =>
    refine State.poll_inv h ho fun v => ?_
    split
    next hw => exact ⟨ha, hw⟩
    next => exact ha
  case rFpoll =>
    have hdir : s.eng.dir = .read := ha
    refine State.poll_inv h ho fun v => ?_
    split
    next hw => exact ⟨hdir, hw⟩
    next hw => exact ⟨fun hd => by simp [hdir] at hd, fun _ => Bool.eq_false_of_not_eq_true hw⟩
  case rCfifo | rFfifo => exact State.pop_inv h ho ((s.eng.wants_iff _).1 ha.2).2 fun e he => he.trans ha.1
  case endOk | endTimeout | endErr => exact h.fits.released

end EngineStep

/-- A device address that the operand check admits fits its byte (10_state.md R47). -/
theorem toNat_ofNat_dev {dev : Nat} (h : dev < 128) : (BitVec.ofNat 8 dev).toNat = dev :=
  Nat.mod_eq_of_lt (by omega)

/-- What an admitted bus operation sets up fits, whatever the engine did before (42_bus_engine.md R283). -/
theorem setUpOf_fits {i : Instr} (hb : isBusOp i = true) (hc : operandCheck i = none) {e : Engine} {b : Nat}
    (h : e.Fits b) : (setUpOf i e).Fits b := by
  cases i with
  | busWrite dev reg buf =>
    have hdev : (BitVec.ofNat 8 dev).toNat < 128 := by
      have hlt := ((checkBusWrite_none dev buf).1 hc).1
      rwa [toNat_ofNat_dev hlt]
    simp only [setUpOf, setUpWrite]
    split
    next => exact { h with }
    next hlen =>
      have hpay : buf.length ≤ 15 := by
        simp only [Config.fifoDepth] at hlen
        omega
      exact { h with dev_fits := hdev, payload_fits := hpay, select_reads := fun hs => by contradiction }
  | busRead dev reg len =>
    obtain ⟨hlt, -, hlen⟩ := (checkBusRead_none dev len).1 hc
    have hbuf : (List.replicate len 0#8).length = (BitVec.ofNat 16 len).toNat := by
      rw [List.length_replicate, BitVec.toNat_ofNat]
      omega
    have htail : ∀ j, (List.replicate len 0#8).getD j 0#8 = 0#8 := fun j => by
      rw [List.getD_eq_getElem?_getD, List.getElem?_replicate]
      split <;> rfl
    exact
      { h with
        dev_fits := by rwa [← toNat_ofNat_dev hlt] at hlt
        payload_fits := Nat.zero_le _
        buffer_length := hbuf
        idx_fits := Nat.zero_le _
        tail_zero := fun j _ => htail j
        select_reads := fun _ => ⟨rfl, rfl⟩ }
  | _ => contradiction

/-- A bus operation starts in `W_A`, or in `END_ERR` for a payload that does not fit (42_bus_engine.md R283). -/
theorem setUpOf_atPhase {i : Instr} (hb : isBusOp i = true) (e : Engine) :
    (setUpOf i e).AtPhase (setUpOf i e).phase := by
  cases i with
  | busWrite dev reg buf =>
    simp only [setUpOf, setUpWrite]
    split
    · trivial
    · exact fun hd => by contradiction
  | busRead dev reg len => exact fun _ => ⟨rfl, rfl⟩
  | _ => contradiction

/-- The claimed engine holds the operands of the operation that claimed it. -/
theorem setUpOf_serves {i : Instr} (hb : isBusOp i = true) (hc : operandCheck i = none) (e : Engine) (c : Option Nat) :
    ({ setUpOf i e with owner := c } : Engine).Serves i := by
  cases i with
  | busWrite dev reg buf =>
    have hdev := toNat_ofNat_dev ((checkBusWrite_none dev buf).1 hc).1
    simp only [Engine.Serves, setUpOf, setUpWrite, Config.fifoDepth]
    by_cases hlen : 16 < 1 + buf.length
    · simp only [if_pos hlen, if_true]
      omega
    · simp [hlen, hdev]
  | busRead dev reg len =>
    obtain ⟨hlt, -, hlen⟩ := (checkBusRead_none dev len).1 hc
    exact ⟨fun hp => by contradiction, rfl, toNat_ofNat_dev hlt, rfl, Nat.mod_eq_of_lt (by omega)⟩
  | _ => contradiction

/-- The engine is left alone by every step of a window or GPIO operation. -/
theorem Move.eng_of_not_bus {i : Instr} {s t : State} (h : Move i s t) (hb : isBusOp i = false) : t.eng = s.eng := by
  have hafter : ∀ {e : Engine}, EngineAfter i s e → e = s.eng := fun he => by
    cases he with
    | untouched _ he => exact he
    | sameCall hb' _ _ _ => simp [hb] at hb'
  cases h with
  | start _ _ ht => exact ht ▸ rfl
  | startStop x _ ht => simp [ht]
  | claim _ hb' _ _ _ => simp [hb] at hb'
  | stop x _ ht => simp [ht]
  | read k o e _ _ he ht => exact ht ▸ hafter he
  | write k o w e _ _ he ht => exact ht ▸ hafter he
  | delay us _ ht => exact ht ▸ rfl
  | complete u r _ _ hu ht => exact ht ▸ hu.eng
  | release r _ hb' _ _ => simp [hb] at hb'

/-- A step of a bus operation in progress is an engine step of the owner. -/
theorem GoesOn.engineStep {i : Instr} {s t : State} (h : GoesOn i s t) (hb : isBusOp i = true) :
    s.eng.owner = some s.cur ∧ s.engineStep i = some t := by
  cases h with
  | script a hb' _ _ _ => simp [hb] at hb'
  | map k hi _ => simp [hi, isBusOp] at hb
  | unmap k hi _ => simp [hi, isBusOp] at hb
  | bus _ ho ht => exact ⟨ho, ht⟩

theorem State.startOf_engine_inv {i : Instr} {s : State} {b : Nat} (h : s.eng.Inv b) : (s.startOf i).eng.Inv b := by
  rcases s.startOf_cases i with ⟨r, -, ht⟩ | ⟨-, -, ht⟩ | ⟨hb, hc, -, ht⟩ | ⟨-, -, ht⟩ <;> rw [ht]
  · simpa using h
  · simpa using h
  · exact Engine.Fits.inv { setUpOf_fits hb hc h.fits with } (by simp) (setUpOf_atPhase hb s.eng)
  · exact h

theorem exec_engine_inv {i : Instr} {s t : State} (hx : exec i s = .next t) (h : s.eng.Inv s.par.pollBudget) :
    t.eng.Inv s.par.pollBudget := by
  cases hb : isBusOp i with
  | false => rwa [(exec_move hx).eng_of_not_bus hb]
  | true =>
    rcases exec_next hx with ⟨-, rfl⟩ | ⟨m, -, -, -, hgo⟩
    · exact State.startOf_engine_inv h
    · obtain ⟨ho, ht⟩ := hgo.engineStep hb
      exact State.engineStep_inv h (by simp [ho]) ht

end Sys2Proof.Machine
end

section
/-! SUPPORT. Every step keeps clients, engine and the record of faults in agreement (10_state.md R53, R54, R68;
60_exceptions.md R345, R347): a step changes the acting client's record alone, so only that client has to be looked
at. -/

namespace Sys2Proof.Machine

/-- The fault records that a client stopped so leaves (60_exceptions.md R345). -/
def faultsOf (c : Nat) : Option Stop → List FaultRecord
  | some (.fault code info) => [⟨c, code, info⟩]
  | some (.refuse _) | none => []

/-- A stop that sets the refusal mark (60_exceptions.md R347). -/
def refuses : Option Stop → Bool
  | some (.refuse _) => true
  | some (.fault _ _) | none => false

theorem mem_faultsOf {c : Nat} {x : Option Stop} {f : FaultRecord} :
    f ∈ faultsOf c x ↔ f.client = c ∧ x = some (.fault f.code f.info) := by
  obtain ⟨c', code, info⟩ := f
  rcases x with _ | ⟨code', info'⟩ | r <;> simp [faultsOf, eq_comm]

theorem State.stop_faults (s : State) (x : Stop) : (s.stop x).faults = s.faults ++ faultsOf s.cur (some x) := by
  cases x <;> simp [State.stop, faultsOf]

theorem State.stop_refused (s : State) (x : Stop) : (s.stop x).refused = (s.refused || refuses (some x)) := by
  cases x <;> simp [State.stop, refuses]

/-- A step from `s` to `t` in which the acting client's record goes from `m` to `m'`, and what is recorded of faults and
refusals is what that client's stop gives. -/
structure ActingStep (s t : State) (m m' : ClientState) : Prop where
  before : s.clients[s.cur]? = some m
  running : m.stopped = none
  after : t.clients[s.cur]? = some m'
  others : ∀ d, d ≠ s.cur → t.clients[d]? = s.clients[d]?
  faults : t.faults = s.faults ++ faultsOf s.cur m'.stopped
  refused : t.refused = (s.refused || refuses m'.stopped)

theorem ActingStep.of_modify {s t : State} {m : ClientState} {f : ClientState → ClientState}
    (hm : s.clients[s.cur]? = some m) (hs : m.stopped = none) (hc : t.clients = s.clients.modify s.cur f)
    (hf : t.faults = s.faults ++ faultsOf s.cur (f m).stopped) (hr : t.refused = (s.refused || refuses (f m).stopped)) :
    ActingStep s t m (f m) where
  before := hm
  running := hs
  after := by rw [hc]; exact getElem?_modify_self f hm
  others := fun d hd => by rw [hc]; exact getElem?_modify_other f hd
  faults := hf
  refused := hr

/-- A change of the acting client's record that stops nobody. -/
theorem ActingStep.of_running {s t : State} {m : ClientState} {f : ClientState → ClientState}
    (hm : s.clients[s.cur]? = some m) (hs : m.stopped = none) (hc : t.clients = s.clients.modify s.cur f)
    (hf : t.faults = s.faults) (hr : t.refused = s.refused) (hkeep : (f m).stopped = m.stopped) :
    ActingStep s t m (f m) :=
  .of_modify hm hs hc (by simp [hf, hkeep, hs, faultsOf]) (by simp [hr, hkeep, hs, refuses])

/-- A stop of the acting client. -/
theorem ActingStep.of_stop {s : State} {m : ClientState} (hm : s.clients[s.cur]? = some m) (hs : m.stopped = none)
    (x : Stop) : ActingStep s (s.stop x) m { m with stopped := some x } :=
  .of_modify hm hs (s.stop_clients x) (s.stop_faults x) (s.stop_refused x)

/-- A stop in the start step. -/
theorem ActingStep.of_started_stop {s : State} {m : ClientState} (hm : s.clients[s.cur]? = some m)
    (hs : m.stopped = none) (i : Instr) (x : Stop) :
    ActingStep s ((s.started i).stop x) m { m with op := some i, step := 0, val := 0#32, stopped := some x } :=
  .of_modify (f := fun m => { m with op := some i, step := 0, val := 0#32, stopped := some x }) hm hs
    (by rw [State.stop_clients, State.started_clients]; exact modify_modify _ _ _ _)
    (by rw [State.stop_faults]; rfl) (by rw [State.stop_refused]; rfl)

/-- A client's record after the step is the acting client's new one, or another client's old one. -/
theorem ActingStep.lookup {s t : State} {m m' : ClientState} (a : ActingStep s t m m') {c : Nat} {n : ClientState}
    (h : t.clients[c]? = some n) : (c = s.cur ∧ n = m') ∨ (c ≠ s.cur ∧ s.clients[c]? = some n) := by
  by_cases hc : c = s.cur
  · refine .inl ⟨hc, ?_⟩
    rw [hc, a.after] at h
    exact (Option.some.inj h).symm
  · exact .inr ⟨hc, by rwa [a.others c hc] at h⟩

section ActingStep

variable {s t : State} {m m' : ClientState}

/-- Faults and refusals stay in agreement with the stopped clients: the acting client had not stopped before, so no old
record is about it. -/
theorem ActingStep.fault_stops (a : ActingStep s t m m') (h : s.ClientsInv) :
    ∀ f ∈ t.faults, ∃ n, t.clients[f.client]? = some n ∧ n.stopped = some (.fault f.code f.info) := by
  intro f hf
  rw [a.faults, List.mem_append] at hf
  rcases hf with hf | hf
  · obtain ⟨n, hn, hstop⟩ := h.fault_stops f hf
    have hc : f.client ≠ s.cur := fun hc => by
      rw [hc, a.before] at hn
      have hrun := a.running
      rw [Option.some.inj hn, hstop] at hrun
      contradiction
    exact ⟨n, (a.others _ hc).trans hn, hstop⟩
  · obtain ⟨hc, hstop⟩ := mem_faultsOf.1 hf
    exact ⟨m', by rw [hc]; exact a.after, hstop⟩

theorem ActingStep.stop_recorded (a : ActingStep s t m m') (h : s.ClientsInv) (c : Nat) (n : ClientState)
    (code : FaultCode) (info : FaultInfo) (hn : t.clients[c]? = some n) (hstop : n.stopped = some (.fault code info)) :
    ⟨c, code, info⟩ ∈ t.faults := by
  rw [a.faults, List.mem_append]
  rcases a.lookup hn with ⟨rfl, rfl⟩ | ⟨-, hn⟩
  · exact .inr (mem_faultsOf.2 ⟨rfl, hstop⟩)
  · exact .inl (h.stop_recorded c n code info hn hstop)

theorem ActingStep.refusal_marked (a : ActingStep s t m m') (h : s.ClientsInv) :
    ∀ n ∈ t.clients, ∀ r, n.stopped = some (.refuse r) → t.refused = true := by
  intro n hn r hstop
  obtain ⟨c, hc⟩ := List.mem_iff_getElem?.1 hn
  rw [a.refused]
  rcases a.lookup hc with ⟨rfl, rfl⟩ | ⟨-, hc⟩
  · simp [hstop, refuses]
  · simp [h.refusal_marked n (List.mem_of_getElem? hc) r hstop]

/-- The agreement is kept when the acting client's new record agrees with the new engine, and no other client's hold of
the engine changed. -/
theorem ActingStep.clientsInv (a : ActingStep s t m m') (h : s.ClientsInv)
    (hclear : m'.op = none → m'.step = 0 ∧ m'.val = 0#32)
    (hserve : t.eng.owner = some s.cur → ∃ i, m'.op = some i ∧ t.eng.Serves i)
    (hown : ∀ i, m'.op = some i → isBusOp i = true → m'.stopped = none → t.eng.owner = some s.cur)
    (hothers : t.eng = s.eng ∨ ∀ d, d ≠ s.cur → s.eng.owner ≠ some d ∧ t.eng.owner ≠ some d) : t.ClientsInv where
  owner_in_op := by
    intro c hc
    by_cases hcur : c = s.cur
    · subst hcur
      obtain ⟨i, hi, hserves⟩ := hserve hc
      exact ⟨m', i, a.after, hi, hserves⟩
    · rcases hothers with heng | hno
      · rw [heng] at hc ⊢
        rw [a.others c hcur]
        exact h.owner_in_op c hc
      · exact absurd hc (hno c hcur).2
  bus_op_owns := by
    intro c n i hn hi hb hstop
    rcases a.lookup hn with ⟨rfl, rfl⟩ | ⟨hcur, hn⟩
    · exact hown i hi hb hstop
    · have hc := h.bus_op_owns c n i hn hi hb hstop
      rcases hothers with heng | hno
      · rwa [heng]
      · exact absurd hc (hno c hcur).1
  between_clear := by
    intro n hn hop
    obtain ⟨c, hc⟩ := List.mem_iff_getElem?.1 hn
    rcases a.lookup hc with ⟨-, rfl⟩ | ⟨-, hc⟩
    · exact hclear hop
    · exact h.between_clear n (List.mem_of_getElem? hc) hop
  fault_stops := a.fault_stops h
  stop_recorded := a.stop_recorded h
  refusal_marked := a.refusal_marked h

/-- The engine's owner is in a bus operation. -/
theorem State.ClientsInv.owner_ne (h : s.ClientsInv) {c : Nat} (hm : s.clients[c]? = some m)
    (hb : ∀ i, m.op = some i → isBusOp i = false) : s.eng.owner ≠ some c := by
  intro ho
  obtain ⟨n, i, hn, hi, hserves⟩ := h.owner_in_op c ho
  obtain rfl : m = n := Option.some.inj (hm.symm.trans hn)
  have hbus := hserves.isBusOp
  simp [hb i hi] at hbus

/-- The engine's owner is in the operation it serves. -/
theorem State.ClientsInv.owner_serves (h : s.ClientsInv) {c : Nat} (ho : s.eng.owner = some c)
    (hm : s.clients[c]? = some m) : ∃ i, m.op = some i ∧ s.eng.Serves i := by
  obtain ⟨n, i, hn, hi, hserves⟩ := h.owner_in_op c ho
  obtain rfl : m = n := Option.some.inj (hm.symm.trans hn)
  exact ⟨i, hi, hserves⟩

/-- A step that leaves the engine alone, of a client that does not own it before or need it after. -/
theorem ActingStep.clientsInv_of_not_owner (a : ActingStep s t m m') (h : s.ClientsInv) (heng : t.eng = s.eng)
    (hclear : m'.op = none → m'.step = 0 ∧ m'.val = 0#32) (hm : ∀ i, m.op = some i → isBusOp i = false)
    (hm' : ∀ i, m'.op = some i → isBusOp i = false ∨ m'.stopped ≠ none) : t.ClientsInv := by
  refine a.clientsInv h hclear (fun ho => ?_) (fun i hi hb hstop => ?_) (.inl heng)
  · exact absurd (heng ▸ ho) (h.owner_ne a.before hm)
  · rcases hm' i hi with hn | hn
    · simp [hb] at hn
    · exact absurd hstop hn

/-- A step that leaves the engine alone and the acting client where it is: in its operation, or between operations. -/
theorem ActingStep.clientsInv_of_same_op (a : ActingStep s t m m') (h : s.ClientsInv) (heng : t.eng = s.eng)
    (hop : m'.op = m.op) (hkeep : m.op = none → m'.step = m.step ∧ m'.val = m.val) : t.ClientsInv := by
  refine a.clientsInv h (fun hn => ?_) (fun ho => ?_) (fun i hi hb _ => ?_) (.inl heng)
  · rw [hop] at hn
    rw [(hkeep hn).1, (hkeep hn).2]
    exact h.between_clear m (List.mem_of_getElem? a.before) hn
  · rw [heng] at ho ⊢
    rw [hop]
    exact h.owner_serves ho a.before
  · rw [heng]
    exact h.bus_op_owns s.cur m i a.before (hop ▸ hi) hb a.running

/-- A register access of the acting client's operation. -/
theorem ActingStep.clientsInv_of_access {i : Instr} (a : ActingStep s t m m') (h : s.ClientsInv) (hm : m.op = some i)
    (hop : m'.op = m.op) (he : EngineAfter i s t.eng) : t.ClientsInv := by
  cases he with
  | untouched _ heng => exact a.clientsInv_of_same_op h heng hop fun hn => by simp [hm] at hn
  | sameCall hb ho hp hc =>
    have ho' : t.eng.owner = some s.cur := hc.owner.trans ho
    refine a.clientsInv h (fun hn => ?_) (fun _ => ?_) (fun _ _ _ _ => ho') (.inr fun d hd => ?_)
    · simp [hop, hm] at hn
    · obtain ⟨j, hj, hserves⟩ := h.owner_serves ho a.before
      exact ⟨j, hop.trans hj, hc.serves hp hserves⟩
    · have hne : some s.cur ≠ some d := fun e => hd (Option.some.inj e).symm
      rw [ho, ho']
      exact ⟨hne, hne⟩

end ActingStep

theorem Move.clientsInv {i : Instr} {s t : State} {b : Nat} (hmove : Move i s t) (h : s.ClientsInv)
    (he : s.eng.Inv b) : t.ClientsInv := by
  have hother : ∀ {d : Nat}, d ≠ s.cur → some s.cur ≠ some d := fun hd e => hd (Option.some.inj e).symm
  cases hmove with
  | start hs hb ht =>
    obtain ⟨m, hm, hstop, hop⟩ := hs
    subst ht
    have a := ActingStep.of_running hm hstop (s.started_clients i) rfl rfl rfl
    exact a.clientsInv_of_not_owner h rfl (by simp) (by simp [hop]) (by simp [hb])
  | startStop x hs ht =>
    obtain ⟨m, hm, hstop, hop⟩ := hs
    subst ht
    have a := ActingStep.of_started_stop hm hstop i x
    exact a.clientsInv_of_not_owner h (by simp) (by simp) (by simp [hop]) (by simp)
  | claim hs hb hc hclaim ht =>
    obtain ⟨m, hm, hstop, hop⟩ := hs
    have hfree : s.eng.owner = none := he.idle_iff.1 hclaim.1
    have hserves := setUpOf_serves hb hc s.eng (some s.cur)
    subst ht
    have a := ActingStep.of_running (t := { s.started i with eng := { setUpOf i s.eng with owner := some s.cur } })
      hm hstop (s.started_clients i) rfl rfl rfl
    refine a.clientsInv h (by simp) (fun _ => ⟨i, rfl, hserves⟩) (fun _ _ _ _ => rfl) (.inr fun d hd => ?_)
    rw [hfree]
    exact ⟨by simp, hother hd⟩
  | stop x hs ht =>
    obtain ⟨m, hm, hstop, -, -, -⟩ := hs
    subst ht
    exact (ActingStep.of_stop hm hstop x).clientsInv_of_same_op h (by simp) rfl fun _ => ⟨rfl, rfl⟩
  | read k o e hs _ he ht =>
    obtain ⟨m, hm, hstop, hop, -, -⟩ := hs
    subst ht
    have a := ActingStep.of_running (t := { s.readAccess k o with eng := e }) hm hstop (s.readAccess_clients k o)
      (s.readAccess_faults k o) (s.readAccess_refused k o) rfl
    exact a.clientsInv_of_access h hop rfl he
  | write k o w e hs _ he ht =>
    obtain ⟨m, hm, hstop, hop, -, -⟩ := hs
    subst ht
    have a := ActingStep.of_running (t := { s.writeAccess k o w with eng := e }) hm hstop
      (s.writeAccess_clients k o w) rfl rfl rfl
    exact a.clientsInv_of_access h hop rfl he
  | delay us hs ht =>
    obtain ⟨m, hm, hstop, hop, -, -⟩ := hs
    subst ht
    have a := ActingStep.of_running hm hstop (s.delay_clients us) rfl rfl rfl
    exact a.clientsInv_of_same_op h rfl rfl (by simp [hop])
  | complete u r hs hb hu ht =>
    obtain ⟨m, hm, hstop, hop, -, -⟩ := hs
    subst ht
    have hclients := u.complete_clients i r
    rw [hu.clients, hu.cur] at hclients
    have a := ActingStep.of_running hm hstop hclients hu.faults hu.refused rfl
    exact a.clientsInv_of_not_owner h hu.eng (by simp) (by simp [hop, hb]) (by simp)
  | release r hs _ ho ht =>
    obtain ⟨m, hm, hstop, -, -, -⟩ := hs
    subst ht
    have a := ActingStep.of_running hm hstop (s.finishBus_clients i r) rfl rfl rfl
    refine a.clientsInv h (by simp) (by simp) (by simp) (.inr fun d hd => ?_)
    rw [ho]
    exact ⟨hother hd, by simp⟩

end Sys2Proof.Machine
end

section
/-! SUPPORT. Every step of the machine keeps its invariant. -/

namespace Sys2Proof.Machine

theorem exec_inv {i : Instr} {s t : State} (h : s.Inv) (hx : exec i s = .next t) : t.Inv := by
  have hmove := exec_move hx
  refine ⟨h.places.of_samePlaces hmove.samePlaces, hmove.device_inv h.device, ?_, hmove.clientsInv h.clients h.engine⟩
  rw [hmove.samePlaces.par]
  exact exec_engine_inv hx h.engine

/-- The choice of the turn is no part of the invariant. -/
theorem State.Inv.turnTo {s : State} (h : s.Inv) (c : Nat) (rest : List Nat) : (s.turnTo c rest).Inv where
  places := { h.places with }
  device := h.device
  engine := h.engine
  clients := { h.clients with }

/-- A client between operations takes the next call of its program. -/
theorem State.Inv.takeCall {s : State} (h : s.Inv) (hs : s.Between) (calls : List Call) :
    (s.updMe fun m => { m with prog := calls }).Inv := by
  obtain ⟨m, hm, hstop, -⟩ := hs
  have a := ActingStep.of_running hm hstop (s.updMe_clients fun m => { m with prog := calls }) rfl rfl rfl
  exact ⟨h.places.of_samePlaces (.of_win rfl rfl rfl rfl (by simp)), h.device, h.engine,
    a.clientsInv_of_same_op h.clients rfl rfl fun _ => ⟨rfl, rfl⟩⟩

/-- A client between operations is stopped. -/
theorem State.Inv.stop {s : State} (h : s.Inv) (hs : s.Between) (x : Stop) : (s.stop x).Inv := by
  obtain ⟨m, hm, hstop, -⟩ := hs
  have a := ActingStep.of_stop hm hstop x
  exact ⟨h.places.of_samePlaces (s.samePlaces_stop x), by simpa using h.device, by simpa using h.engine,
    a.clientsInv_of_same_op h.clients (by simp) rfl fun _ => ⟨rfl, rfl⟩⟩

/-- Settles O45: each of the invariant's four parts is kept by every move of an operation, the engine's part phase by
phase. -/
theorem everyStepKeepsTheInvariant : Obligations.EveryStepKeepsTheInvariant := by
  intro s t hs h
  refine step_keeps (P := State.Inv) ?turn ?take ?run ?bad hs h
  case turn => exact fun u c rest hu => hu.turnTo c rest
  case take => exact fun u calls hb hu => hu.takeCall hb calls
  case run => exact fun i u v hu hx => exec_inv hu hx
  case bad => exact fun u hb hu => hu.stop hb _

end Sys2Proof.Machine
end

section
/-! SUPPORT. What every step does to the clients and to the history, read off the move it makes: the acting client's
record alone changes, and at most one event of that client is appended (10_state.md R54, R67; 60_exceptions.md R344,
R345, R347). -/

namespace Sys2Proof.Machine

/-- The client an event is of (10_state.md R67). -/
def Event.client : Event → Nat
  | .access c _ _ _ _ => c
  | .delay c _ => c
  | .start c _ => c
  | .done c _ _ => c

/-! ### One operation's step -/

theorem Move.cur {i : Instr} {s t : State} (h : Move i s t) : t.cur = s.cur := by
  cases h with
  | start _ _ ht => exact ht ▸ rfl
  | startStop x _ ht => simp [ht]
  | claim _ _ _ _ ht => exact ht ▸ rfl
  | stop x _ ht => simp [ht]
  | read k o e _ _ _ ht => simp [ht]
  | write k o w e _ _ _ ht => exact ht ▸ rfl
  | delay us _ ht => exact ht ▸ rfl
  | complete u r _ _ hu ht => simp [ht, hu.cur]
  | release r _ _ _ ht => exact ht ▸ rfl

theorem CompletionBody.hist {s u : State} (h : CompletionBody s u) : u.hist = s.hist := by
  cases h <;> simp

/-- A move appends one event of the acting client, or stops that client and appends none. -/
theorem Move.hist {i : Instr} {s t : State} (h : Move i s t) :
    (∃ e : Event, e.client = s.cur ∧ t.hist = s.hist ++ [e]) ∨ ∃ x, t = s.stop x := by
  cases h with
  | start _ _ ht => exact .inl ⟨.start s.cur i, rfl, ht ▸ rfl⟩
  | startStop x _ ht => exact .inl ⟨.start s.cur i, rfl, by simp [ht]⟩
  | claim _ _ _ _ ht => exact .inl ⟨.start s.cur i, rfl, ht ▸ rfl⟩
  | stop x _ ht => exact .inr ⟨x, ht⟩
  | read k o e _ _ _ ht => exact .inl ⟨.access s.cur k o .read (s.deviceRead k o).1, rfl, by simp [ht]⟩
  | write k o w e _ _ _ ht => exact .inl ⟨.access s.cur k o .write w, rfl, ht ▸ rfl⟩
  | delay us _ ht => exact .inl ⟨.delay s.cur us, rfl, ht ▸ rfl⟩
  | complete u r _ _ hu ht => exact .inl ⟨.done s.cur i r, rfl, by simp [ht, hu.hist, hu.cur]⟩
  | release r _ _ _ ht => exact .inl ⟨.done s.cur i r, rfl, ht ▸ rfl⟩

/-- A move changes the acting client's record alone, and it records that client's stop and no other fault or refusal. -/
theorem Move.actingStep {i : Instr} {s t : State} (h : Move i s t) : ∃ m m', ActingStep s t m m' := by
  cases h with
  | start hs _ ht =>
    obtain ⟨m, hm, hstop, -⟩ := hs
    exact ht ▸ ⟨m, _, .of_running hm hstop (s.started_clients i) rfl rfl rfl⟩
  | startStop x hs ht =>
    obtain ⟨m, hm, hstop, -⟩ := hs
    exact ht ▸ ⟨m, _, .of_started_stop hm hstop i x⟩
  | claim hs _ _ _ ht =>
    obtain ⟨m, hm, hstop, -⟩ := hs
    exact ht ▸ ⟨m, _, .of_running hm hstop (s.started_clients i) rfl rfl rfl⟩
  | stop x hs ht =>
    obtain ⟨m, hm, hstop, -⟩ := hs
    exact ht ▸ ⟨m, _, .of_stop hm hstop x⟩
  | read k o e hs _ _ ht =>
    obtain ⟨m, hm, hstop, -⟩ := hs
    exact ht ▸ ⟨m, _, .of_running hm hstop (s.readAccess_clients k o) (s.readAccess_faults k o)
      (s.readAccess_refused k o) rfl⟩
  | write k o w e hs _ _ ht =>
    obtain ⟨m, hm, hstop, -⟩ := hs
    exact ht ▸ ⟨m, _, .of_running hm hstop (s.writeAccess_clients k o w) rfl rfl rfl⟩
  | delay us hs ht =>
    obtain ⟨m, hm, hstop, -⟩ := hs
    exact ht ▸ ⟨m, _, .of_running hm hstop (s.delay_clients us) rfl rfl rfl⟩
  | complete u r hs _ hu ht =>
    obtain ⟨m, hm, hstop, -⟩ := hs
    have hclients := u.complete_clients i r
    rw [hu.clients, hu.cur] at hclients
    exact ht ▸ ⟨m, _, .of_running hm hstop hclients hu.faults hu.refused rfl⟩
  | release r hs _ _ ht =>
    obtain ⟨m, hm, hstop, -⟩ := hs
    exact ht ▸ ⟨m, _, .of_running hm hstop (s.finishBus_clients i r) rfl rfl rfl⟩

/-! ### One step of the machine -/

/-- `u` is `s` with a running client given the turn, at most the first call of its program taken (log 7). -/
structure State.TurnGiven (s u : State) : Prop where
  win : u.win = s.win
  dev : u.dev = s.dev
  eng : u.eng = s.eng
  hist : u.hist = s.hist
  faults : u.faults = s.faults
  refused : u.refused = s.refused
  runs : ∃ m, s.clients[u.cur]? = some m ∧ m.stopped = none
  others : ∀ d, d ≠ u.cur → u.clients[d]? = s.clients[d]?

/-- A step of the machine gives a client the turn, and then makes a step of an operation or refuses a call that spells
none (10_state.md R54; 30_encoding.md R172). -/
theorem step_turnGiven {s t : State} (h : step s = .next t) :
    ∃ u, s.TurnGiven u ∧ ((∃ i, exec i u = .next t) ∨ (u.Between ∧ t = u.stop (.refuse .badSelector))) := by
  obtain ⟨c, rest, m, hp, hm, hcase⟩ := step_next h
  have hstop : m.stopped = none := by
    have hmove := pick_canMove hp
    simp only [State.canMove, hm, ClientState.canStep, Option.any_some, Bool.and_eq_true, Option.isNone_iff_eq_none]
      at hmove
    exact hmove.1
  rcases hcase with ⟨i, -, hx⟩ | ⟨call, calls, hop, -, hcall⟩
  · exact ⟨s.turnTo c rest, ⟨rfl, rfl, rfl, rfl, rfl, rfl, ⟨m, hm, hstop⟩, fun _ _ => rfl⟩, .inl ⟨i, hx⟩⟩
  · refine ⟨(s.turnTo c rest).updMe fun m => { m with prog := calls },
      ⟨rfl, rfl, rfl, rfl, rfl, rfl, ⟨m, hm, hstop⟩, fun d hd => getElem?_modify_other _ hd⟩, ?_⟩
    rcases hcall with ⟨i, -, hx⟩ | ⟨-, ht⟩
    · exact .inl ⟨i, hx⟩
    · exact .inr ⟨⟨_, getElem?_modify_self _ hm, hstop, hop⟩, ht⟩

/-- After a stop the acting client's record shows it. -/
theorem State.stop_acting {s : State} (h : ∃ m, s.clients[s.cur]? = some m) (x : Stop) :
    ∃ m, (s.stop x).clients[(s.stop x).cur]? = some m ∧ m.stopped = some x := by
  obtain ⟨m, hm⟩ := h
  exact ⟨{ m with stopped := some x }, by simp [hm], rfl⟩

theorem step_hist {s t : State} (h : step s = .next t) :
    (∃ e : Event, e.client = t.cur ∧ t.hist = s.hist ++ [e]) ∨
      (t.hist = s.hist ∧ ∃ m, t.clients[t.cur]? = some m ∧ m.stopped ≠ none) := by
  obtain ⟨u, hu, ⟨i, hx⟩ | ⟨hb, rfl⟩⟩ := step_turnGiven h
  · have hmove := exec_move hx
    rcases hmove.hist with ⟨e, he, ht⟩ | ⟨x, rfl⟩
    · exact .inl ⟨e, he.trans hmove.cur.symm, by rw [ht, hu.hist]⟩
    · obtain ⟨m, m', a⟩ := hmove.actingStep
      obtain ⟨n, hn, hstop⟩ := State.stop_acting ⟨m, a.before⟩ x
      exact .inr ⟨by simp [hu.hist], n, hn, by simp [hstop]⟩
  · obtain ⟨m, hm, -⟩ := hb
    obtain ⟨n, hn, hstop⟩ := State.stop_acting ⟨m, hm⟩ (.refuse .badSelector)
    exact .inr ⟨by simp [hu.hist], n, hn, by simp [hstop]⟩

/-- In a step of the machine only the record of the client that moves changes, and what is recorded of faults and
refusals is that client's stop. -/
theorem step_actingStep {s t : State} (h : step s = .next t) : ∃ m m', ActingStep { s with cur := t.cur } t m m' := by
  obtain ⟨u, hu, hcase⟩ := step_turnGiven h
  have key : t.cur = u.cur ∧ ∃ n m', ActingStep u t n m' := by
    rcases hcase with ⟨i, hx⟩ | ⟨⟨n, hn, hstop, -⟩, rfl⟩
    · exact ⟨(exec_move hx).cur, (exec_move hx).actingStep⟩
    · exact ⟨u.stop_cur _, n, _, .of_stop hn hstop _⟩
  obtain ⟨hcur, n, m', a⟩ := key
  obtain ⟨m, hm, hstop⟩ := hu.runs
  rw [hcur]
  exact ⟨m, m', hm, hstop, a.after, fun d hd => (a.others d hd).trans (hu.others d hd),
    by rw [a.faults, hu.faults], by rw [a.refused, hu.refused]⟩

/-- Settles O40: every move appends one event of its client or is a stop (`Move.hist`). -/
theorem stepAppendsOneEvent : Obligations.StepAppendsOneEvent := by
  intro s t h
  rcases step_hist h with ⟨e, he, ht⟩ | hstop
  · refine .inl ⟨e, ht, ?_⟩
    cases e with
    | access c k o d v => exact .inl ⟨k, o, d, v, by rw [← he]; rfl⟩
    | delay c us => exact .inr (.inl ⟨us, by rw [← he]; rfl⟩)
    | start c i => exact .inr (.inr (.inl ⟨i, by rw [← he]; rfl⟩))
    | done c i r => exact .inr (.inr (.inr ⟨i, r, by rw [← he]; rfl⟩))
  · exact .inr hstop

/-- Settles O41: the client that moves was running, and its stop is all that a step records (`step_actingStep`). -/
theorem faultsStayAndStoppedClientsTakeNoStep : Obligations.FaultsStayAndStoppedClientsTakeNoStep := by
  intro s t h
  obtain ⟨m, m', a⟩ := step_actingStep h
  refine ⟨?faults, fun hr => by simp [a.refused, hr], fun c n hn hstop => ?stopped⟩
  case faults =>
    have hf := a.faults
    have hafter := a.after
    rcases hm' : m'.stopped with _ | ⟨code, info⟩ | r <;> rw [hm'] at hf
    · exact .inl (by simpa [faultsOf] using hf)
    · exact .inr ⟨code, info, hf, m', hafter, hm'⟩
    · exact .inl (by simpa [faultsOf] using hf)
  case stopped =>
    have hc : c ≠ t.cur := by
      rintro rfl
      have hmn : m = n := Option.some.inj (a.before.symm.trans hn)
      exact hstop (hmn ▸ a.running)
    exact ⟨hc.symm, (a.others c hc).trans hn⟩

/-- Settles O42: the client that moves is the only one whose record changes (`step_actingStep`). -/
theorem stepChangesNoOtherClient : Obligations.StepChangesNoOtherClient := by
  intro s t h
  obtain ⟨m, m', a⟩ := step_actingStep h
  exact ⟨(step_samePlaces h).clients, a.others⟩

end Sys2Proof.Machine
end

section
/-! SUPPORT. The receive buffer against the history (42_bus_engine.md R297; 10_state.md R50): what each event adds to
the bytes popped since `START_READ`, and that every engine step moves the buffer along with them. -/

namespace Sys2Proof.Machine

/-! ### The bytes popped, event by event -/

theorem popped_read (c : Nat) (h : List Event) (d : Nat) (k : WindowKind) (o : Nat) (v : Word) :
    popped c (h ++ [.access d k o .read v]) =
      if d = c ∧ k = .bsc ∧ o = offFifo then popped c h ++ [truncByte v] else popped c h := by
  simp only [popped, List.foldl_append, List.foldl_cons, List.foldl_nil]

theorem popped_write (c : Nat) (h : List Event) (d : Nat) (k : WindowKind) (o : Nat) (v : Word) :
    popped c (h ++ [.access d k o .write v]) =
      if d = c ∧ k = .bsc ∧ o = offC ∧ v = startRead then [] else popped c h := by
  simp only [popped, List.foldl_append, List.foldl_cons, List.foldl_nil]

@[simp] theorem popped_start (c : Nat) (h : List Event) (d : Nat) (i : Instr) :
    popped c (h ++ [.start d i]) = popped c h := by
  simp only [popped, List.foldl_append, List.foldl_cons, List.foldl_nil]

/-- What another client does is no part of a client's pops. -/
theorem popped_of_other {c : Nat} {e : Event} (h : List Event) (he : e.client ≠ c) :
    popped c (h ++ [e]) = popped c h := by
  cases e with
  | access d k o dir v =>
    have hd : d ≠ c := he
    cases dir with
    | read => simp [popped_read, hd]
    | write => simp [popped_write, hd]
  | delay d us => simp [popped]
  | start d i => simp
  | done d i r => simp [popped]

/-! ### The buffer, step by step -/

/-- Outside the receive part nothing is claimed of the buffer. -/
theorem State.BufferHoldsPops.of_not_receiving {s : State} (h : s.eng.phase.receiving = false) : s.BufferHoldsPops :=
  fun c _ hr => by simp [h] at hr

/-- The buffer holds the pops after a step that leaves the engine alone and pops nothing for its owner. -/
theorem State.BufferHoldsPops.of_same {s t : State} (h : s.BufferHoldsPops) (he : t.eng = s.eng)
    (hp : ∀ c, s.eng.owner = some c → popped c t.hist = popped c s.hist) : t.BufferHoldsPops := by
  intro c hc hr
  rw [he] at hc hr ⊢
  rw [hp c hc]
  exact h c hc hr

theorem State.BufferHoldsPops.stop {s : State} (h : s.BufferHoldsPops) (x : Stop) : (s.stop x).BufferHoldsPops :=
  h.of_same (by simp) (by simp)

/-- An engine write that leaves the receive part, or does not enter it. -/
theorem State.BufferHoldsPops.regWrite {s : State} (h : s.BufferHoldsPops) (o : Nat) (v : Word) {f : State → State}
    (hf : ∀ u, (f u).eng.phase.receiving = false) : (s.regWrite .bsc o v f).BufferHoldsPops := by
  rcases regWrite_cases s .bsc o v f with ⟨x, ht⟩ | ⟨-, ht⟩ <;> rw [ht]
  · exact h.stop x
  · exact .of_not_receiving (hf _)

/-- `START_READ` begins the receive part with nothing popped and nothing in the buffer. -/
theorem State.BufferHoldsPops.beginReceive {s : State} (h : s.BufferHoldsPops) (ho : s.eng.owner = some s.cur) :
    (s.regWrite .bsc offC startRead fun t =>
      { t with eng := { t.eng with phase := .rWait, polls := 0, idx := 0 } }).BufferHoldsPops := by
  rcases regWrite_cases s .bsc offC startRead fun t =>
    { t with eng := { t.eng with phase := .rWait, polls := 0, idx := 0 } } with ⟨x, ht⟩ | ⟨-, ht⟩ <;> rw [ht]
  · exact h.stop x
  · intro c hc _
    have hcur : s.cur = c := Option.some.inj (ho.symm.trans hc)
    simp [popped_write, hcur]

/-- A poll pops nothing and leaves the buffer; it does not enter the receive part. -/
theorem State.BufferHoldsPops.poll {s : State} (h : s.BufferHoldsPops) {test : Word → Phase}
    (htest : s.eng.phase.receiving = false → ∀ v, (test v).receiving = false) : (s.poll test).BufferHoldsPops := by
  unfold State.poll
  split
  · exact h.regWrite _ _ fun u => rfl
  · rcases regRead_cases s .bsc offS fun v t =>
      { t with eng := { t.eng with polls := t.eng.polls + 1, s := v, phase := if flagClkt v then .abC else test v } }
      with ⟨x, ht⟩ | ⟨-, ht⟩ <;> rw [ht]
    · exact h.stop x
    · intro c hc hr
      have howner : s.eng.owner = some c := by simpa using hc
      have hs : s.eng.phase.receiving = true := by
        by_contra hs
        have htest := htest (by simpa using hs) (s.deviceRead .bsc offS).1
        dsimp only at hr
        split at hr
        · contradiction
        · simp [htest] at hr
      simpa [popped_read] using h c howner hs

/-- A list's front with the next element set. -/
theorem take_succ_set {α : Type} (l : List α) {n : Nat} (h : n < l.length) (a : α) :
    (l.set n a).take (n + 1) = l.take n ++ [a] := by
  rw [List.take_succ_eq_append_getElem (by simpa using h), List.getElem_set_self, List.take_set_of_le (Nat.le_refl n)]

/-- A pop puts the byte popped after the bytes the buffer holds. -/
theorem State.BufferHoldsPops.pop {s : State} (h : s.BufferHoldsPops) (ho : s.eng.owner = some s.cur)
    (hr : s.eng.phase.receiving = true) (hroom : s.eng.idx < s.eng.rbuf.length) (next : Phase) :
    (s.pop next).BufferHoldsPops := by
  unfold State.pop
  rcases regRead_cases s .bsc offFifo fun v t =>
    { t with
      eng := { t.eng with
        rbuf := t.eng.rbuf.set t.eng.idx (truncByte v), idx := t.eng.idx + 1, polls := 0, phase := next } }
    with ⟨x, ht⟩ | ⟨-, ht⟩ <;> rw [ht]
  · exact h.stop x
  · intro c hc _
    have hc' : s.eng.owner = some c := by simpa using hc
    have hcur : s.cur = c := Option.some.inj (ho.symm.trans hc')
    simp [popped_read, hcur, take_succ_set _ hroom, h c hc' hr]

/-- Every engine step keeps the buffer in step with the pops (42_bus_engine.md R284, R297). -/
theorem State.BufferHoldsPops.engineStep {s t : State} {i : Instr} (h : s.BufferHoldsPops)
    (he : s.eng.Inv s.par.pollBudget) (ho : s.eng.owner = some s.cur) (hx : s.engineStep i = some t) :
    t.BufferHoldsPops := by
  cases hp : s.eng.phase <;> simp only [State.engineStep, hp, Option.some.injEq, reduceCtorEq] at hx <;> subst hx
  case wA | wDlen | wClr | wGo | rDlen | rClr | abC | abS => exact h.regWrite _ _ fun u => rfl
  case wFifo k =>
    refine h.regWrite _ _ fun u => ?_
    rw [State.setPhase_eng]
    split <;> rfl
  case rGo => exact h.beginReceive ho
  case wWait =>
    refine h.poll fun _ v => ?_
    split
    · split <;> rfl
    · rfl
  case rWait | rCpoll | rDpoll | rFpoll => exact h.poll fun hr => by simp [hp, Phase.receiving] at hr
  case rCfifo | rFfifo =>
    have hroom := he.pop_fits (by simp [hp])
    exact h.pop ho (by rw [hp]; rfl) (he.buffer_length ▸ hroom) _
  case endOk | endTimeout | endErr => exact .of_not_receiving rfl

/-- A bus operation is set up outside the receive part (42_bus_engine.md R283). -/
theorem setUpOf_not_receiving {i : Instr} (hb : isBusOp i = true) (e : Engine) :
    (setUpOf i e).phase.receiving = false := by
  cases i with
  | busWrite dev reg buf =>
    simp only [setUpOf, setUpWrite]
    split <;> rfl
  | busRead dev reg len => rfl
  | _ => contradiction

theorem State.BufferHoldsPops.startOf {s : State} (h : s.BufferHoldsPops) (i : Instr) :
    (s.startOf i).BufferHoldsPops := by
  rcases s.startOf_cases i with ⟨r, -, ht⟩ | ⟨-, -, ht⟩ | ⟨hb, -, -, ht⟩ | ⟨-, -, ht⟩ <;> rw [ht]
  · exact h.of_same (by simp) (by simp)
  · exact h.of_same (by simp) (by simp)
  · exact .of_not_receiving (setUpOf_not_receiving hb s.eng)
  · exact h.of_same rfl (by simp)

/-- A client in a window or GPIO operation, or between operations, does not own the engine. -/
theorem Move.not_owner {i : Instr} {s t : State} (h : Move i s t) (hb : isBusOp i = false) (hc : s.ClientsInv) :
    s.eng.owner ≠ some s.cur := by
  have between : s.Between → s.eng.owner ≠ some s.cur := fun ⟨m, hm, _, hop⟩ => hc.owner_ne hm (by simp [hop])
  have inOp : ∀ {n v}, s.InOp i n v → s.eng.owner ≠ some s.cur :=
    fun ⟨m, hm, _, hop, _⟩ => hc.owner_ne hm (by simp [hop, hb])
  cases h with
  | start hs _ _ => exact between hs
  | startStop _ hs _ => exact between hs
  | claim hs _ _ _ _ => exact between hs
  | stop _ hs _ => exact inOp hs
  | read _ _ _ hs _ _ _ => exact inOp hs
  | write _ _ _ _ hs _ _ _ => exact inOp hs
  | delay _ hs _ => exact inOp hs
  | complete _ _ hs _ _ _ => exact inOp hs
  | release _ hs _ _ _ => exact inOp hs

/-- The other clients' operations pop nothing for the engine's owner, and the owner's engine steps keep the buffer. -/
theorem exec_bufferHoldsPops {i : Instr} {s t : State} (hi : s.Inv) (h : s.BufferHoldsPops)
    (hx : exec i s = .next t) : t.BufferHoldsPops := by
  cases hb : isBusOp i with
  | true =>
    rcases exec_next hx with ⟨-, rfl⟩ | ⟨m, -, -, -, hgo⟩
    · exact h.startOf i
    · obtain ⟨ho, ht⟩ := hgo.engineStep hb
      exact h.engineStep hi.engine ho ht
  | false =>
    have hmove := exec_move hx
    have howner := hmove.not_owner hb hi.clients
    refine h.of_same (hmove.eng_of_not_bus hb) fun c hc => ?_
    rcases hmove.hist with ⟨e, he, ht⟩ | ⟨x, rfl⟩
    · have hother : e.client ≠ c := fun hec => howner (by rw [hc, ← hec, he])
      rw [ht, popped_of_other _ hother]
    · simp

/-- Settles O46: carried through the step together with the machine's invariant, which gives each pop its room and the
engine its one owner. -/
theorem everyStepKeepsTheBufferOfPops : Obligations.EveryStepKeepsTheBufferOfPops := by
  intro s t hi hb h
  refine (step_keeps (P := fun s => s.Inv ∧ s.BufferHoldsPops) ?turn ?take ?run ?bad ⟨hi, hb⟩ h).2
  case turn => exact fun u c rest ⟨hu, hp⟩ => ⟨hu.turnTo c rest, hp⟩
  case take => exact fun u calls hs ⟨hu, hp⟩ => ⟨hu.takeCall hs calls, hp⟩
  case run => exact fun i u v ⟨hu, hp⟩ hx => ⟨exec_inv hu hx, exec_bufferHoldsPops hu hp hx⟩
  case bad => exact fun u hs ⟨hu, hp⟩ => ⟨hu.stop hs _, hp.stop _⟩

end Sys2Proof.Machine
end

section
/-! SUPPORT. Which client the machine gives the turn, and that it stops exactly when no client has a step
(20_memory.md R117; 70_reset_and_hazards.md R411). -/

namespace Sys2Proof.Machine

theorem State.mem_movers {s : State} {c : Nat} : c ∈ s.movers ↔ s.canMove c = true := by
  simp only [State.movers, List.mem_filter, List.mem_range, and_iff_right_iff_imp]
  intro h
  by_contra hlt
  have hnone : s.clients[c]? = none := List.getElem?_eq_none (Nat.le_of_not_lt hlt)
  simp [State.canMove, hnone] at h

/-- A queued turn of a client that can move is taken. -/
theorem pick_queued {s : State} {c : Nat} {rest : List Nat} (hq : s.env.turns = c :: rest) (hc : s.canMove c = true) :
    s.pick = some (c, rest) := by
  simp [State.pick, hq, hc]

theorem pick_none {s : State} : s.pick = none ↔ ∀ c, s.canMove c = false := by
  constructor
  · intro h c
    by_contra hc
    have hmem : c ∈ s.movers := State.mem_movers.2 (by simpa using hc)
    unfold State.pick at h
    split at h
    · contradiction
    · split at h
      next hmovers => simp [hmovers] at hmem
      all_goals contradiction
  · intro h
    cases hp : s.pick with
    | none => rfl
    | some p =>
      have hmove : s.canMove p.1 = true := pick_canMove hp
      simp [h p.1] at hmove

/-- A picked client has something to run: an operation in progress, or a call. -/
theorem fetch_nothing {s : State} : s.fetch = .nothing ↔ s.pick = none := by
  constructor
  · intro h
    cases hp : s.pick with
    | none => rfl
    | some p =>
      obtain ⟨c, rest⟩ := p
      have hmove := pick_canMove hp
      cases hm : s.clients[c]? with
      | none => simp [State.canMove, hm] at hmove
      | some m =>
        simp only [State.canMove, hm, Option.any_some, ClientState.canStep] at hmove
        cases hop : m.op with
        | some i => simp [State.fetch, hp, hm, hop] at h
        | none =>
          cases hq : m.prog with
          | nil => simp [hop, hq] at hmove
          | cons call calls => cases hd : decode call <;> simp [State.fetch, hp, hm, hop, hq, hd] at h
  · intro h
    simp [State.fetch, h]

/-- The frame of an operation does not answer that no client can move; only its next step could. -/
theorem operate_ne_noRunnableClient {i : Instr} {start : State → State}
    {next : ClientState → State → Host.Outcome State Fault Refusal} {s : State}
    (hn : ∀ m, next m s ≠ .fault .noRunnableClient) : operate i start next s ≠ .fault .noRunnableClient := by
  unfold operate
  split
  · simp
  · split
    · simp
    · split
      · simp
      · split
        · exact hn _
        · simp

theorem busNext_ne_noRunnableClient (i : Instr) (s : State) : busNext i s ≠ .fault .noRunnableClient := by
  unfold busNext
  split
  · split <;> simp
  · simp

/-- No step of an operation answers that no client can move. -/
theorem exec_ne_noRunnableClient (i : Instr) (s : State) : exec i s ≠ .fault .noRunnableClient := by
  cases i <;>
    simp only [exec, execMap, execUnmap, execReadWord, execWriteWord, execSetBits, execClearBits, execGetField,
      execSetField, execDelayUs, execConfigureAsInput, execReadPin, execEnablePullups, execBusWrite, execBusRead,
      operateScript] <;>
    refine operate_ne_noRunnableClient fun m => ?_
  case busWrite | busRead => exact busNext_ne_noRunnableClient _ s
  all_goals simp

theorem step_noRunnableClient {s : State} : step s = .fault .noRunnableClient ↔ s.pick = none := by
  rw [← fetch_nothing]
  unfold step
  cases hf : s.fetch with
  | run i t => simp [exec_ne_noRunnableClient i t]
  | invalid t => simp
  | nothing => simp

/-- Settles O8, by cases on where the turn comes from: the queue, or the clients with a step. -/
theorem turnsGoToClientsWithAStep : Obligations.TurnsGoToClientsWithAStep :=
  ⟨fun _ _ _ h => pick_canMove h, fun _ _ _ hq hc => pick_queued hq hc,
    fun _ => step_noRunnableClient.trans pick_none⟩

/-- Settles O7: `fetch` takes the picked client's operation, or decodes its next call. -/
theorem stepRunsTheDecodedOperation : Obligations.StepRunsTheDecodedOperation := by
  intro s c rest m hp hm
  constructor
  · intro call calls i hop hq hd
    simp only [step, State.fetch, hp, hm, hop, hq, hd]
    rfl
  · intro i hop
    simp only [step, State.fetch, hp, hm, hop]
    rfl

end Sys2Proof.Machine
end

section
/-! SUPPORT. The steps of the window and GPIO operations (40_register_window.md R201 to R216; 41_gpio_fields.md R250 to
R261): what a register access leaves of the state, and that each operation's fixed sequence is the one the tables of
`Claims` write out. -/

namespace Sys2Proof.Machine

open Sys2Proof.Claims

/-! ### What one register access does -/

/-- A word masked in and a word masked out of a mask show the first one inside it. -/
theorem and_or_and_not_and (w d m : Word) : ((w &&& m) ||| (d &&& ~~~m)) &&& m = w &&& m := by
  ext n hn
  cases hm : m[n] <;> simp [hm]

/-- The word read under LOOSE is the one the rule gives for the draw (40_register_window.md R206). -/
theorem looseValue_eq (s : State) (k : WindowKind) (o : Nat) (d : Word) :
    looseValue s k o d = looseReading k o (s.stored k o) d := by
  cases hk : regClass k o with
  | store => cases hw : s.stored k o <;> simp only [looseValue, looseReading, hk, hw, if_true]
  | volatile | readOnly | reserved => simp only [looseValue, looseReading, hk, reduceCtorEq, if_false]

@[simp] theorem State.deviceRead_gpioStore (s : State) (k : WindowKind) (o : Nat) :
    (s.deviceRead k o).2.dev.gpioStore = s.dev.gpioStore := by
  rcases s.deviceRead_dev k o with h | ⟨-, -, h⟩ <;> simp [h]
@[simp] theorem State.deviceRead_pull (s : State) (k : WindowKind) (o : Nat) :
    (s.deviceRead k o).2.dev.pull = s.dev.pull := by
  rcases s.deviceRead_dev k o with h | ⟨-, -, h⟩ <;> simp [h]
@[simp] theorem State.deviceRead_pud (s : State) (k : WindowKind) (o : Nat) :
    (s.deviceRead k o).2.dev.pud = s.dev.pud := by
  rcases s.deviceRead_dev k o with h | ⟨-, -, h⟩ <;> simp [h]

theorem State.deviceRead_loose {s : State} (h : s.par.device = .loose) (k : WindowKind) (o : Nat) :
    s.deviceRead k o = (looseReading k o (s.stored k o) (s.draw k o), s.drawn) := by
  simp [State.deviceRead, h, looseValue_eq]

theorem State.deviceRead_gpio {s : State} (h : s.par.device = .reference) (o : Nat) :
    s.deviceRead .gpio o = (s.dev.gpioRead o, s) := by
  simp [State.deviceRead, h]

theorem State.deviceRead_bsc {s : State} (h : s.par.device = .reference) (o : Nat) :
    s.deviceRead .bsc o =
      ((s.dev.bsc.read s.par.rdmRate o).1,
        { s with dev := { s.dev with bsc := (s.dev.bsc.read s.par.rdmRate o).2 } }) := by
  simp [State.deviceRead, h]

/-- Written bits read back, whatever the draw. -/
theorem looseReading_written {k : WindowKind} {o : Nat} (hk : regClass k o = .store) (w d : Word) :
    looseReading k o (some w) d &&& writable k o = w &&& writable k o := by
  rw [looseReading, if_pos hk]
  exact and_or_and_not_and w d _

/-- An admitted read, the engine moved to `e`, is the read step of the word the device answered. -/
theorem readStep_readAccess (s : State) (k : WindowKind) (o : Nat) (e : Engine) :
    ReadStep s { s.readAccess k o with eng := e } e k o (s.deviceRead k o).1 where
  hist := s.readAccess_hist k o
  clients := s.readAccess_clients k o
  eng := rfl
  win := s.readAccess_win k o
  faults := s.readAccess_faults k o
  refused := s.readAccess_refused k o
  par := s.readAccess_par k o
  cur := s.readAccess_cur k o
  turns := by simpa using (s.deviceRead_env k o).1
  mapAnswers := by simpa using (s.deviceRead_env k o).2
  answers := by
    cases hd : s.par.device with
    | loose => simp [State.deviceRead_loose hd, State.drawn]
    | reference => cases k <;> simp [State.deviceRead_gpio hd, State.deviceRead_bsc hd]
  scripted := fun hd a more ha => by simp [State.deviceRead_loose hd, State.draw, ha]
  written := fun hd hk w hw => by
    rw [State.deviceRead_loose hd, hw]
    exact looseReading_written hk w _
  stored := fun k' o' => by simpa [State.stored] using s.stored_deviceRead k k' o o'
  pull := by simp
  pud := by simp
  levels := by simp
  gpioStart := by simp
  controller := fun hk => by
    rcases s.deviceRead_dev k o with h | ⟨hd, hb, -⟩
    · simp [h]
    · rcases hk with hk | hk
      · simp [hd] at hk
      · simp [hb] at hk
  gpioReference := fun hd hk => by
    subst hk
    simp [State.deviceRead_gpio hd]
  bscReference := fun hd hk => by
    subst hk
    simp [State.deviceRead_bsc hd]

/-- An admitted write, the engine moved to `e`, is the write step of its word. -/
theorem writeStep_writeAccess (s : State) (k : WindowKind) (o : Nat) (v : Word) (e : Engine) :
    WriteStep s { s.writeAccess k o v with eng := e } e k o v where
  hist := rfl
  clients := rfl
  eng := rfl
  win := rfl
  faults := rfl
  refused := rfl
  par := rfl
  cur := rfl
  env := rfl
  written := by simpa [State.stored] using s.stored_deviceWrite k k o o v
  others := fun k' o' hne => by
    have hstored := s.stored_deviceWrite k k' o o' v
    rw [if_neg fun ⟨hk, ho, _⟩ => hne (by rw [hk, ho])] at hstored
    exact hstored
  pull := fun hne => by
    rw [State.writeAccess_dev, DeviceState.keep_pull, DeviceState.act_pull]
    exact fun ⟨hk, ho⟩ => hne (by rw [hk, ho])
  pud := fun hsel hmask => by
    rw [State.writeAccess_dev, DeviceState.keep_pud, DeviceState.act_pud]
    rintro ⟨hk, ho | ho⟩
    · exact hsel (by rw [hk, ho])
    · exact hmask (by rw [hk, ho])
  levels := by simp
  gpioStart := by simp
  controller := fun hk => by
    rw [State.writeAccess_dev, DeviceState.keep_bsc, DeviceState.act_bsc _ _ _ _ _ hk]
  bscReference := fun hd hk => by
    subst hk
    simp [hd, DeviceState.act]

/-! ### The fixed sequences are those of the tables -/

/-- A pin's mode field mask, as the three bits at its place (30_encoding.md R142, R167). -/
theorem fselMask_eq_shiftLeft (p : Nat) : fselMask p = 7#32 <<< (3 * (p % 10)) := by
  apply BitVec.eq_of_toNat_eq
  simp [fselMask, fieldMask, Nat.shiftLeft_eq]

theorem Params.cleared_eq (p : Params) (k : WindowKind) (o : Nat) (x m : Word) :
    p.cleared k o x m = clearedWord p k o x m := by
  unfold Params.cleared clearedWord
  cases p.reservedBits <;> rfl

/-- An operation that reads first has a sequence, which begins with that read. -/
theorem scriptOf_readOf {i : Instr} {k : WindowKind} {o : Nat} (p : Params) (x : Word) (h : readOf i = some (k, o)) :
    ∃ f, scriptOf p i = some f ∧ f 0 x = .read k o := by
  cases i <;> simp only [readOf, Option.some.injEq, Prod.mk.injEq, reduceCtorEq] at h <;>
    obtain ⟨rfl, rfl⟩ := h <;> exact ⟨_, rfl, rfl⟩

/-- The sequence makes the write of the table after the table's count of steps. -/
theorem scriptOf_writeOf {i : Instr} {n : Nat} {k : WindowKind} {o : Nat} {v x : Word} {p : Params}
    (h : writeOf p n x i = some (k, o, v)) : ∃ f, scriptOf p i = some f ∧ f n x = .write k o v := by
  cases i with
  | writeWord k' o' v' | setBits k' o' m | setField k' o' lsb w v' =>
    simp only [writeOf, Option.ite_none_right_eq_some, Option.some.injEq, Prod.mk.injEq] at h
    obtain ⟨rfl, rfl, rfl, rfl⟩ := h
    exact ⟨_, rfl, rfl⟩
  | clearBits k' o' m =>
    simp only [writeOf, Option.ite_none_right_eq_some, Option.some.injEq, Prod.mk.injEq] at h
    obtain ⟨rfl, rfl, rfl, rfl⟩ := h
    exact ⟨_, rfl, by simp [Params.cleared_eq]⟩
  | configureAsInput pin =>
    simp only [writeOf, Option.ite_none_right_eq_some, Option.some.injEq, Prod.mk.injEq] at h
    obtain ⟨rfl, rfl, rfl, rfl⟩ := h
    exact ⟨_, rfl, by simp [Params.cleared_eq, fselMask_eq_shiftLeft, fselWord]⟩
  | enablePullups m =>
    refine ⟨_, rfl, ?_⟩
    simp only [writeOf] at h
    split_ifs at h with h0 h2 h4 h5 <;> simp only [Option.some.injEq, Prod.mk.injEq] at h <;>
      obtain ⟨rfl, rfl, rfl⟩ := h
    · simp [h0, pudUp]
    · simp [h2]
    · simp [h4]
    · simp [h5]
  | _ => contradiction

/-- The sequence completes with the table's result after the table's count of steps. -/
theorem scriptOf_resultOf {i : Instr} {n : Nat} {x : Word} {r : Result} (p : Params) (h : resultOf n x i = some r) :
    ∃ f, scriptOf p i = some f ∧ f n x = .finish r := by
  cases i <;>
    simp only [resultOf, Option.ite_none_right_eq_some, Option.some.injEq, reduceCtorEq] at h <;>
    obtain ⟨rfl, rfl⟩ := h <;> exact ⟨_, rfl, rfl⟩

/-- The operand check passes exactly on the operand domain. -/
theorem operandCheck_none (i : Instr) : operandCheck i = none ↔ i.wellFormed = true := by
  cases i with
  | getField k o lsb w => exact Laws.OperandCheck.getField k o lsb w
  | setField k o lsb w v => exact Laws.OperandCheck.setField k o lsb w v
  | configureAsInput p => exact Laws.OperandCheck.configureAsInput p
  | readPin p => exact Laws.OperandCheck.readPin p
  | busWrite dev reg buf => exact Laws.OperandCheck.busWrite dev reg buf
  | busRead dev reg len => exact Laws.OperandCheck.busRead dev reg len
  | _ => simp [operandCheck, Instr.wellFormed]

/-! ### The obligations -/

/-- Settles O9: the start step of an operation that is no bus operation and whose operand check passes. -/
theorem operationStartsWithItsEvent : Obligations.OperationStartsWithItsEvent := by
  intro i s hb hw hs
  have hstart : s.startOf i = s.started i := by
    simp [State.startOf, hb, State.startChecked, (operandCheck_none i).2 hw]
  rw [exec_between i hs, hstart]
  rfl

/-- Settles O14: the operation's sequence begins with the read, and the read is admitted. -/
theorem readStepReturnsWhatTheBlockWrote : Obligations.ReadStepReturnsWhatTheBlockWrote := by
  intro i k o x s hread hin hreadable
  obtain ⟨f, hf, hact⟩ := scriptOf_readOf s.par x hread
  refine ⟨(s.deviceRead k o).1, _, exec_inOp hf hin hact, ?_⟩
  rw [State.perform, regRead_of_readable _ hreadable]
  exact (s.readAccess_eng k o) ▸ readStep_readAccess s k o (s.readAccess k o).eng

/-- Settles O15: the operation's sequence makes the table's write, and the write is admitted. -/
theorem writeStepStoresExactlyItsWord : Obligations.WriteStepStoresExactlyItsWord := by
  intro i n k o v x s hwrite hin hwritable
  obtain ⟨f, hf, hact⟩ := scriptOf_writeOf hwrite
  refine ⟨_, exec_inOp hf hin hact, ?_⟩
  rw [State.perform, regWrite_of_writable _ hwritable]
  exact writeStep_writeAccess s k o v s.eng

/-- Settles O17: after its last access the operation's sequence completes with the table's result. -/
theorem completionReturnsTheResult : Obligations.CompletionReturnsTheResult := by
  intro i n x r s hresult hin
  obtain ⟨f, hf, hact⟩ := scriptOf_resultOf s.par hresult
  exact exec_inOp hf hin hact

/-! ### A granted map -/

/-- The completion step of `map` is its body. -/
theorem exec_map_inOp {k : WindowKind} {n : Nat} {x : Word} {s : State} (h : s.InOp (.map k) n x) :
    exec (.map k) s = .next (s.mapBody (.map k) k) := by
  obtain ⟨m, hm, hstop, hop, -, -⟩ := h
  simp only [exec, execMap, operate_inOp hm hstop hop]

/-- What is behind a window that is forgotten: no word was written to it, and every other word stays. -/
theorem DeviceState.get?_store_forget (d : DeviceState) (k k' : WindowKind) (o : Nat) :
    Cells.get? ((d.forget k).store k') o = if k' = k then none else Cells.get? (d.store k') o := by
  cases k <;> cases k' <;> rfl

theorem DeviceState.pullOf_forget_gpio (d : DeviceState) (p : Nat) : (d.forget .gpio).pullOf p = .unknown := by
  simp only [DeviceState.forget, DeviceState.pullOf, List.getD_eq_getElem?_getD, List.getElem?_replicate]
  split <;> rfl

theorem State.stored_mapWindow (s : State) (k k' : WindowKind) (o : Nat) :
    (s.mapWindow k).stored k' o = if k' = k then none else s.stored k' o := by
  rw [State.stored, State.mapWindow_dev]
  exact s.dev.get?_store_forget k k' o

/-- Settles O22: the platform grants the map, so its body opens the slot and forgets what is behind it. -/
theorem grantedMapMakesAFreshWindow : Obligations.GrantedMapMakesAFreshWindow := by
  intro k n x s hin hunmapped hgrant
  have hbody : s.mapBody (.map k) k =
      (s.mapAsked.mapWindow k).complete (.map k) (.ok (.handle k ((s.window k).gen + 1))) := by
    simp [State.mapBody, hunmapped, hgrant]
  have hwin := s.mapAsked.window_mapWindow k
  have hstored := s.mapAsked.stored_mapWindow k
  refine ⟨_, hbody ▸ exec_map_inOp hin, ?_, fun k' hk => ?_, fun o => ?_, fun k' o hk => ?_, fun hk => ?_,
    fun hk => ?_, ?_, by simp, by simp, by simp, by simp, by simp⟩
  · exact (hwin k).trans (State.window_setWindow_self _ _ _)
  · exact (hwin k').trans (State.window_setWindow_other _ _ hk)
  · exact (hstored k o).trans (if_pos rfl)
  · exact (hstored k' o).trans (if_neg hk)
  · subst hk
    exact ⟨rfl, s.dev.pullOf_forget_gpio⟩
  · subst hk
    exact ⟨rfl, rfl⟩
  · cases k <;> rfl

end Sys2Proof.Machine
end

section
/-! SUPPORT. Every access the engine can make, said once (42_bus_engine.md R284, R285), and what follows of the words it
writes (30_encoding.md R157, R158). -/

namespace Sys2Proof.Machine

/-- The accesses on BSC that engine record `e` can give rise to: offset, direction and word. -/
inductive Engine.Access (e : Engine) : Nat → Dir → Word → Prop where
  | status (v : Word) : e.Access offS .read v
  | pop (v : Word) : e.Access offFifo .read v
  | address : e.Access offA .write (zextByte e.dev)
  | writeLength : e.Access offDlen .write (BitVec.ofNat 32 (e.wbuf.length + 1))
  | readLength : e.Access offDlen .write (e.len.setWidth 32)
  | push (b : Byte) : e.Access offFifo .write (zextByte b)
  | clearStatus : e.Access offS .write clearStatus
  | startWrite : e.Access offC .write startWrite
  | startRead : e.Access offC .write startRead
  | abort : e.Access offC .write abortCtrl

/-- A step of a bus operation: what stands behind the GPIO span is left alone, and an access it appends is one of the
engine's. -/
structure State.BscOnly (s t : State) : Prop where
  gpioStore : t.dev.gpioStore = s.dev.gpioStore
  pull : t.dev.pull = s.dev.pull
  pud : t.dev.pud = s.dev.pud
  access : ∀ c k o d v, t.hist = s.hist ++ [.access c k o d v] → k = .bsc ∧ s.eng.Access o d v

/-- A step that leaves the device alone and appends no access. -/
theorem State.BscOnly.of_same_dev {s t : State} (hd : t.dev = s.dev)
    (ha : ∀ c k o d v, t.hist ≠ s.hist ++ [.access c k o d v]) : s.BscOnly t :=
  ⟨by rw [hd], by rw [hd], by rw [hd], fun c k o d v h => absurd h (ha c k o d v)⟩

theorem State.BscOnly.stop (s : State) (x : Stop) : s.BscOnly (s.stop x) :=
  .of_same_dev (by simp) (by simp)

/-- A write of a BSC register keeps the words written to GPIO. -/
theorem State.writeAccess_bsc_gpioStore (s : State) (o : Nat) (v : Word) :
    (s.writeAccess .bsc o v).dev.gpioStore = s.dev.gpioStore := by
  rw [State.writeAccess_dev]
  unfold DeviceState.keep
  split <;> exact s.dev.act_store s.par.device .bsc .gpio o v

section EngineStep

variable {s : State}

/-- An engine write, whatever the engine does next. -/
theorem State.BscOnly.regWrite {o : Nat} {v : Word} (ha : s.eng.Access o .write v) {f : State → State}
    (hf : ∀ u, (f u).dev = u.dev ∧ (f u).hist = u.hist) : s.BscOnly (s.regWrite .bsc o v f) := by
  rcases regWrite_cases s .bsc o v f with ⟨x, ht⟩ | ⟨-, ht⟩ <;> rw [ht]
  · exact .stop s x
  · obtain ⟨hd, hh⟩ := hf (s.writeAccess .bsc o v)
    refine ⟨?_, ?_, ?_, fun c k o' d w h => ?_⟩
    · rw [hd, s.writeAccess_bsc_gpioStore]
    · rw [hd, State.writeAccess_dev, DeviceState.keep_pull, DeviceState.act_pull _ _ _ _ _ (by simp)]
    · rw [hd, State.writeAccess_dev, DeviceState.keep_pud, DeviceState.act_pud _ _ _ _ _ (by simp)]
    · simp only [hh, State.writeAccess_hist, List.append_cancel_left_eq, List.cons.injEq, Event.access.injEq,
        and_true] at h
      obtain ⟨-, rfl, rfl, rfl, rfl⟩ := h
      exact ⟨rfl, ha⟩

/-- An engine read, whatever the engine does next. -/
theorem State.BscOnly.regRead {o : Nat} (ha : ∀ v, s.eng.Access o .read v) {f : Word → State → State}
    (hf : ∀ v u, (f v u).dev = u.dev ∧ (f v u).hist = u.hist) : s.BscOnly (s.regRead .bsc o f) := by
  rcases regRead_cases s .bsc o f with ⟨x, ht⟩ | ⟨-, ht⟩ <;> rw [ht]
  · exact .stop s x
  · obtain ⟨hd, hh⟩ := hf (s.deviceRead .bsc o).1 (s.readAccess .bsc o)
    refine ⟨by simp [hd], by simp [hd], by simp [hd], fun c k o' d w h => ?_⟩
    simp only [hh, State.readAccess_hist, List.append_cancel_left_eq, List.cons.injEq, Event.access.injEq,
      and_true] at h
    obtain ⟨-, rfl, rfl, rfl, rfl⟩ := h
    exact ⟨rfl, ha _⟩

theorem State.BscOnly.poll (test : Word → Phase) : s.BscOnly (s.poll test) := by
  unfold State.poll
  split
  · exact .regWrite .abort fun u => ⟨rfl, rfl⟩
  · exact .regRead .status fun v u => ⟨rfl, rfl⟩

theorem State.BscOnly.engineStep {t : State} {i : Instr} (hx : s.engineStep i = some t) : s.BscOnly t := by
  cases hp : s.eng.phase <;> simp only [State.engineStep, hp, Option.some.injEq, reduceCtorEq] at hx <;> subst hx
  case wA => exact .regWrite .address fun u => ⟨rfl, rfl⟩
  case wDlen => exact .regWrite .writeLength fun u => ⟨rfl, rfl⟩
  case wFifo k => exact .regWrite (.push _) fun u => ⟨rfl, rfl⟩
  case wClr | rClr | abS => exact .regWrite .clearStatus fun u => ⟨rfl, rfl⟩
  case wGo => exact .regWrite .startWrite fun u => ⟨rfl, rfl⟩
  case rDlen => exact .regWrite .readLength fun u => ⟨rfl, rfl⟩
  case rGo => exact .regWrite .startRead fun u => ⟨rfl, rfl⟩
  case abC => exact .regWrite .abort fun u => ⟨rfl, rfl⟩
  case wWait | rWait | rCpoll | rDpoll | rFpoll => exact .poll _
  case rCfifo | rFfifo => exact .regRead .pop fun v u => ⟨rfl, rfl⟩
  case endOk | endTimeout | endErr => exact .of_same_dev rfl (by simp)

end EngineStep

theorem State.startOf_dev (s : State) (i : Instr) : (s.startOf i).dev = s.dev := by
  rcases s.startOf_cases i with ⟨r, -, ht⟩ | ⟨-, -, ht⟩ | ⟨-, -, -, ht⟩ | ⟨-, -, ht⟩ <;> simp [ht]

theorem State.startOf_hist (s : State) (i : Instr) : (s.startOf i).hist = s.hist ++ [.start s.cur i] := by
  rcases s.startOf_cases i with ⟨r, -, ht⟩ | ⟨-, -, ht⟩ | ⟨-, -, -, ht⟩ | ⟨-, -, ht⟩ <;> simp [ht]

theorem exec_bscOnly {i : Instr} {s t : State} (hb : isBusOp i = true) (hx : exec i s = .next t) : s.BscOnly t := by
  rcases exec_next hx with ⟨-, rfl⟩ | ⟨m, -, -, -, hgo⟩
  · exact .of_same_dev (s.startOf_dev i) (by simp [State.startOf_hist])
  · exact .engineStep (hgo.engineStep hb).2

/-- Settles O38: each access of the engine is of the forms the rules allow (`Engine.Access`). -/
theorem engineWritesOnlyItsControlWords : Obligations.EngineWritesOnlyItsControlWords := by
  intro i s t hb hx
  have hbsc := exec_bscOnly hb hx
  refine ⟨⟨hbsc.gpioStore, hbsc.pull, hbsc.pud⟩, fun k o d v hh => ?_⟩
  obtain ⟨hk, ha⟩ := hbsc.access _ k o d v hh
  refine ⟨hk, fun hd => ?_, fun hd => ?_⟩
  · cases ha <;> simp at hd ⊢
  · cases ha <;> simp [clearStatus, startWrite, startRead, abortCtrl] at hd ⊢

end Sys2Proof.Machine
end

section
/-! SUPPORT. The registers' classes and reserved bits, and that what the block writes of its own accord has 0 in them
(10_state.md R57, R58; 30_encoding.md R141 to R155, R173). -/

namespace Sys2Proof.Machine

open Sys2Proof.Claims

/-- Settles O4, by the classes' own case split on the offset. -/
theorem accessClassesFollowTheRegisterMaps : Obligations.AccessClassesFollowTheRegisterMaps := by
  constructor <;> intro o
  · have hstore : o ∈ [0, 1, 2, 3, 4, 5, 37, 38] ↔ o ≤ 5 ∨ o = 37 ∨ o = 38 := by
      simp only [List.mem_cons, List.not_mem_nil, or_false]
      omega
    simp only [regClass, gpioClass, hstore, List.mem_cons, List.not_mem_nil, or_false]
  · simp only [regClass, bscClass, List.mem_cons, List.not_mem_nil, or_false]

theorem mem_of_gpio_not_reserved {o : Nat} (h : regClass .gpio o ≠ .reserved) :
    o ∈ [0, 1, 2, 3, 4, 5, 37, 38] ++ [13, 14] := by
  rw [accessClassesFollowTheRegisterMaps.1] at h
  split_ifs at h with hstore hread
  · exact List.mem_append_left _ hstore
  · exact List.mem_append_right _ hread
  · contradiction

theorem mem_of_bsc_not_reserved {o : Nat} (h : regClass .bsc o ≠ .reserved) : o ∈ [0, 3] ++ [1, 2, 4] := by
  rw [accessClassesFollowTheRegisterMaps.2] at h
  split_ifs at h with hstore hvolatile
  · exact List.mem_append_left _ hstore
  · exact List.mem_append_right _ hvolatile
  · contradiction

/-- The bits of a register that are not reserved are the complement of its reserved ones, register by register. -/
theorem fieldBits_getLsbD {k : WindowKind} {o n : Nat} (hn : n < 32) (h : regClass k o ≠ .reserved) :
    (fieldBits k o).getLsbD n = !reservedBit k o n := by
  have gpio : ∀ o ∈ [0, 1, 2, 3, 4, 5, 37, 38] ++ [13, 14], ∀ n < 32,
      (fieldBits .gpio o).getLsbD n = !reservedBit .gpio o n := by decide
  have bsc : ∀ o ∈ [0, 3] ++ [1, 2, 4], ∀ n < 32, (fieldBits .bsc o).getLsbD n = !reservedBit .bsc o n := by decide
  cases k with
  | gpio => exact gpio o (mem_of_gpio_not_reserved h) n hn
  | bsc => exact bsc o (mem_of_bsc_not_reserved h) n hn

/-- Word `v` has 0 in every reserved bit of its register. -/
def ReservedZero (k : WindowKind) (o : Nat) (v : Word) : Prop := ∀ n, reservedBit k o n = true → v.getLsbD n = false

/-- A word has 32 bits. -/
theorem ReservedZero.of_bits {k : WindowKind} {o : Nat} {v : Word}
    (h : ∀ n < 32, reservedBit k o n = true → v.getLsbD n = false) : ReservedZero k o v := by
  intro n hr
  by_cases hn : n < 32
  · exact h n hn hr
  · exact BitVec.getLsbD_of_ge _ _ (Nat.le_of_not_lt hn)

/-- A word below `2 ^ w`, where no bit below `w` is reserved. -/
theorem ReservedZero.of_toNat_lt {k : WindowKind} {o : Nat} {v : Word} (w : Nat) (hv : v.toNat < 2 ^ w)
    (h : ∀ n < w, reservedBit k o n = false) : ReservedZero k o v := by
  intro n hr
  have hn : w ≤ n := by
    by_contra hlt
    simp [h n (Nat.lt_of_not_le hlt)] at hr
  exact Nat.testBit_lt_two_pow (Nat.lt_of_lt_of_le hv (Nat.pow_le_pow_right (by decide) hn))

/-- The word of a clearing operation, under the setting that writes reserved bits as 0. -/
theorem ReservedZero.cleared {p : Params} (hp : p.reservedBits = .zero) {k : WindowKind} {o : Nat} (x m : Word)
    (h : regClass k o ≠ .reserved) : ReservedZero k o (p.cleared k o x m) :=
  .of_bits fun n hn hr => p.cleared_reserved x m hp (by rw [fieldBits_getLsbD hn h, hr]; rfl)

/-- Every word the engine writes, in a state of the invariant. -/
theorem Engine.Access.reservedZero {e : Engine} {b : Nat} (he : e.Inv b) {o : Nat} {v : Word}
    (h : e.Access o .write v) : ReservedZero .bsc o v := by
  cases h with
  | address =>
    have hdev : (zextByte e.dev).toNat < 2 ^ 7 := by
      have := he.dev_fits
      simp only [zextByte, BitVec.toNat_setWidth]
      omega
    exact .of_toNat_lt 7 hdev (by decide)
  | writeLength =>
    have hlen : (BitVec.ofNat 32 (e.wbuf.length + 1)).toNat < 2 ^ 16 := by
      have := he.payload_fits
      simp only [BitVec.toNat_ofNat]
      omega
    exact .of_toNat_lt 16 hlen (by decide)
  | readLength =>
    have hlen : (e.len.setWidth 32).toNat < 2 ^ 16 := by
      have := e.len.isLt
      simp only [BitVec.toNat_setWidth]
      omega
    exact .of_toNat_lt 16 hlen (by decide)
  | push b =>
    have hbyte : (zextByte b).toNat < 2 ^ 8 := by
      have := b.isLt
      simp only [zextByte, BitVec.toNat_setWidth]
      omega
    exact .of_toNat_lt 8 hbyte (by decide)
  | clearStatus | startWrite | startRead | abort => exact .of_bits (by decide)

theorem State.mapBody_hist (s : State) (i : Instr) (k : WindowKind) :
    ∃ r, (s.mapBody i k).hist = s.hist ++ [.done s.cur i r] := by
  rcases s.mapBody_cases i k with ⟨-, ht⟩ | ⟨-, -, ht⟩ | ⟨-, -, ht⟩
  · exact ⟨.err .mapError, by simp [ht]⟩
  · exact ⟨.ok (.handle k ((s.window k).gen + 1)), by simp [ht]⟩
  · exact ⟨.err .mapError, by simp [ht]⟩

/-- Every window and GPIO operation but `map` and `unmap` has a fixed sequence. -/
theorem scriptOf_isSome {i : Instr} (p : Params) (hb : isBusOp i = false) (hm : ∀ k, i ≠ .map k ∧ i ≠ .unmap k) :
    ∃ f, scriptOf p i = some f := by
  cases i with
  | map k => exact absurd rfl (hm k).1
  | unmap k => exact absurd rfl (hm k).2
  | busWrite | busRead => contradiction
  | _ => exact ⟨_, rfl⟩

/-- A step of a fixed sequence that appends a write performed that write, and it passed the access check. -/
theorem State.perform_write {s : State} {i : Instr} {a : Act} {c : Nat} {k : WindowKind} {o : Nat} {v : Word}
    (h : (s.perform i a).hist = s.hist ++ [.access c k o .write v]) : a = .write k o v ∧ s.Writable k o := by
  rcases s.perform_cases i a with ⟨x, ht⟩ | ⟨k', o', -, -, ht⟩ | ⟨k', o', w, ha, hw, ht⟩ | ⟨us, -, ht⟩ | ⟨r, -, ht⟩ <;>
    rw [ht] at h
  · simp at h
  · simp at h
  · simp only [State.writeAccess_hist, List.append_cancel_left_eq, List.cons.injEq, Event.access.injEq, and_true] at h
    obtain ⟨-, rfl, rfl, -, rfl⟩ := h
    exact ⟨ha, hw⟩
  · simp at h
  · simp at h

/-- A register write of a window or GPIO operation is one of its sequence's, and it passed the access check. -/
theorem exec_write {i : Instr} {s t : State} {c : Nat} {k : WindowKind} {o : Nat} {v : Word} (hb : isBusOp i = false)
    (hx : exec i s = .next t) (hh : t.hist = s.hist ++ [.access c k o .write v]) :
    ∃ f n x, scriptOf s.par i = some f ∧ f n x = .write k o v ∧ s.Writable k o := by
  rcases exec_next hx with ⟨-, rfl⟩ | ⟨m, hm, hstop, hop, hgo⟩
  · simp [State.startOf_hist] at hh
  · cases hgo with
    | script a _ hmap _ _ =>
      obtain ⟨f, hf⟩ := scriptOf_isSome s.par hb hmap
      have ht := (exec_inOp hf ⟨m, hm, hstop, hop, rfl, rfl⟩ rfl).symm.trans hx
      rw [Host.Outcome.next.injEq] at ht
      obtain ⟨hact, hw⟩ := State.perform_write (ht ▸ hh)
      exact ⟨f, m.step, m.val, hf, hact, hw⟩
    | map k' _ ht =>
      obtain ⟨r, hr⟩ := s.mapBody_hist i k'
      simp [ht, hr] at hh
    | unmap k' _ ht =>
      rcases s.unmapBody_cases i k' with ⟨x, hu⟩ | ⟨-, -, -, hu⟩ <;> simp [ht, hu] at hh
    | bus hb' _ _ => simp [hb] at hb'

/-- The writes of the fixed sequences whose client does not choose the bits. -/
theorem scriptOf_write_reservedZero {i : Instr} {p : Params} {f : Nat → Word → Act} {n : Nat} {x : Word}
    {k : WindowKind} {o : Nat} {v : Word} (hc : choosesBits i = false) (hp : p.reservedBits = .zero) (hf : scriptOf p i = some f)
    (hact : f n x = .write k o v) (hk : regClass k o ≠ .reserved) : ReservedZero k o v := by
  cases i <;> simp only [scriptOf, Option.some.injEq, reduceCtorEq] at hf <;> subst hf <;>
    dsimp only at hact
  case clearBits | configureAsInput =>
    split_ifs at hact
    obtain ⟨rfl, rfl, rfl⟩ := Act.write.inj hact
    exact .cleared hp x _ hk
  case enablePullups m =>
    split_ifs at hact <;> obtain ⟨rfl, rfl, rfl⟩ := Act.write.inj hact
    · exact .of_bits (by decide)
    · exact .of_bits (by simp [reservedBit, offGppudclk0])
    · exact .of_bits (by simp)
    · exact .of_bits (by simp)
  case readWord | getField | delayUs | readPin => split_ifs at hact
  all_goals contradiction

/-- Settles O60: the reserved bits register by register, and then the writes by who makes them, the engine or a fixed
sequence. -/
theorem blockWritesZeroToReservedBits : Obligations.BlockWritesZeroToReservedBits := by
  refine ⟨fun k o n hn hk => fieldBits_getLsbD hn hk, fun i s t k o v hi hp hx hh hc => ?_⟩
  cases hb : isBusOp i with
  | true =>
    obtain ⟨rfl, ha⟩ := (exec_bscOnly hb hx).access _ k o .write v hh
    exact ha.reservedZero hi.engine
  | false =>
    obtain ⟨f, n, x, hf, hact, hw⟩ := exec_write hb hx hh
    exact scriptOf_write_reservedZero hc hp hf hact hw.2

end Sys2Proof.Machine
end

section
/-! SUPPORT. What can change a pin's pull (10_state.md R63; 41_gpio_fields.md R263). -/

namespace Sys2Proof.Machine

/-- Only a pending handshake's mask, cleared, latches. -/
theorem DeviceState.writeMask_pull_ne {d : DeviceState} {v : Word} (h : (d.writeMask v).pull ≠ d.pull) :
    v = 0#32 ∧ ∃ c m a b, d.pud = .clk c m a b := by
  unfold DeviceState.writeMask at h
  split at h
  next hv =>
    refine ⟨hv, ?_⟩
    cases hpud : d.pud with
    | clk c m a b => exact ⟨c, m, a, b, rfl⟩
    | none | sel => simp [hpud] at h
  next => contradiction

/-- A step of a fixed sequence that changes a pull latches it. -/
theorem State.perform_pull {s : State} {i : Instr} {a : Act} (h : (s.perform i a).dev.pull ≠ s.dev.pull) :
    (∃ c m x y, s.dev.pud = .clk c m x y) ∧
      (s.perform i a).hist = s.hist ++ [.access s.cur .gpio offGppudclk0 .write 0#32] := by
  rcases s.perform_cases i a with ⟨x, ht⟩ | ⟨k, o, -, -, ht⟩ | ⟨k, o, v, -, -, ht⟩ | ⟨us, -, ht⟩ | ⟨r, -, ht⟩ <;>
    rw [ht] at h ⊢
  · simp at h
  · simp at h
  · rw [State.writeAccess_dev, DeviceState.keep_pull] at h
    have hmask : k = .gpio ∧ o = offGppudclk0 := by
      by_contra hne
      exact h (s.dev.act_pull _ k o v hne)
    obtain ⟨rfl, rfl⟩ := hmask
    obtain ⟨rfl, hpud⟩ := DeviceState.writeMask_pull_ne h
    exact ⟨hpud, rfl⟩
  · exact absurd rfl h
  · exact absurd rfl h

/-- `map` changes a pull only where it is granted the GPIO window. -/
theorem State.mapBody_pull {s : State} {i : Instr} {k : WindowKind} (h : (s.mapBody i k).dev.pull ≠ s.dev.pull) :
    k = .gpio ∧ ∃ g, (s.mapBody i k).hist = s.hist ++ [.done s.cur i (.ok (.handle .gpio g))] := by
  rcases s.mapBody_cases i k with ⟨-, ht⟩ | ⟨-, -, ht⟩ | ⟨-, -, ht⟩ <;> rw [ht] at h ⊢
  · exact absurd rfl h
  · cases k with
    | gpio => exact ⟨rfl, _, rfl⟩
    | bsc => exact absurd rfl h
  · exact absurd rfl h

theorem exec_pull {i : Instr} {s t : State} (hx : exec i s = .next t) (h : t.dev.pull ≠ s.dev.pull) :
    ((∃ c m a b, s.dev.pud = .clk c m a b) ∧ t.hist = s.hist ++ [.access s.cur .gpio offGppudclk0 .write 0#32]) ∨
      ∃ g, t.hist = s.hist ++ [.done s.cur (.map .gpio) (.ok (.handle .gpio g))] := by
  rcases exec_next hx with ⟨-, rfl⟩ | ⟨m, -, -, -, hgo⟩
  · rw [s.startOf_dev i] at h
    contradiction
  · cases hgo with
    | script a _ _ _ ht => exact .inl (ht ▸ State.perform_pull (ht ▸ h))
    | map k hi ht =>
      subst ht
      obtain ⟨rfl, g, hg⟩ := State.mapBody_pull h
      exact .inr ⟨g, hi ▸ hg⟩
    | unmap k _ ht => rcases s.unmapBody_cases i k with ⟨x, hu⟩ | ⟨-, -, -, hu⟩ <;> simp [ht, hu] at h
    | bus hb _ _ => exact absurd (exec_bscOnly hb hx).pull h

/-- Settles O29: neither the turn nor a bad call touches the device, and a step of an operation changes a pull in these
two ways only. -/
theorem pullChangesOnlyAtALatch : Obligations.PullChangesOnlyAtALatch := by
  intro s t h hne
  obtain ⟨u, hu, ⟨i, hx⟩ | ⟨-, rfl⟩⟩ := step_turnGiven h
  · rw [← hu.dev] at hne ⊢
    rw [(exec_move hx).cur, ← hu.hist]
    exact exec_pull hx hne
  · simp [hu.dev] at hne

end Sys2Proof.Machine
end

section
/-! SUPPORT. The reset state meets the invariants (10_state.md R90; 70_reset_and_hazards.md R390). -/

namespace Sys2Proof.Machine

theorem reset_places : State.reset.PlacesInv where
  gpio_base := rfl
  gpio_size := rfl
  bsc_base := rfl
  bsc_size := rfl
  some_client := by decide
  base_aligned := by decide
  budget := by decide
  rdm_rate := by decide

theorem reset_device_inv : DeviceState.reset.Inv where
  gpio_rising := .nil
  bsc_rising := .nil
  gpio_stored := by decide
  bsc_stored := by decide
  pull_length := rfl
  tx_fits := by decide
  rx_fits := by decide
  targets_rising := .nil
  targets_wf := by decide

/-- The engine at driver load fits any budget, and a released engine that fits is in the invariant. -/
theorem reset_engine_inv (budget : Nat) : Engine.reset.Inv budget :=
  Engine.Fits.released (e := Engine.reset)
    ⟨by decide, by decide, rfl, Nat.le_refl _, fun _ _ => rfl, Nat.zero_le _, fun h => by contradiction⟩

/-- At driver load the engine has no owner and every client is as `ClientState.reset`. -/
theorem reset_clients : State.reset.ClientsInv := by
  have hclient : ∀ m ∈ State.reset.clients, m = ClientState.reset := by decide
  have hat : ∀ {c m}, State.reset.clients[c]? = some m → m = ClientState.reset :=
    fun h => hclient _ (List.mem_of_getElem? h)
  refine ⟨fun c h => by contradiction, fun c m i hm hop => ?_, fun m hm _ => ?_, fun f hf => by contradiction,
    fun c m code info hm hstop => ?_, fun m hm r hstop => ?_⟩
  · rw [hat hm] at hop
    contradiction
  · rw [hclient m hm]
    exact ⟨rfl, rfl⟩
  · rw [hat hm] at hstop
    contradiction
  · rw [hclient m hm] at hstop
    contradiction

/-- Settles O51: the invariant's four parts, and an idle engine, whose buffer nothing is claimed of. -/
theorem resetMeetsTheInvariant : Obligations.ResetMeetsTheInvariant :=
  ⟨⟨reset_places, reset_device_inv, reset_engine_inv _, reset_clients⟩, .of_not_receiving rfl⟩

end Sys2Proof.Machine
end

section
/-! SUPPORT. Every access in the history passed the access check at the state it was made from (20_memory.md R115;
40_register_window.md R205). -/

namespace Sys2Proof.Machine

/-- A move that appends an access is a read or a write of the acting client's, and it passed its check. -/
theorem Move.access_admitted {i : Instr} {s t : State} (h : Move i s t) {c : Nat} {k : WindowKind} {o : Nat} {d : Dir}
    {v : Word} (hh : t.hist = s.hist ++ [.access c k o d v]) :
    c = s.cur ∧ s.Readable k o ∧ (d = .write → regClass k o ≠ .reserved) := by
  cases h with
  | read k' o' e _ hr _ ht =>
    simp only [ht, State.readAccess_hist, List.append_cancel_left_eq, List.cons.injEq, Event.access.injEq] at hh
    obtain ⟨⟨rfl, rfl, rfl, rfl, -⟩, -⟩ := hh
    exact ⟨rfl, hr, by simp⟩
  | write k' o' w e _ hw _ ht =>
    simp only [ht, State.writeAccess_hist, List.append_cancel_left_eq, List.cons.injEq, Event.access.injEq] at hh
    obtain ⟨⟨rfl, rfl, rfl, -, -⟩, -⟩ := hh
    exact ⟨rfl, hw.1, fun _ => hw.2⟩
  | complete u r _ _ hu ht => simp [ht, hu.hist] at hh
  | start _ _ ht | startStop _ _ ht | claim _ _ _ _ ht | stop _ _ ht | delay _ _ ht | release _ _ _ _ ht =>
    simp [ht] at hh

/-- Settles O21: the access is a move of the client given the turn, and giving the turn moves neither the windows nor the
engine, which is all that the check looks at. -/
theorem everyAccessPassedItsCheck : Obligations.EveryAccessPassedItsCheck := by
  intro s t c k o d v h hh
  obtain ⟨u, hu, ⟨i, hx⟩ | ⟨-, rfl⟩⟩ := step_turnGiven h
  · rw [← hu.hist] at hh
    obtain ⟨rfl, ⟨hmapped, hsize, hfree⟩, hreserved⟩ := (exec_move hx).access_admitted hh
    rw [State.window_congr hu.win] at hmapped hsize
    rw [hu.eng] at hfree
    exact ⟨(exec_move hx).cur.symm, hmapped, hsize, hfree, hreserved⟩
  · simp [hu.hist] at hh

end Sys2Proof.Machine
end

section
/-! SUPPORT. The decoder against the encoder (30_encoding.md R165, R170 to R172), and the step that meets a call of no
operation. -/

namespace Sys2Proof

/-- The fourteen selectors of the operation map (30_encoding.md R170). -/
def mapSelectors : List Nat :=
  [0x01, 0x02, 0x10, 0x11, 0x12, 0x13, 0x14, 0x15, 0x18, 0x20, 0x21, 0x22, 0x30, 0x31]

theorem decode_encode (i : Instr) : decode (encode i) = .ok i := by cases i <;> rfl

/-- Each row of the decoder's match fixes the selector's number and the record, and a byte is known by its number. -/
theorem eq_encode_of_decode {c : Call} {i : Instr} (h : decode c = .ok i) : c = encode i := by
  obtain ⟨selector, args⟩ := c
  unfold decode at h
  split at h
  case h_15 => split at h <;> contradiction
  all_goals
    next hselector hargs =>
      subst hargs
      cases h
      exact congrArg (Call.mk · _) (BitVec.eq_of_toNat_eq hselector)

/-- Settles O1: both directions, the encoded call by cases on the operation and the decoded one by cases on the row. -/
theorem decodeReadsExactlyTheEncodedCalls : Obligations.DecodeReadsExactlyTheEncodedCalls :=
  fun _ i => ⟨eq_encode_of_decode, fun h => h ▸ decode_encode i⟩

/-- Settles O2: each row's word is a selector, its record the zero one of its format. -/
theorem tableSelectorsDecodeToTheirOperations : Obligations.TableSelectorsDecodeToTheirOperations :=
  ⟨rfl, rfl, rfl, rfl, rfl, rfl, rfl, rfl, rfl, rfl, rfl, rfl, rfl, rfl⟩

theorem encode_selector_mem (i : Instr) : (encode i).selector.toNat ∈ mapSelectors := by
  cases i <;> simp [encode, mapSelectors]

/-- A selector in no row has no format. -/
theorem formatOf_none {selector : Byte} (h : selector.toNat ∉ mapSelectors) : formatOf selector = none := by
  unfold formatOf
  split
  case h_15 => rfl
  all_goals
    next hselector =>
      rw [hselector] at h
      exact absurd (by decide) h

/-- A call that spells no operation is rejected by the reason its selector gives. -/
theorem decode_error {c : Call} {e : DecodeError} (h : decode c = .error e) :
    e = if (formatOf c.selector).isSome then .badRecord else .badSelector := by
  unfold decode at h
  split at h
  case h_15 => split at h <;> next hformat => simpa [hformat] using h.symm
  all_goals contradiction

/-- An encoded call has a selector of the map, so this one is rejected, and its selector has no format. -/
theorem decode_badSelector {c : Call} (h : c.selector.toNat ∉ mapSelectors) : decode c = .error .badSelector := by
  cases hd : decode c with
  | ok i => exact absurd (eq_encode_of_decode hd ▸ encode_selector_mem i) h
  | error e => simp [decode_error hd, formatOf_none h]

end Sys2Proof

namespace Sys2Proof.Machine

/-- The step of a client whose next call spells no operation takes the call and refuses it (30_encoding.md R172). -/
theorem step_of_decode_error {s : State} {c : Nat} {rest : List Nat} {m : ClientState} {call : Call}
    {calls : List Call} {e : DecodeError} (hp : s.pick = some (c, rest)) (hm : s.clients[c]? = some m)
    (hop : m.op = none) (hq : m.prog = call :: calls) (hd : decode call = .error e) :
    step s =
      .next (((s.turnTo c rest).updMe fun m => { m with prog := calls }).stop (.refuse .badSelector)) := by
  simp only [step, State.fetch, hp, hm, hop, hq, hd]

/-- Settles O3: the call decodes to `badSelector`, and what the step does then is a stop of the client that took it. -/
theorem selectorOutsideTheMapSetsTheRefusalMark : Obligations.SelectorOutsideTheMapSetsTheRefusalMark := by
  refine ⟨fun c h => decode_badSelector h, fun s c rest m call calls hp hm hop hq h => ?_⟩
  refine ⟨_, step_of_decode_error hp hm hop hq (decode_badSelector h), rfl, rfl, rfl, rfl, rfl, rfl, ?_⟩
  simp [hm]

end Sys2Proof.Machine
end

section
/-! SUPPORT. Bit-field assembly, bit by bit (30_encoding.md R142, R166 to R168; 40_register_window.md R213, R214). -/

namespace Sys2Proof.Machine

/-- The mask of a field that fits is 1 exactly on the field's places. -/
theorem fieldMask_getLsbD {lsb w : Nat} (h : lsb + w ≤ 32) (n : Nat) :
    (fieldMask lsb w).getLsbD n = decide (lsb ≤ n ∧ n < lsb + w) := by
  have hfield : (lsb ≤ n ∧ n < lsb + w) ↔ (n < 32 ∧ lsb ≤ n ∧ n - lsb < w) := by omega
  simp only [fieldMask, BitVec.getLsbD_ofNat, Nat.testBit_mul_two_pow, Nat.testBit_two_pow_sub_one, hfield,
    Bool.decide_and]

/-- A value that fits `w` bits has no bit at `w` or above. -/
theorem getLsbD_of_toNat_lt {v : Word} {w k : Nat} (hv : v.toNat < 2 ^ w) (hk : w ≤ k) : v.getLsbD k = false :=
  Nat.testBit_lt_two_pow (Nat.lt_of_lt_of_le hv (Nat.pow_le_pow_right (by decide) hk))

/-- A value that fits its field, moved to the field's place, has bits there only. -/
theorem shiftLeft_getLsbD_of_fits {v : Word} {lsb w : Nat} (h : lsb + w ≤ 32) (hv : v.toNat < 2 ^ w) (n : Nat) :
    (v <<< lsb).getLsbD n = (decide (lsb ≤ n ∧ n < lsb + w) && v.getLsbD (n - lsb)) := by
  rw [BitVec.getLsbD_shiftLeft]
  by_cases hlsb : lsb ≤ n
  · by_cases hin : n < lsb + w
    · have hn : n < 32 := by omega
      simp [hlsb, hin, hn]
    · simp [getLsbD_of_toNat_lt hv (k := n - lsb) (by omega)]
  · simp [hlsb, Nat.lt_of_not_le hlsb]

/-- Inside the field the new word shows the value, outside the old word. -/
theorem fieldSet_getLsbD {x v : Word} {lsb w : Nat} (h : lsb + w ≤ 32) (hv : v.toNat < 2 ^ w) (n : Nat) :
    (fieldSet x lsb w v).getLsbD n = if lsb ≤ n ∧ n < lsb + w then v.getLsbD (n - lsb) else x.getLsbD n := by
  simp only [fieldSet, BitVec.getLsbD_or, BitVec.getLsbD_and, BitVec.getLsbD_not, shiftLeft_getLsbD_of_fits h hv,
    fieldMask_getLsbD h]
  by_cases hin : lsb ≤ n ∧ n < lsb + w
  · simp [hin]
  · simpa [hin] using BitVec.lt_of_getLsbD

theorem fieldGet_getLsbD (x : Word) (lsb w n : Nat) :
    (fieldGet x lsb w).getLsbD n = (x.getLsbD (lsb + n) && (decide (n < 32) && decide (n < w))) := by
  simp only [fieldGet, BitVec.getLsbD_and, BitVec.getLsbD_ushiftRight, BitVec.getLsbD_ofNat,
    Nat.testBit_two_pow_sub_one]

/-- A field that was set reads back. -/
theorem fieldGet_fieldSet {x v : Word} {lsb w : Nat} (h : lsb + w ≤ 32) (hv : v.toNat < 2 ^ w) :
    fieldGet (fieldSet x lsb w v) lsb w = v := by
  refine BitVec.eq_of_getLsbD_eq fun n hn => ?_
  rw [fieldGet_getLsbD, fieldSet_getLsbD h hv]
  by_cases hw : n < w
  · simp [hw, hn]
  · simp [hw, getLsbD_of_toNat_lt hv (Nat.le_of_not_lt hw)]

/-- Settles O5: the new word bit by bit, and the field read back. -/
theorem setFieldKeepsTheOtherBits : Obligations.SetFieldKeepsTheOtherBits :=
  fun _ _ _ _ _ h hv => ⟨fieldSet_getLsbD h hv, fieldGet_fieldSet h hv⟩

/-- Settles O6: ten fields of three bits fit a word, so a pin's mask is that of a field that fits. -/
theorem modeMaskCoversThePinsThreeBits : Obligations.ModeMaskCoversThePinsThreeBits :=
  fun p n _ => ⟨rfl, fieldMask_getLsbD (by omega) n⟩

end Sys2Proof.Machine
end

section
/-! SUPPORT. A write of a pull register against the tables of the handshake (41_gpio_fields.md R262). -/

namespace Sys2Proof.Machine

open Sys2Proof.Claims

/-- The select code is the low two bits. -/
theorem pudCode_eq (v : Word) : pudCode v = v.extractLsb' 0 2 := by
  simp [pudCode, BitVec.setWidth_eq_extractLsb']

theorem pudSelect_eq (v : Word) (p : PudPhase) : pudSelect v p = selected v p := by
  cases p <;> simp [pudSelect, selected, pudCode_eq]

theorem DeviceState.writeMask_pud (d : DeviceState) (v : Word) :
    (d.writeMask v).pud = masked v (Cells.get? d.gpioStore offGppud) d.pud := by
  by_cases hv : v = 0#32
  · cases hp : d.pud <;> simp [DeviceState.writeMask, masked, hv, hp]
  · have hcode : pudCode = fun w => w.extractLsb' 0 2 := funext pudCode_eq
    cases hp : d.pud <;> simp [DeviceState.writeMask, masked, pudMask, hv, hp, hcode]

/-- The pull a latch gives: the decoded code after both settles, else unknown. -/
theorem pullOfCode_eq_latched (c : Option (BitVec 2)) (a b : Bool) :
    (if a && b then pullOfCode c else .unknown) = latched c a b := by
  have hcode : ∀ c, pullOfCode c = latched c true true := by decide
  cases a <;> cases b <;> simp [latched, hcode]

/-- Only zero written to a pending mask moves the pins. -/
theorem DeviceState.writeMask_pullOf (d : DeviceState) (v : Word) {p : Nat} (h : p < d.pull.length) :
    (d.writeMask v).pullOf p =
      match d.pud with
      | .clk c m a b => if v = 0#32 ∧ m.getLsbD p = true then latched c a b else d.pullOf p
      | .none => d.pullOf p
      | .sel _ _ => d.pullOf p := by
  by_cases hv : v = 0#32
  · cases hp : d.pud with
    | clk c m a b =>
      simp only [DeviceState.writeMask, DeviceState.pullOf, hv, hp, if_true, true_and, pullOfCode_eq_latched,
        latchPins_getD _ _ _ _ _ h, Nat.zero_add]
    | none | sel => simp only [DeviceState.writeMask, hv, hp, if_true]
  · cases hp : d.pud <;> simp only [DeviceState.writeMask, DeviceState.pullOf, hv, hp, if_false, false_and]

/-- An operation's admitted write, by the tables' word for it. -/
theorem exec_writeOf {i : Instr} {n : Nat} {k : WindowKind} {o : Nat} {v x : Word} {s : State} (hin : s.InOp i n x)
    (hwrite : writeOf s.par n x i = some (k, o, v)) (hw : s.Writable k o) :
    exec i s = .next (s.writeAccess k o v) := by
  obtain ⟨f, hf, hact⟩ := scriptOf_writeOf hwrite
  rw [exec_inOp hf hin hact, State.perform, regWrite_of_writable _ hw, id]

/-- Settles O28: whichever operation makes it, the write is the device's action on the register, which moves the
handshake by the table. -/
theorem pullRegistersMoveTheHandshake : Obligations.PullRegistersMoveTheHandshake := by
  intro i n v x s hin
  constructor
  · intro hwrite hw
    refine ⟨_, exec_writeOf hin hwrite hw, ?_, ?_⟩
    · rw [State.writeAccess_dev, DeviceState.keep_pud]
      exact pudSelect_eq v s.dev.pud
    · rw [State.writeAccess_dev, DeviceState.keep_pull]
      rfl
  · intro hwrite hw
    refine ⟨_, exec_writeOf hin hwrite hw, ?_, fun p hp => ?_⟩
    · rw [State.writeAccess_dev, DeviceState.keep_pud]
      exact s.dev.writeMask_pud v
    · rw [State.writeAccess_dev, DeviceState.pullOf, DeviceState.keep_pull]
      exact s.dev.writeMask_pullOf v hp

end Sys2Proof.Machine
end

section
/-! SUPPORT. What the reference device's registers show, bit by bit (41_gpio_fields.md R265; 42_bus_engine.md R326). -/

namespace Sys2Proof.Machine

open Sys2Proof.Claims

theorem flagAt_getLsbD (b : Bool) {k : Nat} (hk : k < 32) (n : Nat) :
    (flagAt b k).getLsbD n = (b && decide (n = k)) := by
  cases b with
  | false => simp [flagAt]
  | true =>
    rw [flagAt, if_pos rfl, ← BitVec.twoPow_eq, BitVec.getLsbD_twoPow]
    simp [hk, eq_comm]

/-- Settles O52: each flag stands at its own place only. -/
theorem referenceStatusShowsTheFlags : Obligations.ReferenceStatusShowsTheFlags := by
  intro b n
  simp only [statusWord, BitVec.getLsbD_or, flagAt_getLsbD, Nat.reduceLT, statusBit]
  split_ifs <;> simp_all

theorem DeviceState.gpioRead_gplev0 (d : DeviceState) : d.gpioRead 13 = d.levels.setWidth 32 := rfl

theorem DeviceState.gpioRead_gplev1 (d : DeviceState) : d.gpioRead 14 = (d.levels >>> 32).setWidth 32 := rfl

theorem DeviceState.gpioRead_reserved (d : DeviceState) {o : Nat} (h : regClass .gpio o = .reserved) :
    d.gpioRead o = 0#32 := by
  change gpioClass o = .reserved at h
  simp only [DeviceState.gpioRead, h]

theorem DeviceState.gpioRead_store (d : DeviceState) {o : Nat} (h : regClass .gpio o = .store) :
    d.gpioRead o =
      writable .gpio o &&& (Cells.get? d.gpioStore o).getD ((Cells.get? d.gpioStart o).getD 0#32) := by
  change gpioClass o = .store at h
  simp only [DeviceState.gpioRead, h, BitVec.and_comm]

/-- Settles O57: the two level words by their bits, every other register by its class. -/
theorem referenceGpioSpanReads : Obligations.ReferenceGpioSpanReads := by
  intro d n
  refine ⟨?_, ?_, fun o => ⟨d.gpioRead_reserved, fun h => ?_⟩⟩
  · simp [d.gpioRead_gplev0]
  · rw [d.gpioRead_gplev1, BitVec.getLsbD_setWidth, BitVec.getLsbD_ushiftRight, Nat.add_comm 32]
    by_cases hn : n < 22
    · simp [hn, show n < 32 by omega]
    · simp [hn, BitVec.getLsbD_of_ge d.levels (n + 32) (by omega)]
  · rw [d.gpioRead_store h]
    cases Cells.get? d.gpioStore o <;> cases Cells.get? d.gpioStart o <;> rfl

end Sys2Proof.Machine
end

section
/-! SUPPORT. The start step that refuses (60_exceptions.md R347, R348): the first failing operand check, and the state
it leaves. -/

namespace Sys2Proof.Machine

open Sys2Proof.Claims

/-- Of two checks in order, the first one that fails gives its reason. -/
theorem first_failing_check {p q failed : Prop} [Decidable p] [Decidable q] [Decidable failed] {a b : RefusalReason}
    (hfailed : failed ↔ ¬ p) (h : (if p then if q then none else some b else some a) ≠ none) :
    (if p then if q then none else some b else some a) = some (if failed then a else b) := by
  by_cases hp : p
  · have hq : ¬ q := fun hq => h (by rw [if_pos hp, if_pos hq])
    rw [if_pos hp, if_neg hq, if_neg fun hf => hfailed.1 hf hp]
  · rw [if_neg hp, if_pos (hfailed.2 hp)]

/-- Of an ill-formed operation the start step's check gives the reason of the table. -/
theorem operandCheck_of_not_wellFormed {i : Instr} (h : i.wellFormed = false) :
    operandCheck i = some (reasonOf i) := by
  have hsome : operandCheck i ≠ none := fun hn => by simp [(operandCheck_none i).1 hn] at h
  cases i with
  | getField | configureAsInput | readPin => exact if_neg fun hadmitted => hsome (if_pos hadmitted)
  | setField => exact first_failing_check (by omega) hsome
  | busWrite | busRead => exact first_failing_check Nat.not_lt.symm hsome
  | _ => contradiction

/-- A refused start: the start event, the mark, and the client stopped inside its operation. -/
theorem State.started_refuse (s : State) (i : Instr) (r : RefusalReason) :
    (s.started i).stop (.refuse r) =
      { s with
        hist := s.hist ++ [.start s.cur i]
        clients := s.clients.modify s.cur fun m =>
          { m with op := some i, step := 0, val := 0#32, stopped := some (.refuse r) }
        refused := true } := by
  simp only [State.stop, State.started, State.updMe, State.log, modify_modify]

/-- Settles O10: every check that fails is the table's, and the start step refuses by it. -/
theorem operandsOutsideTheirDomainAreRefused : Obligations.OperandsOutsideTheirDomainAreRefused := by
  intro i s hw hs
  have hcheck := operandCheck_of_not_wellFormed hw
  have hstart : s.startOf i = (s.started i).stop (.refuse (reasonOf i)) := by
    cases hb : isBusOp i <;> simp [State.startOf, State.startBus, State.startChecked, hb, hcheck]
  rw [exec_between i hs, hstart, State.started_refuse]

/-- Settles O13: the shape passes its check, so the reason of the refusal is the value's. -/
theorem wideFieldValueIsRefusedNotMasked : Obligations.WideFieldValueIsRefusedNotMasked := by
  intro k o lsb w v s hw hfit hwide hs
  have hill : (Instr.setField k o lsb w v).wellFormed = false := by simp [Instr.wellFormed, hwide]
  have hreason : reasonOf (.setField k o lsb w v) = .valueTooWide := if_neg (by omega)
  refine ⟨_, operandsOutsideTheirDomainAreRefused _ s hill hs, rfl, rfl, rfl, rfl, fun m hm => ?_⟩
  simp [hm, hreason]

end Sys2Proof.Machine
end

section
/-! SUPPORT. The delay steps (40_register_window.md R216; 41_gpio_fields.md R260, R262). -/

namespace Sys2Proof.Machine

open Sys2Proof.Claims

theorem pudSettle_eq (us : Nat) (p : PudPhase) : pudSettle us p = settled us p := by
  cases p <;> rfl

/-- The sequence makes the delay of the table after the table's count of steps. -/
theorem scriptOf_delayOf {i : Instr} {n us : Nat} (p : Params) (x : Word) (h : delayOf n i = some us) :
    ∃ f, scriptOf p i = some f ∧ f n x = .delay us := by
  cases i with
  | delayUs us' =>
    obtain ⟨rfl, rfl⟩ : n = 0 ∧ us' = us := by simpa [delayOf] using h
    exact ⟨_, rfl, rfl⟩
  | enablePullups m =>
    obtain ⟨rfl | rfl, rfl⟩ : (n = 1 ∨ n = 3) ∧ 10 = us := by simpa [delayOf] using h
    · exact ⟨_, rfl, rfl⟩
    · exact ⟨_, rfl, rfl⟩
  | _ => contradiction

/-- Settles O16: the operation's sequence makes the delay: one event and the settling of the handshake. -/
theorem delayStepOnlySettlesThePull : Obligations.DelayStepOnlySettlesThePull := by
  intro i n us x s hdelay hin
  obtain ⟨f, hf, hact⟩ := scriptOf_delayOf s.par x hdelay
  rw [exec_inOp hf hin hact, ← pudSettle_eq]
  rfl

end Sys2Proof.Machine
end

section
/-! SUPPORT. The completion steps of `map` and `unmap` that end in an error, a fault or a closed window
(40_register_window.md R201, R203). -/

namespace Sys2Proof.Machine

/-- Settles O23: both causes complete with the error; asking the platform moves only the inputs. -/
theorem mapErrorChangesNothing : Obligations.MapErrorChangesNothing := by
  intro k n x s hin hcause
  have hexec := exec_map_inOp hin
  rcases s.mapBody_cases (.map k) k with ⟨-, hbody⟩ | ⟨hunmapped, hgrant, -⟩ | ⟨-, -, hbody⟩
  · rw [hbody] at hexec
    exact ⟨_, hexec, rfl, rfl, rfl, rfl, rfl, rfl, rfl⟩
  · simp [hunmapped, hgrant] at hcause
  · rw [hbody] at hexec
    exact ⟨_, hexec, rfl, rfl, rfl, rfl, rfl, rfl, rfl⟩

/-- The completion step of `unmap` is its body. -/
theorem exec_unmap_inOp {k : WindowKind} {n : Nat} {x : Word} {s : State} (h : s.InOp (.unmap k) n x) :
    exec (.unmap k) s = .next (s.unmapBody (.unmap k) k) := by
  obtain ⟨m, hm, hstop, hop, -, -⟩ := h
  simp only [exec, execUnmap, operate_inOp hm hstop hop]

/-- Settles O24: no fault of `unmap` applies, so its body closes the window and completes. -/
theorem unmapEndsTheWindowOnly : Obligations.UnmapEndsTheWindowOnly := by
  intro k n x s hin hmapped hothers hidle
  have hfree : ¬ (k = .bsc ∧ s.eng.phase ≠ .idle) := fun ⟨hk, hbusy⟩ => hbusy (hidle hk)
  have hbody : s.unmapBody (.unmap k) k =
      (s.setWindow k { s.window k with mapped := false }).complete (.unmap k) (.ok .unit) := by
    simp only [State.unmapBody, hmapped, otherUser_none.2 hothers, hfree, reduceCtorEq, if_false]
  refine ⟨_, hbody ▸ exec_unmap_inOp hin, ?_, fun k' hk => ?_, by simp, by simp, by simp, by simp, by simp, by simp⟩
  · exact s.window_setWindow_self k _
  · exact s.window_setWindow_other _ hk

/-- Settles O25: the body checks the slot, the other clients' operations and the engine in this order. -/
theorem unmapFaultsWhileTheSpanIsInUse : Obligations.UnmapFaultsWhileTheSpanIsInUse := by
  intro k n x s hin
  have hexec := exec_unmap_inOp hin
  refine ⟨fun hunmapped => ?_, fun hmapped huser => ?_, fun hmapped hothers hk hbusy => ?_⟩
  · have hbody : s.unmapBody (.unmap k) k = s.stop (.fault .windowNotMapped (.window k)) := by
      simp only [State.unmapBody, hunmapped, if_true]
    rw [hbody] at hexec
    exact ⟨_, hexec, rfl, rfl, rfl, rfl⟩
  · cases hd : s.otherUser fun j => touches j k with
    | none =>
      obtain ⟨d, m, i, hne, hm, hop, htouch⟩ := huser
      simp [otherUser_none.1 hd d m i hne hm hop] at htouch
    | some d =>
      obtain ⟨hne, m, i, hm, hop, htouch⟩ := otherUser_some hd
      have hbody : s.unmapBody (.unmap k) k = s.stop (.fault .unmapInFlight (.user k (some d))) := by
        simp only [State.unmapBody, hmapped, hd, reduceCtorEq, if_false]
      rw [hbody] at hexec
      exact ⟨_, d, m, i, hexec, hne, hm, hop, htouch, rfl, rfl, rfl, rfl⟩
  · have hbody : s.unmapBody (.unmap k) k = s.stop (.fault .unmapInFlight (.user .bsc s.eng.owner)) := by
      simp only [State.unmapBody, hmapped, otherUser_none.2 hothers, reduceCtorEq, if_false]
      exact if_pos ⟨hk, hbusy⟩
    rw [hbody] at hexec
    exact ⟨_, hexec, rfl, rfl, rfl, rfl⟩

end Sys2Proof.Machine
end

section
/-! SUPPORT. A window or GPIO operation that runs alone (10_state.md R54; 40_register_window.md R207 to R216;
41_gpio_fields.md R250, R255, R260): its steps one by one along the table of its events. -/

namespace Sys2Proof.Machine

open Sys2Proof.Claims

/-- From `s` to `t` exactly the events `evs` happened, and windows, engine, faults, the refusal mark, the parameters and
the turn are as before. -/
structure State.Leaves (s : State) (evs : List Event) (t : State) : Prop where
  hist : t.hist = s.hist ++ evs
  win : t.win = s.win
  eng : t.eng = s.eng
  faults : t.faults = s.faults
  refused : t.refused = s.refused
  par : t.par = s.par
  cur : t.cur = s.cur

theorem State.Leaves.trans {s t u : State} {evs evs' : List Event} (h : s.Leaves evs t) (h' : t.Leaves evs' u) :
    s.Leaves (evs ++ evs') u where
  hist := by rw [h'.hist, h.hist, List.append_assoc]
  win := h'.win.trans h.win
  eng := h'.eng.trans h.eng
  faults := h'.faults.trans h.faults
  refused := h'.refused.trans h.refused
  par := h'.par.trans h.par
  cur := h'.cur.trans h.cur

/-- The register operation `i` works on is admitted (40_register_window.md R205). -/
def State.MayUse (s : State) (i : Instr) : Prop :=
  ∀ k o, registerOf i = some (k, o) → s.Readable k o ∧ (writes i = true → regClass k o ≠ .reserved)

theorem State.Leaves.readable {s t : State} {evs : List Event} (h : s.Leaves evs t) {k : WindowKind} {o : Nat}
    (hr : s.Readable k o) : t.Readable k o := by
  simpa only [State.Readable, State.window_congr h.win, h.eng, h.cur] using hr

theorem State.Leaves.mayUse {s t : State} {evs : List Event} (h : s.Leaves evs t) {i : Instr} (hu : s.MayUse i) :
    t.MayUse i :=
  fun k o hk => ⟨h.readable (hu k o hk).1, (hu k o hk).2⟩

theorem State.MayUse.readable {s : State} {i : Instr} (hu : s.MayUse i) {k : WindowKind} {o : Nat}
    (h : readOf i = some (k, o)) : s.Readable k o := by
  refine (hu k o ?_).1
  cases i with
  | readWord | setBits | clearBits | getField | setField | configureAsInput | readPin => exact h
  | _ => contradiction

/-- Every write of the operation's rule is admitted; `enable_pullups` writes the register before its own as well. -/
theorem State.MayUse.writable {s : State} {i : Instr} (hu : s.MayUse i) {n : Nat} {x v : Word} {k : WindowKind}
    {o : Nat} (h : writeOf s.par n x i = some (k, o, v)) : s.Writable k o := by
  cases i with
  | enablePullups m =>
    obtain ⟨hmask, -⟩ := hu .gpio 38 rfl
    have hselect : s.Readable .gpio 37 := ⟨hmask.1, Nat.lt_of_succ_lt hmask.2.1, hmask.2.2⟩
    simp only [writeOf] at h
    split_ifs at h <;> cases h
    · exact ⟨hselect, by decide⟩
    · exact ⟨hmask, by decide⟩
    · exact ⟨hselect, by decide⟩
    · exact ⟨hmask, by decide⟩
  | writeWord | setBits | clearBits | setField | configureAsInput =>
    simp only [writeOf, Option.ite_none_right_eq_some, Option.some.injEq, Prod.mk.injEq] at h
    obtain ⟨-, rfl, rfl, -⟩ := h
    exact ⟨(hu _ _ rfl).1, (hu _ _ rfl).2 rfl⟩
  | _ => contradiction

/-! ### The table of events, entry by entry -/

/-- After the read, if there is one, the events of the table are the writes and delays of the steps' tables. -/
theorem traceOf_getElem? {i : Instr} {p : Params} {c n : Nat} {x : Word} {e : Event}
    (he : (traceOf p c x i)[n]? = some e) (hn : n = 0 → readOf i = none) :
    (∃ k o v, writeOf p n x i = some (k, o, v) ∧ e = .access c k o .write v) ∨
      ∃ us, delayOf n i = some us ∧ e = .delay c us := by
  cases i with
  | readWord | getField | readPin =>
    match n with
    | 0 => cases hn rfl
    | n + 1 => contradiction
  | setBits | clearBits | setField | configureAsInput =>
    match n with
    | 0 => cases hn rfl
    | 1 => exact .inl ⟨_, _, _, rfl, (Option.some.inj he).symm⟩
    | n + 2 => contradiction
  | writeWord =>
    match n with
    | 0 => exact .inl ⟨_, _, _, rfl, (Option.some.inj he).symm⟩
    | n + 1 => contradiction
  | delayUs =>
    match n with
    | 0 => exact .inr ⟨_, rfl, (Option.some.inj he).symm⟩
    | n + 1 => contradiction
  | enablePullups =>
    match n with
    | 0 | 2 | 4 | 5 => exact .inl ⟨_, _, _, rfl, (Option.some.inj he).symm⟩
    | 1 | 3 => exact .inr ⟨_, rfl, (Option.some.inj he).symm⟩
    | n + 6 => contradiction
  | map | unmap | busWrite | busRead => contradiction

/-- The table of an operation that reads begins with the read. -/
theorem traceOf_readOf {i : Instr} {k : WindowKind} {o : Nat} (p : Params) (c : Nat) (x : Word)
    (h : readOf i = some (k, o)) : ∃ evs, traceOf p c x i = .access c k o .read x :: evs := by
  cases i <;> simp only [readOf, Option.some.injEq, Prod.mk.injEq, reduceCtorEq] at h <;>
    obtain ⟨rfl, rfl⟩ := h <;> exact ⟨_, rfl⟩

/-- After the events of the table the operation has its result. -/
theorem resultOf_length_traceOf {i : Instr} (hb : isBusOp i = false) (hm : ∀ k, i ≠ .map k ∧ i ≠ .unmap k) (p : Params)
    (c : Nat) (x : Word) : ∃ r, resultOf (traceOf p c x i).length x i = some r := by
  cases i with
  | map k => exact absurd rfl (hm k).1
  | unmap k => exact absurd rfl (hm k).2
  | busWrite | busRead => contradiction
  | _ => exact ⟨_, rfl⟩

/-! ### The steps -/

/-- The acting client goes on in its operation when its record is changed so. -/
theorem State.InOp.goesOn {i : Instr} {n n' : Nat} {x x' : Word} {s t : State} {f : ClientState → ClientState}
    (h : s.InOp i n x) (hcur : t.cur = s.cur) (hclients : t.clients = s.clients.modify s.cur f)
    (hf : ∀ m : ClientState, m.step = n → m.val = x →
      (f m).stopped = m.stopped ∧ (f m).op = m.op ∧ (f m).step = n' ∧ (f m).val = x') : t.InOp i n' x' := by
  obtain ⟨m, hm, hstop, hop, hstep, hval⟩ := h
  obtain ⟨hstop', hop', hstep', hval'⟩ := hf m hstep hval
  refine ⟨f m, ?_, hstop'.trans hstop, hop'.trans hop, hstep', hval'⟩
  rw [hcur, hclients]
  exact getElem?_modify_self f hm

/-- The start step of an admitted operation leaves its event, and the client in the operation. -/
theorem exec_start {i : Instr} {s : State} (hb : isBusOp i = false) (hw : i.wellFormed = true) (hs : s.Between) :
    ∃ t, exec i s = .next t ∧ s.Leaves [.start s.cur i] t ∧ t.InOp i 0 0#32 := by
  refine ⟨_, operationStartsWithItsEvent i s hb hw hs, ⟨rfl, rfl, rfl, rfl, rfl, rfl, rfl⟩, ?_⟩
  obtain ⟨m, hm, hstop, -⟩ := hs
  exact ⟨_, getElem?_modify_self _ hm, hstop, rfl, rfl, rfl⟩

/-- The read step leaves the read of the word the device answers. -/
theorem exec_read {i : Instr} {k : WindowKind} {o : Nat} {x : Word} {s : State} (hread : readOf i = some (k, o))
    (hin : s.InOp i 0 x) (hu : s.MayUse i) :
    ∃ v t, exec i s = .next t ∧ s.Leaves [.access s.cur k o .read v] t ∧ t.InOp i 1 v := by
  obtain ⟨v, t, hexec, h⟩ := readStepReturnsWhatTheBlockWrote i k o x s hread hin (hu.readable hread)
  refine ⟨v, t, hexec, ⟨h.hist, h.win, h.eng, h.faults, h.refused, h.par, h.cur⟩, ?_⟩
  exact hin.goesOn h.cur h.clients fun m hstep _ => ⟨rfl, rfl, by rw [hstep], rfl⟩

/-- Every later step before the completion leaves the next event of the table. -/
theorem exec_traceOf {i : Instr} {n : Nat} {x : Word} {e : Event} {s : State} (hin : s.InOp i n x) (hu : s.MayUse i)
    (he : (traceOf s.par s.cur x i)[n]? = some e) (hn : n = 0 → readOf i = none) :
    ∃ t, exec i s = .next t ∧ s.Leaves [e] t ∧ t.InOp i (n + 1) x := by
  rcases traceOf_getElem? he hn with ⟨k, o, v, hwrite, rfl⟩ | ⟨us, hdelay, rfl⟩
  · obtain ⟨t, hexec, h⟩ := writeStepStoresExactlyItsWord i n k o v x s hwrite hin (hu.writable hwrite)
    refine ⟨t, hexec, ⟨h.hist, h.win, h.eng, h.faults, h.refused, h.par, h.cur⟩, ?_⟩
    exact hin.goesOn h.cur h.clients fun m hstep hval => ⟨rfl, rfl, by rw [hstep], hval⟩
  · refine ⟨_, delayStepOnlySettlesThePull i n us x s hdelay hin, ⟨rfl, rfl, rfl, rfl, rfl, rfl, rfl⟩, ?_⟩
    exact hin.goesOn rfl rfl fun m hstep hval => ⟨rfl, rfl, by rw [hstep], hval⟩

/-- The completion step leaves `Done`, and the client between operations. -/
theorem exec_finish {i : Instr} {n : Nat} {x : Word} {r : Result} {s : State} (hresult : resultOf n x i = some r)
    (hin : s.InOp i n x) :
    ∃ t, exec i s = .next t ∧ s.Leaves [.done s.cur i r] t ∧ (t.clients[s.cur]?).bind ClientState.op = none := by
  refine ⟨_, completionReturnsTheResult i n x r s hresult hin, ⟨rfl, rfl, rfl, rfl, rfl, rfl, rfl⟩, ?_⟩
  obtain ⟨m, hm, -⟩ := hin
  simp [hm]

/-! ### The run -/

theorem runAlone_succ {i : Instr} {s t : State} (h : exec i s = .next t) (n : Nat) :
    runAlone i (n + 1) s = runAlone i n t := by
  simp only [runAlone, h]

/-- From inside the operation, its read behind it, the run leaves the rest of the table's events and completes: by
induction on these events. -/
theorem runAlone_rest {i : Instr} {x : Word} {r : Result} (evs : List Event) {n : Nat} {s : State}
    (hevs : (traceOf s.par s.cur x i).drop n = evs) (hresult : resultOf (n + evs.length) x i = some r)
    (hin : s.InOp i n x) (hu : s.MayUse i) (hn : n = 0 → readOf i = none) :
    ∃ t, runAlone i (evs.length + 1) s = .next t ∧ s.Leaves (evs ++ [.done s.cur i r]) t ∧
      (t.clients[s.cur]?).bind ClientState.op = none := by
  induction evs generalizing n s with
  | nil =>
    obtain ⟨t, hexec, hleaves, hop⟩ := exec_finish hresult hin
    exact ⟨t, runAlone_succ hexec 0, hleaves, hop⟩
  | cons e evs ih =>
    have he : (traceOf s.par s.cur x i)[n]? = some e := by
      rw [← Nat.add_zero n, ← List.getElem?_drop, hevs]
      rfl
    obtain ⟨t, hexec, hstep, hin'⟩ := exec_traceOf hin hu he hn
    have hrest : (traceOf t.par t.cur x i).drop (n + 1) = evs := by
      rw [hstep.par, hstep.cur, ← List.tail_drop, hevs, List.tail_cons]
    have hresult' : resultOf (n + 1 + evs.length) x i = some r := by
      rwa [Nat.add_assoc, Nat.add_comm 1]
    obtain ⟨u, hrun, hleaves, hop⟩ := ih hrest hresult' hin' (hstep.mayUse hu) (by omega)
    rw [hstep.cur] at hleaves hop
    exact ⟨u, (runAlone_succ hexec _).trans hrun, hstep.trans hleaves, hop⟩

/-- From the start on: the read gives the word the rest of the table speaks of; without a read it is 0, as the start
left it. -/
theorem runAlone_started {i : Instr} {s : State} (hb : isBusOp i = false) (hm : ∀ k, i ≠ .map k ∧ i ≠ .unmap k)
    (hin : s.InOp i 0 0#32) (hu : s.MayUse i) :
    ∃ x t r, runAlone i ((traceOf s.par s.cur x i).length + 1) s = .next t ∧
      resultOf (traceOf s.par s.cur x i).length x i = some r ∧
      s.Leaves (traceOf s.par s.cur x i ++ [.done s.cur i r]) t ∧ (t.clients[s.cur]?).bind ClientState.op = none := by
  cases hread : readOf i with
  | none =>
    obtain ⟨r, hr⟩ := resultOf_length_traceOf hb hm s.par s.cur 0#32
    obtain ⟨t, h⟩ := runAlone_rest (traceOf s.par s.cur 0#32 i) rfl (by rwa [Nat.zero_add]) hin hu fun _ => hread
    exact ⟨0#32, t, r, h.1, hr, h.2⟩
  | some reg =>
    obtain ⟨k, o⟩ := reg
    obtain ⟨x, u, hexec, hstep, hin'⟩ := exec_read hread hin hu
    obtain ⟨evs, hevs⟩ := traceOf_readOf s.par s.cur x hread
    obtain ⟨r, hr⟩ := resultOf_length_traceOf hb hm s.par s.cur x
    have hrest : (traceOf u.par u.cur x i).drop 1 = evs := by
      rw [hstep.par, hstep.cur, hevs, List.drop_one, List.tail_cons]
    have hresult : resultOf (1 + evs.length) x i = some r := by
      rwa [hevs, List.length_cons, Nat.add_comm] at hr
    obtain ⟨t, hrun, hleaves, hop⟩ := runAlone_rest evs hrest hresult hin' (hstep.mayUse hu) (by omega)
    rw [hstep.cur] at hleaves hop
    refine ⟨x, t, r, ?_, hr, ?_, hop⟩
    · rw [hevs]
      exact (runAlone_succ hexec _).trans hrun
    · rw [hevs]
      exact hstep.trans hleaves

/-- Settles O18: the start step, and then the run from inside the operation. -/
theorem operationAloneLeavesItsTrace : Obligations.OperationAloneLeavesItsTrace := by
  intro i s hb hm hw hs hu
  obtain ⟨u, hexec, hstart, hin⟩ := exec_start hb hw hs
  obtain ⟨x, t, r, hrun, hresult, hrest, hop⟩ := runAlone_started hb hm hin (hstart.mayUse hu)
  rw [hstart.par, hstart.cur] at hrun hresult hrest
  rw [hstart.cur] at hop
  have h := hstart.trans hrest
  exact ⟨x, t, r, (runAlone_succ hexec _).trans hrun, hresult, by simpa using h.hist, h.win, h.eng, h.faults, h.refused,
    hop⟩

end Sys2Proof.Machine
end

section
/-! SUPPORT. The engine's polls and pops against the tables (42_bus_engine.md R284 to R286, R297): one read step each,
or the abort's first write. -/

namespace Sys2Proof.Machine

open Sys2Proof.Claims

/-- The owner's step of its bus operation is the engine's. -/
theorem exec_engineStep {i : Instr} {s t : State} (hb : isBusOp i = true) (hh : s.Holds i)
    (ht : s.engineStep i = some t) : exec i s = .next t := by
  obtain ⟨howner, m, hm, hstop, hop⟩ := hh
  cases i with
  | busWrite => simp only [exec, execBusWrite, operate_inOp hm hstop hop, busNext, howner, if_true, ht]
  | busRead => simp only [exec, execBusRead, operate_inOp hm hstop hop, busNext, howner, if_true, ht]
  | _ => contradiction

/-- A phase the poll table lists polls, and its test is the table's. -/
theorem State.engineStep_poll {s : State} (i : Instr) {v : Word} {p : Phase} (h : afterPoll s.eng v = some p) :
    ∃ test, s.engineStep i = some (s.poll test) ∧ ∀ v, afterPoll s.eng v = some (test v) := by
  cases hp : s.eng.phase <;> simp only [afterPoll, hp, reduceCtorEq] at h <;>
    simp only [afterPoll, State.engineStep, hp]
  case wWait | rDpoll => exact ⟨_, rfl, fun v => rfl⟩
  case rWait => exact ⟨_, rfl, fun v => by simp only [flagTa, flagRxd, Bool.and_eq_true, Bool.not_eq_true']⟩
  case rCpoll | rFpoll => exact ⟨_, rfl, fun v => by simp only [Engine.wants_iff, flagRxd]⟩

/-- A phase the pop table lists pops and goes to the table's phase. -/
theorem State.engineStep_pop {s : State} (i : Instr) {p : Phase} (h : afterPop s.eng.phase = some p) :
    s.engineStep i = some (s.pop p) := by
  cases hp : s.eng.phase <;> simp only [afterPop, hp, Option.some.injEq, reduceCtorEq] at h <;> subst h
  case rCfifo | rFfifo => simp only [State.engineStep, hp]

/-- The engine's owner passes the access check inside a mapped BSC window. -/
theorem State.Holds.readable {i : Instr} {s : State} (hh : s.Holds i) (hm : s.BscMapped) {o : Nat} (ho : o < 8) :
    s.Readable .bsc o :=
  ⟨hm.1, hm.2.symm ▸ ho, fun _ => .inr hh.1⟩

/-- Where the register keeps no written word, a scripted answer is returned as it is, and is used up (log 4). -/
theorem readStep_scripted_answer {s t : State} {e : Engine} {k : WindowKind} {o : Nat} {v : Word}
    (h : ReadStep s t e k o v) (hk : regClass k o ≠ .store) (hd : s.par.device = .loose) {a : Word} {more : List Word}
    (ha : s.env.answers = a :: more) : v = a ∧ t.env.answers = more := by
  constructor
  · rw [h.scripted hd a more ha]
    exact if_neg hk
  · rw [h.answers, if_pos hd, ha, List.tail_cons]

/-- Settles O35: the phase's poll, within its budget an admitted read of `S`, and past it an admitted write of `C`. -/
theorem pollSamplesOnceOrAborts : Obligations.PollSamplesOnceOrAborts := by
  rintro i s hb hh hm ⟨_, _, hpoll⟩
  obtain ⟨test, hstep, htest⟩ := s.engineStep_poll i hpoll
  have hexec := exec_engineStep hb hh hstep
  refine ⟨fun hbudget => ?_, fun hbudget => ?_⟩
  · rw [State.poll, if_neg hbudget, regRead_of_readable _ (hh.readable hm (by decide)), State.readAccess_eng] at hexec
    have hread := readStep_readAccess s .bsc offS
    exact ⟨_, _, _, htest _, hexec, hread _, fun hd a more => readStep_scripted_answer (hread _) (by decide) hd⟩
  · rw [State.poll, if_pos hbudget, regWrite_of_writable _ ⟨hh.readable hm (by decide), by decide⟩] at hexec
    exact ⟨_, hexec, writeStep_writeAccess s .bsc offC abortCtrl _⟩

/-- Settles O36: the phase's pop, an admitted read of `FIFO`. -/
theorem popStoresTheNextByte : Obligations.PopStoresTheNextByte := by
  intro i p s hb hh hm hpop
  have hexec := exec_engineStep hb hh (s.engineStep_pop i hpop)
  rw [State.pop, regRead_of_readable _ (hh.readable hm (by decide)), State.readAccess_eng] at hexec
  have hread := readStep_readAccess s .bsc offFifo
  exact ⟨_, _, hexec, hread _, fun hd a more => readStep_scripted_answer (hread _) (by decide) hd⟩

end Sys2Proof.Machine
end

section
/-! SUPPORT. A step whose access fails its check stops the client there (40_register_window.md R205; 60_exceptions.md
R348, R349). -/

namespace Sys2Proof.Machine

open Sys2Proof.Claims

theorem regRead_of_stop {s : State} {k : WindowKind} {o : Nat} {x : Stop} (f : Word → State → State)
    (h : accessCheck s k o .read = some x) : s.regRead k o f = s.stop x := by
  simp only [State.regRead, h]

theorem regWrite_of_stop {s : State} {k : WindowKind} {o : Nat} {v : Word} {x : Stop} (f : State → State)
    (h : accessCheck s k o .write = some x) : s.regWrite k o v f = s.stop x := by
  simp only [State.regWrite, h]

/-- The sequence makes the table's access after the table's count of steps, and stops where the check fails. -/
theorem exec_accessOf_stop {i : Instr} {n : Nat} {x : Word} {k : WindowKind} {o : Nat} {d : Dir} {s : State} {r : Stop}
    (hin : s.InOp i n x) (ha : accessOf s.par n x i = some (k, o, d)) (hr : accessCheck s k o d = some r) :
    exec i s = .next (s.stop r) := by
  cases hw : writeOf s.par n x i with
  | some w =>
    obtain ⟨k', o', v⟩ := w
    simp only [accessOf, hw, Option.some.injEq, Prod.mk.injEq] at ha
    obtain ⟨rfl, rfl, rfl⟩ := ha
    obtain ⟨f, hf, hact⟩ := scriptOf_writeOf hw
    rw [exec_inOp hf hin hact, State.perform, regWrite_of_stop _ hr]
  | none =>
    simp only [accessOf, hw, Option.ite_none_right_eq_some, Option.map_eq_some_iff, Prod.exists, Prod.mk.injEq] at ha
    obtain ⟨rfl, k', o', hread, rfl, rfl, rfl⟩ := ha
    obtain ⟨f, hf, hact⟩ := scriptOf_readOf s.par x hread
    rw [exec_inOp hf hin hact, State.perform, regRead_of_stop _ hr]

/-- A push goes to `FIFO`. -/
theorem engineWrite_wFifo {e e' : Engine} {j o : Nat} {v : Word} (hp : e.phase = .wFifo j)
    (h : engineWrite e = some (o, v, e')) : o = offFifo := by
  cases j with
  | zero =>
    simp only [engineWrite, hp, Option.some.injEq, Prod.mk.injEq] at h
    exact h.1.symm
  | succ j =>
    cases hb : e.wbuf[j]? <;>
      simp only [engineWrite, hp, hb, Option.some.injEq, Prod.mk.injEq, reduceCtorEq] at h
    exact h.1.symm

/-- A phase the write table lists writes the table's register. -/
theorem State.engineStep_write {s : State} (i : Instr) {o : Nat} {v : Word} {e : Engine}
    (h : engineWrite s.eng = some (o, v, e)) : ∃ w f, s.engineStep i = some (s.regWrite .bsc o w f) := by
  cases hp : s.eng.phase <;> simp only [State.engineStep, hp]
  case wFifo j =>
    obtain rfl := engineWrite_wFifo hp h
    exact ⟨_, _, rfl⟩
  all_goals simp only [engineWrite, hp, Option.some.injEq, Prod.mk.injEq, reduceCtorEq] at h
  case wA | wDlen | wClr | wGo | rDlen | rClr | rGo | abC | abS =>
    obtain ⟨rfl, -, -⟩ := h
    exact ⟨_, _, rfl⟩

/-- An engine step whose access fails its check stops the client. -/
theorem State.engineStep_stop {s : State} (i : Instr) {o : Nat} {d : Dir} {r : Stop}
    (ha : engineAccess s.eng s.par.pollBudget = some (o, d)) (hr : accessCheck s .bsc o d = some r) :
    s.engineStep i = some (s.stop r) := by
  cases hw : engineWrite s.eng with
  | some w =>
    obtain ⟨o', v, e⟩ := w
    simp only [engineAccess, hw, Option.some.injEq, Prod.mk.injEq] at ha
    obtain ⟨rfl, rfl⟩ := ha
    obtain ⟨w, f, hstep⟩ := s.engineStep_write i hw
    rw [hstep, regWrite_of_stop _ hr]
  | none =>
    by_cases hpoll : (afterPoll s.eng 0#32).isSome
    · obtain ⟨p, hp⟩ := Option.isSome_iff_exists.1 hpoll
      obtain ⟨test, hstep, -⟩ := s.engineStep_poll i hp
      simp only [engineAccess, hw, hpoll, if_true] at ha
      rw [hstep, State.poll]
      split_ifs at ha ⊢ with hbudget <;> cases ha
      · rw [regWrite_of_stop _ hr]
      · rw [regRead_of_stop _ hr]
    · simp only [engineAccess, hw, hpoll, Bool.false_eq_true, if_false] at ha
      split_ifs at ha with hpop
      cases ha
      obtain ⟨p, hp⟩ := Option.isSome_iff_exists.1 hpop
      rw [s.engineStep_pop i hp, State.pop, regRead_of_stop _ hr]

/-- Whoever makes it, an access that fails its check stops the client in its place. -/
theorem exec_nextAccess_stop {i : Instr} {k : WindowKind} {o : Nat} {d : Dir} {s : State} {r : Stop}
    (h : NextAccess s i k o d) (hr : accessCheck s k o d = some r) : exec i s = .next (s.stop r) := by
  rcases h with ⟨n, x, hin, ha⟩ | ⟨hb, hh, rfl, ha⟩
  · exact exec_accessOf_stop hin ha hr
  · exact exec_engineStep hb hh (s.engineStep_stop i ha hr)

/-- Settles O19: the access check takes its four cases in order, and each of them stops the access. -/
theorem failedAccessCheckStopsTheClient : Obligations.FailedAccessCheckStopsTheClient := by
  intro i k o d s h
  refine ⟨fun hunmapped => ?_, fun hmapped hout => ?_, fun hmapped ho hk hbusy howner => ?_,
    fun ⟨hmapped, ho, hfree⟩ hd hreserved => ?_⟩
  · exact exec_nextAccess_stop h (if_pos hunmapped)
  · exact exec_nextAccess_stop h (by rw [accessCheck, if_neg (by simp [hmapped]), if_pos hout])
  · refine exec_nextAccess_stop (r := .fault .busConflict (.client s.cur)) h ?_
    rw [accessCheck, if_neg (by simp [hmapped]), if_neg (Nat.not_le.2 ho), if_pos ⟨hk, hbusy, howner⟩]
  · refine exec_nextAccess_stop (r := .refuse .reservedWrite) h ?_
    have hfree : ¬ (k = .bsc ∧ s.eng.phase ≠ .idle ∧ s.eng.owner ≠ some s.cur) :=
      fun ⟨hk, hbusy, howner⟩ => (hfree hk).elim hbusy howner
    rw [accessCheck, if_neg (by simp [hmapped]), if_neg (Nat.not_le.2 ho), if_neg hfree, if_pos ⟨hd, hreserved⟩]

end Sys2Proof.Machine
end

section
/-! SUPPORT. The GPIO operations on their pins (41_gpio_fields.md R252, R256, R260, R262): a pin outside the range, the
level bit of a pin, and what the four writes and two delays of `enable_pullups` leave of the device. -/

namespace Sys2Proof.Machine

open Sys2Proof.Claims

/-! ### Pins -/

/-- Settles O11: neither operation admits the pin, and the refusal of either is the pin's. -/
theorem pinsOutsideTheRangeAreRefused : Obligations.PinsOutsideTheRangeAreRefused := by
  intro p s hp hs i hi
  have hpin : pinAdmitted p = false := by
    simp only [pinAdmitted, Config.pinCount, Bool.and_eq_false_iff, decide_eq_false_iff_not]
    omega
  obtain ⟨hill, hreason⟩ : i.wellFormed = false ∧ reasonOf i = .badPin := by
    obtain rfl | rfl : i = .configureAsInput p ∨ i = .readPin p := by simpa using hi
    · exact ⟨hpin, rfl⟩
    · exact ⟨hpin, rfl⟩
  refine ⟨_, operandsOutsideTheirDomainAreRefused i s hill hs, rfl, rfl, rfl, rfl, fun m hm => ?_⟩
  simp [hm, hreason]

/-- Settles O26: the completion's result is the negated level bit. -/
theorem lowLevelReadsAsPressed : Obligations.LowLevelReadsAsPressed := by
  intro p x s _ hin
  refine ⟨_, completionReturnsTheResult _ _ _ _ s (if_pos rfl) hin, ?_⟩
  cases hbit : x.getLsbD (p % 32) <;> simp [hbit]

/-! ### A write of a GPIO register and a delay, on the device -/

/-- A GPIO register write on the device: its action and the word it keeps (40_register_window.md R206). -/
def DeviceState.gpioWrite (d : DeviceState) (o : Nat) (v : Word) : DeviceState := (d.act .loose .gpio o v).keep .gpio o v

/-- It is what an access of the GPIO span does, whatever the device's setting. -/
theorem State.writeAccess_gpio_dev (s : State) (o : Nat) (v : Word) :
    (s.writeAccess .gpio o v).dev = s.dev.gpioWrite o v := rfl

theorem DeviceState.gpioWrite_gpioStore (d : DeviceState) {o : Nat} (ho : regClass .gpio o = .store) (v : Word)
    (o' : Nat) :
    Cells.get? (d.gpioWrite o v).gpioStore o' = if o' = o then some v else Cells.get? d.gpioStore o' := by
  have hstore : (d.act .loose .gpio o v).gpioStore = d.gpioStore := d.act_store .loose .gpio .gpio o v
  simp [DeviceState.gpioWrite, DeviceState.keep, ho, DeviceState.putStore, Cells.get?_put, hstore]

theorem DeviceState.gpioWrite_select_pud (d : DeviceState) (v : Word) : (d.gpioWrite 37 v).pud = selected v d.pud :=
  pudSelect_eq v d.pud

theorem DeviceState.gpioWrite_select_pull (d : DeviceState) (v : Word) : (d.gpioWrite 37 v).pull = d.pull := rfl

theorem DeviceState.gpioWrite_mask_pud (d : DeviceState) (v : Word) :
    (d.gpioWrite 38 v).pud = masked v (Cells.get? d.gpioStore 37) d.pud :=
  d.writeMask_pud v

theorem DeviceState.gpioWrite_mask_pull (d : DeviceState) (v : Word) : (d.gpioWrite 38 v).pull = (d.writeMask v).pull :=
  rfl

theorem DeviceState.gpioWrite_mask_pullOf (d : DeviceState) (v : Word) (p : Nat) :
    (d.gpioWrite 38 v).pullOf p = (d.writeMask v).pullOf p := rfl

theorem DeviceState.settle_pud (d : DeviceState) (us : Nat) : (d.settle us).pud = settled us d.pud :=
  pudSettle_eq us d.pud

theorem DeviceState.settle_pull (d : DeviceState) (us : Nat) : (d.settle us).pull = d.pull := rfl

theorem DeviceState.settle_gpioStore (d : DeviceState) (us : Nat) : (d.settle us).gpioStore = d.gpioStore := rfl

/-! ### The device along `enable_pullups` (41_gpio_fields.md R260) -/

/-- The select register holds UP, settled. -/
def DeviceState.upSelected (d : DeviceState) : DeviceState := (d.gpioWrite 37 2#32).settle 10

/-- Then the mask is written and settled, and the select register is cleared. -/
def DeviceState.upPending (d : DeviceState) (m : Word) : DeviceState :=
  ((d.upSelected.gpioWrite 38 m).settle 10).gpioWrite 37 0#32

/-- Then the mask register is cleared, which latches. -/
def DeviceState.pulledUp (d : DeviceState) (m : Word) : DeviceState := (d.upPending m).gpioWrite 38 0#32

section NoMaskPending

variable {d : DeviceState} (h : ∀ c q a b, d.pud ≠ .clk c q a b)
include h

theorem DeviceState.upSelected_pud : d.upSelected.pud = .sel (some 2#2) true := by
  rw [DeviceState.upSelected, DeviceState.settle_pud, DeviceState.gpioWrite_select_pud]
  cases hpud : d.pud with
  | none | sel => rfl
  | clk c q a b => exact absurd hpud (h c q a b)

/-- A mask other than 0 is pending with UP and both settles; a mask of 0 leaves the select of 0. -/
theorem DeviceState.upPending_pud (m : Word) :
    (d.upPending m).pud = if m = 0#32 then .sel (some 0#2) false else .clk (some 2#2) m true true := by
  rw [DeviceState.upPending, DeviceState.gpioWrite_select_pud, DeviceState.settle_pud, DeviceState.gpioWrite_mask_pud,
    DeviceState.upSelected_pud h]
  by_cases hm : m = 0#32 <;> simp [masked, settled, selected, hm]

/-- Until the latch no pin moves. -/
theorem DeviceState.upPending_pull (m : Word) : (d.upPending m).pull = d.pull := by
  have hmask : (d.upSelected.writeMask m).pull = d.upSelected.pull := by
    by_contra hne
    obtain ⟨-, c, q, a, b, hclk⟩ := DeviceState.writeMask_pull_ne hne
    rw [DeviceState.upSelected_pud h] at hclk
    contradiction
  rw [DeviceState.upPending, DeviceState.gpioWrite_select_pull, DeviceState.settle_pull,
    DeviceState.gpioWrite_mask_pull, hmask]
  rfl

theorem DeviceState.pulledUp_pud (m : Word) :
    (d.pulledUp m).pud = if m = 0#32 then .sel (some 0#2) false else .none := by
  rw [DeviceState.pulledUp, DeviceState.gpioWrite_mask_pud, DeviceState.upPending_pud h]
  by_cases hm : m = 0#32 <;> simp [masked, hm]

theorem DeviceState.pulledUp_pullOf (m : Word) {p : Nat} (hp : p < d.pull.length) :
    (d.pulledUp m).pullOf p = if m.getLsbD p = true then .up else d.pullOf p := by
  have hpull := DeviceState.upPending_pull h m
  have hbefore : (d.upPending m).pullOf p = d.pullOf p := by rw [DeviceState.pullOf, hpull, DeviceState.pullOf]
  have hlatch := (d.upPending m).writeMask_pullOf 0#32 (p := p) (by rwa [hpull])
  rw [DeviceState.upPending_pud h, hbefore] at hlatch
  rw [DeviceState.pulledUp, DeviceState.gpioWrite_mask_pullOf, hlatch]
  by_cases hm : m = 0#32 <;> simp [hm, latched]

end NoMaskPending

theorem DeviceState.pulledUp_gpioStore (d : DeviceState) (m : Word) (o : Nat) :
    Cells.get? (d.pulledUp m).gpioStore o = if o = 38 ∨ o = 37 then some 0#32 else Cells.get? d.gpioStore o := by
  have hselect := fun (d : DeviceState) v => d.gpioWrite_gpioStore (o := 37) rfl v o
  have hmask := fun (d : DeviceState) v => d.gpioWrite_gpioStore (o := 38) rfl v o
  simp only [DeviceState.pulledUp, DeviceState.upPending, DeviceState.upSelected, DeviceState.settle_gpioStore, hselect,
    hmask]
  by_cases h38 : o = 38
  · simp [h38]
  · by_cases h37 : o = 37 <;> simp [h38, h37]

/-! ### The steps of `enable_pullups` -/

/-- The acting client is in `enable_pullups` after `n` accesses and delays, GPIO is admitted, and `d` is the device. -/
structure State.PullingUp (s : State) (m : Word) (n : Nat) (d : DeviceState) : Prop where
  inOp : s.InOp (.enablePullups m) n 0#32
  mayUse : s.MayUse (.enablePullups m)
  dev : s.dev = d

section Steps

variable {m : Word} {n : Nat} {s : State} {d : DeviceState}

/-- The start step leaves the device. -/
theorem State.PullingUp.start (hs : s.Between) (hu : s.MayUse (.enablePullups m)) :
    ∃ t, exec (.enablePullups m) s = .next t ∧ t.PullingUp m 0 s.dev := by
  refine ⟨_, operationStartsWithItsEvent _ s rfl rfl hs, ?_, hu, rfl⟩
  obtain ⟨c, hc, hstop, -⟩ := hs
  exact ⟨_, getElem?_modify_self _ hc, hstop, rfl, rfl, rfl⟩

/-- A write of the operation's rule makes its step on the device. -/
theorem State.PullingUp.write (h : s.PullingUp m n d) {o : Nat} {v : Word}
    (hwrite : writeOf s.par n 0#32 (.enablePullups m) = some (.gpio, o, v)) :
    ∃ t, exec (.enablePullups m) s = .next t ∧ t.PullingUp m (n + 1) (d.gpioWrite o v) := by
  obtain ⟨hin, hu, rfl⟩ := h
  refine ⟨_, exec_writeOf hin hwrite (hu.writable hwrite), ?_, hu, s.writeAccess_gpio_dev o v⟩
  exact hin.goesOn rfl rfl fun c hstep hval => ⟨rfl, rfl, by rw [hstep], hval⟩

/-- A delay of the operation's rule makes its step on the device. -/
theorem State.PullingUp.delay (h : s.PullingUp m n d) {us : Nat} (hdelay : delayOf n (.enablePullups m) = some us) :
    ∃ t, exec (.enablePullups m) s = .next t ∧ t.PullingUp m (n + 1) (d.settle us) := by
  obtain ⟨hin, hu, rfl⟩ := h
  refine ⟨_, delayStepOnlySettlesThePull _ n us 0#32 s hdelay hin, ?_, hu, ?_⟩
  · exact hin.goesOn rfl rfl fun c hstep hval => ⟨rfl, rfl, by rw [hstep], hval⟩
  · rw [← pudSettle_eq]
    rfl

/-- The completion step leaves the device. -/
theorem State.PullingUp.finish (h : s.PullingUp m 6 d) : ∃ t, exec (.enablePullups m) s = .next t ∧ t.dev = d :=
  ⟨_, completionReturnsTheResult _ 6 0#32 (.ok .unit) s rfl h.inOp, h.dev⟩

/-- Alone, the operation's start, its four writes and two delays, and its completion leave the device pulled up. -/
theorem runAlone_enablePullups (m : Word) (hs : s.Between) (hu : s.MayUse (.enablePullups m)) :
    ∃ t, runAlone (.enablePullups m) 8 s = .next t ∧ t.dev = s.dev.pulledUp m := by
  obtain ⟨s0, hstart, h0⟩ := State.PullingUp.start hs hu
  obtain ⟨s1, hselect, h1⟩ := h0.write rfl
  obtain ⟨s2, hsettle, h2⟩ := h1.delay rfl
  obtain ⟨s3, hmask, h3⟩ := h2.write rfl
  obtain ⟨s4, hsettle', h4⟩ := h3.delay rfl
  obtain ⟨s5, hunselect, h5⟩ := h4.write rfl
  obtain ⟨s6, hlatch, h6⟩ := h5.write rfl
  obtain ⟨t, hdone, hdev⟩ := h6.finish
  refine ⟨t, ?_, hdev⟩
  simp only [runAlone, hstart, hselect, hsettle, hmask, hsettle', hunselect, hlatch, hdone]

end Steps

/-- Settles O27: the run alone leaves the device pulled up, and what that is of the pins, the handshake and the words. -/
theorem enablePullupsPullsUpExactlyTheMask : Obligations.EnablePullupsPullsUpExactlyTheMask := by
  intro m s hs hmapped hsize hpud
  have hu : s.MayUse (.enablePullups m) := by
    intro k o hk
    obtain ⟨rfl, rfl⟩ : WindowKind.gpio = k ∧ 38 = o := by simpa [registerOf] using hk
    exact ⟨⟨hmapped, by simp [State.window, hsize], nofun⟩, fun _ => by decide⟩
  obtain ⟨t, hrun, hdev⟩ := runAlone_enablePullups m hs hu
  have hstored : ∀ o, t.stored .gpio o = if o = 38 ∨ o = 37 then some 0#32 else s.stored .gpio o := fun o => by
    rw [State.stored, hdev]
    exact s.dev.pulledUp_gpioStore m o
  refine ⟨t, hrun, fun p hp => ?_, ?_, hstored 37, hstored 38, fun o hselect hmask => ?_⟩
  · rw [hdev, DeviceState.pulledUp_pullOf hpud m hp]
  · rw [hdev, DeviceState.pulledUp_pud hpud]
  · rw [hstored, if_neg (by omega)]

end Sys2Proof.Machine
end

section
/-! SUPPORT. The reference controller, one register at a time (42_bus_engine.md R321 to R327): what a write of `C` and
the end of a byte step leave, said once as a record, and the byte memory of its targets. -/

namespace Sys2Proof.Machine

open Sys2Proof.Claims

/-! ### Byte memory -/

/-- A byte read after a write, in memory of canonical form. -/
theorem Memory.read_write {m : Memory} (h : Memory.wf m) (a x : Nat) (v : Byte) :
    Memory.read (Memory.write m a v) x = if x = a then v else Memory.read m x := by
  unfold Memory.write Memory.read
  split
  next hv =>
    rw [Cells.get?_erase h.1]
    split
    · exact hv.symm
    · rfl
  next =>
    rw [Cells.get?_put]
    split <;> rfl

/-- Settles O58. -/
theorem targetMemoryReadsBackWrites : Obligations.TargetMemoryReadsBackWrites :=
  fun _ a x v h => ⟨Memory.write_wf a v h, Memory.read_write h a x v⟩

/-! ### Writes -/

/-- What every write of `C` does before a start: the bits are stored, the FIFOs emptied on request, and a running
transfer stopped with the controller's enable bit. -/
def BscRef.controlled (b : BscRef) (v : Word) : BscRef :=
  { b with
    c := v &&& 0x8701#32
    txq := if v.getLsbD 5 = true ∨ v.getLsbD 4 = true then [] else b.txq
    rxq := if v.getLsbD 5 = true ∨ v.getLsbD 4 = true then [] else b.rxq
    ta := v.getLsbD 15 && b.ta }

/-- The transfer a start sets up, complete at once where its length is 0. -/
def BscRef.transferStarted (b : BscRef) (v : Word) : BscRef :=
  { b.controlled v with
    ta := decide (b.dlen.toNat ≠ 0), done := decide (b.dlen.toNat = 0), rd := v.getLsbD 0, rem := b.dlen.toNat
    first := true, cur := b.a }

/-- A write of `C`, by whether it starts a transfer. -/
theorem BscRef.writeC_eq (b : BscRef) (v : Word) :
    b.writeC v = if v.getLsbD 15 && v.getLsbD 7 then b.transferStarted v else b.controlled v := by
  have hclear : (v.getLsbD 5 = true ∨ v.getLsbD 4 = true) = (ctrlClear v = true) := (Bool.or_eq_true _ _).symm
  simp only [BscRef.writeC, BscRef.transferStarted, BscRef.controlled, hclear, ctrlI2cen, ctrlSt, ctrlRead]
  cases ctrlClear v <;> cases v.getLsbD 15
  case false.false | true.false => rfl
  all_goals cases v.getLsbD 7
  case false.true.false | true.true.false => rfl
  case false.true.true | true.true.true => by_cases hlen : b.dlen.toNat = 0 <;> simp [hlen]

/-- A flag that a write of 1 clears. -/
theorem and_not_eq_ite (flag bit : Bool) : (flag && !bit) = if bit = true then false else flag := by
  cases bit <;> simp

/-- Settles O53: the write of `C` by whether it starts a transfer, the others by their registers. -/
theorem referenceControllerTakesRegisterWrites : Obligations.ReferenceControllerTakesRegisterWrites := by
  intro b v
  have hC : b.write 0 v = b.writeC v := rfl
  rw [hC, b.writeC_eq]
  refine ⟨?_, ?_, fun hen hst => ?_, fun h => ?_, ?_, rfl, rfl, ?_⟩
  · split <;> exact ⟨rfl, rfl, rfl, rfl, rfl, rfl⟩
  · split <;> exact ⟨rfl, rfl⟩
  · rw [hen, hst, Bool.and_self, if_pos rfl]
    exact ⟨rfl, rfl, rfl, rfl, rfl, rfl⟩
  · rw [Bool.and_eq_false_iff.2 h, if_neg Bool.false_ne_true]
    exact ⟨rfl, rfl, rfl, rfl, rfl, rfl⟩
  · simp only [← and_not_eq_ite]
    rfl
  · change b.push v = _
    unfold BscRef.push
    split <;> rfl

/-! ### Byte steps -/

/-- The end of a byte step of a running transfer. -/
theorem BscRef.countByte_eq {b : BscRef} (h : b.ta = true) :
    b.countByte =
      { b with rem := b.rem - 1, ta := decide (1 < b.rem), done := if 1 < b.rem then b.done else true } := by
  unfold BscRef.countByte
  by_cases hrem : 1 < b.rem
  · rw [if_neg (by omega)]
    simp [hrem, h]
  · rw [if_pos (by omega)]
    simp [hrem]

/-- A running transfer's byte step with an ACK target moves a byte in the transfer's direction. -/
theorem BscRef.byteStep_ack {b : BscRef} {t : Target} (hta : b.ta = true)
    (ht : Cells.get? b.tgt b.cur.toNat = some t) (hmode : t.mode = .ack) :
    b.byteStep = if b.rd then b.receiveByte t else b.sendByte t := by
  simp only [BscRef.byteStep, hta, if_true, ht, hmode]

/-- Settles O54: the byte moves, the count ends the step, and the target is put back at its own address only. -/
theorem referenceTargetFollowsItsPointer : Obligations.ReferenceTargetFollowsItsPointer := by
  intro b t hta ht hmode hwf
  refine ⟨fun hrd hrx => ?_, fun x rest hrd htx => ?_⟩ <;> rw [BscRef.byteStep_ack hta ht hmode]
  · rw [if_pos hrd, BscRef.receiveByte, if_neg (Nat.ne_of_lt hrx)]
    refine ⟨_, BscRef.countByte_eq ?_, Cells.get?_put _ _ _⟩
    exact hta
  · rw [if_neg (ne_true_of_eq_false hrd), BscRef.sendByte, htx]
    refine ⟨_, _, BscRef.countByte_eq ?_, Cells.get?_put _ _ _, fun hfirst => if_pos hfirst, fun hfirst => ?_⟩
    · exact hta
    · rw [if_neg (ne_true_of_eq_false hfirst)]
      exact ⟨rfl, rfl, fun a => Memory.read_write hwf _ a x⟩

/-- Settles O55: the step's branches but the two that move a byte, and these two where there is none to move. -/
theorem referenceByteStepWithoutAnAck : Obligations.ReferenceByteStepWithoutAnAck := by
  intro b
  refine ⟨fun hta => ?_, fun hta hnone => ?_, fun t hta ht => ⟨fun hmode => ?_, fun hmode => ?_,
    fun hmode hrd htx => ?_, fun hmode hrd hrx => ?_⟩⟩
  · simp [BscRef.byteStep, hta]
  · simp only [BscRef.byteStep, hta, if_true, hnone]
  · simp only [BscRef.byteStep, hta, if_true, ht, hmode]
  · simp only [BscRef.byteStep, hta, if_true, ht, hmode]
  · simp [BscRef.byteStep_ack hta ht hmode, hrd, BscRef.sendByte, htx]
  · simp [BscRef.byteStep_ack hta ht hmode, hrd, BscRef.receiveByte, hrx]

/-! ### Reads -/

/-- Settles O56: a pop by what the receive FIFO holds, the status word by O52, every other read as defined. -/
theorem referenceReadsPopAndAdvance : Obligations.ReferenceReadsPopAndAdvance := by
  intro b rate
  refine ⟨fun x rest hrx => ?_, fun hrx => ?_, rfl, referenceStatusShowsTheFlags _, rfl, fun n => rfl, rfl, rfl, rfl,
    rfl, rfl, rfl⟩
  · simp [BscRef.read, hrx, zextByte]
  · simp [BscRef.read, hrx]

end Sys2Proof.Machine
end

section
/-! SUPPORT. The start step of a bus operation (42_bus_engine.md R281, R283, R290, R295, R300): refused, stopped at the
claim, or claiming the engine. -/

namespace Sys2Proof.Machine

open Sys2Proof.Claims

/-- Settles O12: the address is outside the operand domain, and the refusal names it. -/
theorem wideDeviceAddressIsRefusedNotMasked : Obligations.WideDeviceAddressIsRefusedNotMasked := by
  intro d reg buf len s hd hs i hi
  have hwide : decide (d < 2 ^ Config.devAddrWidth) = false := decide_eq_false (Nat.not_lt.2 hd)
  obtain ⟨hill, hreason⟩ : i.wellFormed = false ∧ reasonOf i = .badDevAddr := by
    obtain rfl | rfl : i = .busWrite d reg buf ∨ i = .busRead d reg len := by simpa using hi
    all_goals exact ⟨by rw [Instr.wellFormed, hwide, Bool.false_and], if_pos hd⟩
  refine ⟨_, operandsOutsideTheirDomainAreRefused i s hill hs, rfl, rfl, rfl, rfl, fun m hm => ?_⟩
  simp [hm, hreason]

/-- A claim that fails: the start event, the fault, and the client stopped inside its operation. -/
theorem State.started_busConflict (s : State) (i : Instr) :
    (s.started i).stop (.fault .busConflict (.client s.cur)) =
      { s with
        hist := s.hist ++ [.start s.cur i]
        clients := s.clients.modify s.cur fun m =>
          { m with op := some i, step := 0, val := 0#32, stopped := some (.fault .busConflict (.client s.cur)) }
        faults := s.faults ++ [⟨s.cur, .busConflict, .client s.cur⟩] } := by
  simp only [State.stop, State.started, State.updMe, State.log, modify_modify]

/-- Settles O33: of the start step's cases only the failed claim is left. -/
theorem overlappingBusOperationFaults : Obligations.OverlappingBusOperationFaults := by
  intro i s hb hw hs hclaim
  rw [exec_between i hs, ← State.started_busConflict]
  rcases s.startOf_cases i with ⟨r, hr, -⟩ | ⟨-, -, ht⟩ | ⟨-, -, hc, -⟩ | ⟨hn, -, -⟩
  · simp [(operandCheck_none i).2 hw] at hr
  · rw [ht]
  · exact absurd hc hclaim
  · simp [hb] at hn

/-- A bus operation with admitted operands claims a claimable engine. -/
theorem exec_claim {i : Instr} {s : State} (hb : isBusOp i = true) (hw : operandCheck i = none) (hs : s.Between)
    (hc : s.Claimable) :
    exec i s = .next { s.started i with eng := { setUpOf i s.eng with owner := some s.cur } } := by
  simp only [exec_between i hs, State.startOf, hb, if_true, State.startBus, hw, claimCheck_none.2 hc]

/-- A payload that fits sets up the transaction. -/
theorem setUpWrite_of_fits (dev : Nat) (reg : Byte) {buf : List Byte} (h : buf.length ≤ 15) (e : Engine) :
    setUpWrite dev reg buf e =
      { e with phase := .wA, dir := .write, sel := false, dev := BitVec.ofNat 8 dev, reg := reg, wbuf := buf } :=
  if_neg (by rw [Config.fifoDepth]; omega)

/-- A payload that does not fit leads to `END_ERR`. -/
theorem setUpWrite_of_long (dev : Nat) (reg : Byte) {buf : List Byte} (h : 16 ≤ buf.length) (e : Engine) :
    setUpWrite dev reg buf e = { e with phase := .endErr } :=
  if_pos (by rw [Config.fifoDepth]; omega)

/-- Settles O30: the operands are admitted, and the claim sets the transaction up. -/
theorem busWriteStartClaimsTheEngine : Obligations.BusWriteStartClaimsTheEngine := by
  intro d reg buf s hd hlen hs hc
  rw [exec_claim (i := .busWrite d reg buf) rfl ((checkBusWrite_none d buf).2 ⟨hd, by omega⟩) hs hc, setUpOf,
    setUpWrite_of_fits d reg hlen]
  rfl

/-- Settles O31: the operands are admitted, and the claim sets the select write up. -/
theorem busReadStartClaimsTheEngine : Obligations.BusReadStartClaimsTheEngine := by
  intro d reg len s hd hmin hmax hs hc
  rw [exec_claim (i := .busRead d reg len) rfl ((checkBusRead_none d len).2 ⟨hd, hmin, hmax⟩) hs hc]
  rfl

end Sys2Proof.Machine
end

section
/-! SUPPORT. The engine's write phases and completion phases against the tables (42_bus_engine.md R284, R302, R303), and
what an engine step can append to the history. -/

namespace Sys2Proof.Machine

open Sys2Proof.Claims

/-- The table writes one of the span's five registers. -/
theorem engineWrite_offset {e e' : Engine} {o : Nat} {v : Word} (h : engineWrite e = some (o, v, e')) : o ≤ 4 := by
  cases hp : e.phase
  case wFifo j =>
    obtain rfl := engineWrite_wFifo hp h
    decide
  all_goals simp only [engineWrite, hp, Option.some.injEq, Prod.mk.injEq, reduceCtorEq] at h
  all_goals omega

/-- A register that the table writes is not reserved. -/
theorem regClass_bsc_of_le {o : Nat} (h : o ≤ 4) : regClass .bsc o ≠ .reserved := by
  interval_cases o <;> decide

/-- A phase the write table lists makes the table's write, and takes the table's engine. -/
theorem State.engineStep_engineWrite {s : State} (i : Instr) {o : Nat} {v : Word} {e : Engine}
    (h : engineWrite s.eng = some (o, v, e)) :
    ∃ f, s.engineStep i = some (s.regWrite .bsc o v f) ∧ ∀ u : State, u.eng = s.eng → f u = { u with eng := e } := by
  cases hp : s.eng.phase <;> simp only [State.engineStep, hp]
  case wFifo j =>
    cases j with
    | zero =>
      simp only [engineWrite, hp, Option.some.injEq, Prod.mk.injEq] at h
      obtain ⟨rfl, rfl, rfl⟩ := h
      exact ⟨_, rfl, fun u hu => by simp only [State.setPhase, hu]⟩
    | succ j =>
      cases hbyte : s.eng.wbuf[j]? <;>
        simp only [engineWrite, hp, hbyte, Option.some.injEq, Prod.mk.injEq, reduceCtorEq] at h
      obtain ⟨rfl, rfl, rfl⟩ := h
      rw [Engine.txByte, if_neg (Nat.succ_ne_zero j), Nat.add_sub_cancel, List.getD_eq_getElem?_getD, hbyte]
      exact ⟨_, rfl, fun u hu => by simp only [State.setPhase, hu]⟩
  all_goals simp only [engineWrite, hp, Option.some.injEq, Prod.mk.injEq, reduceCtorEq] at h
  all_goals
    obtain ⟨rfl, rfl, rfl⟩ := h
    exact ⟨_, rfl, fun u hu => by simp only [State.setPhase, hu]⟩

/-- Settles O34: the phase's write, which the owner is admitted to make. -/
theorem engineWritePhasesFollowTheTable : Obligations.EngineWritePhasesFollowTheTable := by
  intro i o v e s hb hh hm hwrite
  obtain ⟨f, hstep, hf⟩ := s.engineStep_engineWrite i hwrite
  have ho := engineWrite_offset hwrite
  have hadmitted : s.Writable .bsc o := ⟨hh.readable hm (by omega), regClass_bsc_of_le ho⟩
  rw [regWrite_of_writable f hadmitted, hf _ (s.writeAccess_eng .bsc o v)] at hstep
  exact ⟨_, exec_engineStep hb hh hstep, writeStep_writeAccess s .bsc o v e⟩

/-- A completion phase completes with the table's result. -/
theorem State.engineStep_end {s : State} (i : Instr) {r : Result} (h : endResult s.eng = some r) :
    s.engineStep i = some (s.finishBus i r) := by
  cases hp : s.eng.phase <;> simp only [endResult, hp, Option.some.injEq, reduceCtorEq] at h <;>
    simp only [State.engineStep, hp]
  case endOk => cases hd : s.eng.dir <;> simp_all [Engine.okValue]
  case endTimeout | endErr => rw [h]

/-- Settles O37: the invariant's clauses for the phase, and for the operation that the engine serves. -/
theorem busCompletionReleasesTheEngine : Obligations.BusCompletionReleasesTheEngine := by
  intro i r s hb hh hr
  refine ⟨exec_engineStep hb hh (s.engineStep_end i hr), fun hinv => ?_⟩
  obtain ⟨howner, m, hm, -, hop⟩ := hh
  have hserves : s.eng.Serves i := by
    obtain ⟨j, hj, hserves⟩ := hinv.clients.owner_serves howner hm
    obtain rfl : i = j := Option.some.inj (hop.symm.trans hj)
    exact hserves
  cases hp : s.eng.phase <;> simp only [endResult, hp, Option.some.injEq, reduceCtorEq] at hr
  case endTimeout => exact .inr (.inr (.inr hr.symm))
  case endErr =>
    cases i with
    | busWrite dev reg buf =>
      rw [Engine.Serves, if_pos hp] at hserves
      exact .inr (.inr (.inl ⟨dev, reg, buf, rfl, hserves, hr.symm⟩))
    | busRead => exact absurd hp hserves.1
    | _ => contradiction
  case endOk =>
    cases i with
    | busWrite dev reg buf =>
      rw [Engine.Serves, if_neg (by simp [hp])] at hserves
      have hdir := hserves.1
      rw [hdir] at hr
      exact .inl ⟨dev, reg, buf, _, rfl, (Option.some.inj hr).symm, hinv.engine.write_done hdir hp⟩
    | busRead dev reg len =>
      obtain ⟨-, hdir, -, -, rfl⟩ := hserves
      rw [hdir] at hr
      have hlen := hinv.engine.buffer_length
      have hidx := hinv.engine.idx_fits
      have hdrained := hinv.engine.read_drained hdir hp
      simp only [Engine.wants, flagRxd, Bool.and_eq_false_iff, decide_eq_false_iff_not] at hdrained
      exact .inr (.inl ⟨dev, reg, s.eng.rbuf, s.eng.idx, s.eng.s, by rw [hlen], (Option.some.inj hr).symm, by omega,
        hdrained.imp_right fun h => by omega⟩)
    | _ => contradiction

end Sys2Proof.Machine
end

section
/-! SUPPORT. What an engine step appends to the history, and the phases after a start of the controller
(42_bus_engine.md R284, R292, R301). -/

namespace Sys2Proof.Machine

open Sys2Proof.Claims

/-! ### After a start of the controller -/

/-- A step that pushes no byte and leads to a phase after a start, or to `IDLE` (42_bus_engine.md R292). -/
structure State.NoPush (s t : State) : Prop where
  phase : t.eng.phase.started = true ∨ t.eng.phase = .idle
  hist : ∀ v, t.hist ≠ s.hist ++ [.access s.cur .bsc offFifo .write v]

section NoPush

variable {s : State}

theorem State.NoPush.stop (hs : s.eng.phase.started = true) (x : Stop) : s.NoPush (s.stop x) :=
  ⟨.inl (by rwa [State.stop_eng]), by simp⟩

theorem State.NoPush.regWrite (hs : s.eng.phase.started = true) {o : Nat} (ho : o ≠ offFifo) (v : Word)
    {f : State → State} (hf : ∀ u : State, (f u).hist = u.hist ∧ (f u).eng.phase.started = true) :
    s.NoPush (s.regWrite .bsc o v f) := by
  rcases regWrite_cases s .bsc o v f with ⟨x, ht⟩ | ⟨-, ht⟩ <;> rw [ht]
  · exact .stop hs x
  · obtain ⟨hh, hp⟩ := hf (s.writeAccess .bsc o v)
    exact ⟨.inl hp, by simp [hh, ho]⟩

theorem State.NoPush.regRead (hs : s.eng.phase.started = true) (o : Nat) {f : Word → State → State}
    (hf : ∀ (v : Word) (u : State), (f v u).hist = u.hist ∧ (f v u).eng.phase.started = true) :
    s.NoPush (s.regRead .bsc o f) := by
  rcases regRead_cases s .bsc o f with ⟨x, ht⟩ | ⟨-, ht⟩ <;> rw [ht]
  · exact .stop hs x
  · obtain ⟨hh, hp⟩ := hf (s.deviceRead .bsc o).1 (s.readAccess .bsc o)
    exact ⟨.inl hp, by simp [hh]⟩

theorem State.NoPush.poll (hs : s.eng.phase.started = true) {test : Word → Phase}
    (htest : ∀ v, (test v).started = true) : s.NoPush (s.poll test) := by
  unfold State.poll
  split
  · exact .regWrite hs (by decide) _ fun u => ⟨rfl, rfl⟩
  · refine .regRead hs _ fun v u => ⟨rfl, ?_⟩
    dsimp only
    split
    · rfl
    · exact htest v

theorem State.NoPush.engineStep (hs : s.eng.phase.started = true) {i : Instr} {t : State}
    (hx : s.engineStep i = some t) : s.NoPush t := by
  cases hp : s.eng.phase <;> simp only [State.engineStep, hp, Option.some.injEq, reduceCtorEq] at hx <;> subst hx
  case wA | wDlen | wFifo | wClr | wGo | endErr => simp [hp, Phase.started] at hs
  case rDlen | rClr | rGo | abC | abS => exact .regWrite hs (by decide) _ fun u => ⟨rfl, rfl⟩
  case wWait | rWait | rCpoll | rDpoll | rFpoll =>
    refine .poll hs fun v => ?_
    split_ifs <;> rfl
  case rCfifo | rFfifo => exact .regRead hs _ fun v u => ⟨rfl, rfl⟩
  case endOk | endTimeout => exact ⟨.inr rfl, by simp⟩

end NoPush

/-- Settles O39: the step is an engine step, since the client is in its operation. -/
theorem noFifoWriteAfterTheStart : Obligations.NoFifoWriteAfterTheStart := by
  intro i s t hb hbetween hs hx
  rcases exec_next hx with ⟨h, -⟩ | ⟨m, -, -, -, hgo⟩
  · exact absurd h hbetween
  · have h := State.NoPush.engineStep hs (hgo.engineStep hb).2
    exact ⟨h.phase, h.hist⟩

/-! ### Completions that return an error -/

/-- A step that appends nothing or an access on BSC. -/
def State.AppendsAccess (s t : State) : Prop :=
  t.hist = s.hist ∨ ∃ o d v, t.hist = s.hist ++ [.access s.cur .bsc o d v]

section AppendsAccess

variable {s : State}

theorem State.AppendsAccess.regWrite (o : Nat) (v : Word) {f : State → State} (hf : ∀ u, (f u).hist = u.hist) :
    s.AppendsAccess (s.regWrite .bsc o v f) := by
  rcases regWrite_cases s .bsc o v f with ⟨x, ht⟩ | ⟨-, ht⟩ <;> rw [ht]
  · exact .inl (s.stop_hist x)
  · exact .inr ⟨_, _, _, hf _⟩

theorem State.AppendsAccess.regRead (o : Nat) {f : Word → State → State} (hf : ∀ v u, (f v u).hist = u.hist) :
    s.AppendsAccess (s.regRead .bsc o f) := by
  rcases regRead_cases s .bsc o f with ⟨x, ht⟩ | ⟨-, ht⟩ <;> rw [ht]
  · exact .inl (s.stop_hist x)
  · exact .inr ⟨_, _, _, (hf _ _).trans (s.readAccess_hist .bsc o)⟩

theorem State.AppendsAccess.poll (test : Word → Phase) : s.AppendsAccess (s.poll test) := by
  unfold State.poll
  split
  · exact .regWrite _ _ fun u => rfl
  · exact .regRead _ fun v u => rfl

/-- Outside the completion phases. -/
theorem State.AppendsAccess.engineStep {i : Instr} {t : State} (hend : endResult s.eng = none)
    (hx : s.engineStep i = some t) : s.AppendsAccess t := by
  cases hp : s.eng.phase <;> simp only [State.engineStep, hp, Option.some.injEq, reduceCtorEq] at hx <;> subst hx
  case wWait | rWait | rCpoll | rDpoll | rFpoll => exact .poll _
  case rCfifo | rFfifo => exact .regRead _ fun v u => rfl
  case endOk => cases hd : s.eng.dir <;> simp [endResult, hp, hd] at hend
  case endTimeout | endErr => simp [endResult, hp] at hend
  all_goals exact .regWrite _ _ fun u => rfl

/-- Only a completion phase completes, with its own result. -/
theorem State.engineStep_done {i j : Instr} {t : State} {c : Nat} {r : Result} (hx : s.engineStep i = some t)
    (hh : t.hist = s.hist ++ [.done c j r]) : endResult s.eng = some r := by
  cases hend : endResult s.eng with
  | none =>
    rcases State.AppendsAccess.engineStep hend hx with h | ⟨o, d, v, h⟩
    · simp [h] at hh
    · simp [h] at hh
  | some r' =>
    obtain rfl := Option.some.inj ((s.engineStep_end i hend).symm.trans hx)
    simp only [State.finishBus_hist, List.append_cancel_left_eq, List.cons.injEq, Event.done.injEq, and_true] at hh
    rw [hh.2.2]

end AppendsAccess

/-- The errors an operation can return: `map`'s own, and those of the engine's completion phases. -/
theorem exec_done_err {i : Instr} {s t : State} {e : ErrCode} (hx : exec i s = .next t)
    (hh : t.hist = s.hist ++ [.done s.cur i (.err e)]) :
    (e = .mapError ∧ ∃ k, i = .map k) ∨ (isBusOp i = true ∧ endResult s.eng = some (.err e)) := by
  rcases exec_next hx with ⟨-, rfl⟩ | ⟨m, -, -, -, hgo⟩
  · simp [State.startOf_hist] at hh
  cases hgo with
  | script a _ _ hr ht =>
    rcases s.perform_cases i a with ⟨x, h⟩ | ⟨k, o, -, -, h⟩ | ⟨k, o, v, -, -, h⟩ | ⟨us, -, h⟩ | ⟨r, ha, h⟩ <;>
      rw [ht, h] at hh
    case inr.inr.inr.inr =>
      rcases hr r ha with rfl | ⟨v, rfl⟩ | ⟨b, rfl⟩ <;> simp at hh
    all_goals simp at hh
  | map k hi ht =>
    refine .inl ⟨?_, k, hi⟩
    rcases s.mapBody_cases i k with ⟨-, h⟩ | ⟨-, -, h⟩ | ⟨-, -, h⟩ <;> rw [ht, h] at hh <;> simp at hh
    all_goals exact hh.symm
  | unmap k hi ht =>
    rcases s.unmapBody_cases i k with ⟨x, h⟩ | ⟨-, -, -, h⟩ <;> rw [ht, h] at hh <;> simp at hh
  | bus hb _ ht => exact .inr ⟨hb, State.engineStep_done ht hh⟩

/-! ### `PayloadTooLarge` -/

/-- The client that claimed the engine holds it. -/
theorem State.Between.holds_claimed {s : State} (hs : s.Between) (i : Instr) (e : Engine) :
    ({ s.started i with eng := { e with owner := some s.cur } } : State).Holds i := by
  obtain ⟨m, hm, hstop, -⟩ := hs
  exact ⟨rfl, _, getElem?_modify_self _ hm, hstop, rfl⟩

/-- Only the start of a long `bus_write` enters `END_ERR` (42_bus_engine.md R283, R301). -/
theorem exec_enters_endErr {i : Instr} {s t : State} (hx : exec i s = .next t) (ht : t.eng.phase = .endErr)
    (hs : s.eng.phase ≠ .endErr) : s.Between ∧ ∃ d reg buf, i = .busWrite d reg buf ∧ 16 ≤ buf.length := by
  have hsame : t.eng ≠ s.eng := fun h => hs (h ▸ ht)
  cases hb : isBusOp i with
  | false => exact absurd ((exec_move hx).eng_of_not_bus hb) hsame
  | true =>
    rcases exec_next hx with ⟨hbetween, rfl⟩ | ⟨m, -, -, -, hgo⟩
    · refine ⟨hbetween, ?_⟩
      rcases s.startOf_cases i with ⟨r, -, h⟩ | ⟨-, -, h⟩ | ⟨-, -, -, h⟩ | ⟨-, -, h⟩
      case inr.inr.inl =>
        rw [h] at ht
        cases i with
        | busWrite d reg buf =>
          refine ⟨d, reg, buf, rfl, Nat.le_of_not_lt fun hlen => ?_⟩
          simp [setUpOf, setUpWrite_of_fits d reg (Nat.le_of_lt_succ hlen)] at ht
        | busRead => simp [setUpOf, setUpRead] at ht
        | _ => contradiction
      all_goals exact absurd (by simp [h]) hsame
    · cases State.engineStep_cases (hgo.engineStep hb).2 with
      | stop x h => exact absurd (by simp [h]) hsame
      | read o e _ _ he _ h =>
        subst h
        exact absurd ht he.phase
      | write o v e _ he _ h =>
        subst h
        exact absurd ht he.phase
      | finish r h => simp [h] at ht

/-- Settles O32: a long payload by its start and completion steps, one that fits by O30, and the last two parts by what
can enter `END_ERR` and what can return an error. -/
theorem longPayloadReturnsPayloadTooLarge : Obligations.LongPayloadReturnsPayloadTooLarge := by
  refine ⟨fun d reg buf s hd hmin hmax hs hc => ?_, fun d reg buf s hd hlen hs hc => ?_,
    fun i s t => exec_enters_endErr, fun i s t hx hh => ?_⟩
  · have hstart := exec_claim (i := .busWrite d reg buf) rfl ((checkBusWrite_none d buf).2 ⟨hd, hmax⟩) hs hc
    rw [setUpOf, setUpWrite_of_long d reg hmin] at hstart
    have hfinish := exec_engineStep rfl (hs.holds_claimed (.busWrite d reg buf) { s.eng with phase := .endErr })
      (State.engineStep_end _ (r := .err .payloadTooLarge) rfl)
    refine ⟨_, (runAlone_succ hstart 1).trans (runAlone_succ hfinish 0), ?_, rfl, rfl, rfl, rfl, rfl, rfl⟩
    simp
  · exact ⟨_, busWriteStartClaimsTheEngine d reg buf s hd (by omega) hs hc, rfl, rfl⟩
  · rcases exec_done_err hx hh with ⟨he, -⟩ | ⟨-, hend⟩
    · contradiction
    · cases hp : s.eng.phase <;> simp [endResult, hp] at hend ⊢
      cases hd : s.eng.dir <;> simp [hd] at hend

end Sys2Proof.Machine
end

section
/-! SUPPORT. A bus operation alone ends within its bound, whatever the device answers (42_bus_engine.md R284 to R286;
60_exceptions.md R352): a bound on the steps left, which every engine step lowers. -/

namespace Sys2Proof.Machine

open Sys2Proof.Claims

/-- The steps at most left of the receive part after `START_READ`, the sample budget unused: each byte wanted costs a
budget of samples and its pop, and the last budget ends in the abort. -/
def Engine.receiveSteps (wanted budget : Nat) : Nat := budget + 3 + wanted * (budget + 1)

/-- The steps at most left after `START_WRITE`'s samples: the receive part with its three writes after a select write,
else the abort. -/
def Engine.afterWriteSteps (e : Engine) (budget : Nat) : Nat :=
  if e.sel then 3 + Engine.receiveSteps e.len.toNat budget else 3

/-- The steps at most left of a transaction, the completion step included. -/
def Engine.stepsLeft (e : Engine) (budget : Nat) : Nat :=
  match e.phase with
  | .idle => 0
  | .endOk | .endTimeout | .endErr => 1
  | .abS => 2
  | .abC => 3
  | .wWait => budget - e.polls + e.afterWriteSteps budget
  | .wGo => 1 + budget + e.afterWriteSteps budget
  | .wClr => 2 + budget + e.afterWriteSteps budget
  | .wFifo i => e.wbuf.length - i + 3 + budget + e.afterWriteSteps budget
  | .wDlen => e.wbuf.length + 4 + budget + e.afterWriteSteps budget
  | .wA => e.wbuf.length + 5 + budget + e.afterWriteSteps budget
  | .rDlen => 3 + Engine.receiveSteps e.len.toNat budget
  | .rClr => 2 + Engine.receiveSteps e.len.toNat budget
  | .rGo => 1 + Engine.receiveSteps e.len.toNat budget
  | .rWait | .rCpoll | .rDpoll | .rFpoll => Engine.receiveSteps (e.len.toNat - e.idx) budget - e.polls
  | .rCfifo | .rFfifo => 1 + Engine.receiveSteps (e.len.toNat - e.idx - 1) budget

/-- The transaction is in flight, has used no more than its sample budget, and pops only a byte it wants. -/
def Engine.OnCourse (e : Engine) (budget : Nat) : Prop :=
  match e.phase with
  | .idle => False
  | .wWait | .rWait | .rCpoll | .rDpoll | .rFpoll => e.polls ≤ budget
  | .rCfifo | .rFfifo => e.idx < e.len.toNat
  | .wA | .wDlen | .wFifo _ | .wClr | .wGo | .rDlen | .rClr | .rGo | .abC | .abS | .endOk | .endTimeout
  | .endErr => True

/-- An engine record on course with fewer steps left. -/
def Engine.Nearer (e e' : Engine) (budget : Nat) : Prop :=
  e'.OnCourse budget ∧ e'.stepsLeft budget < e.stepsLeft budget

theorem Engine.budget_le_receiveSteps (wanted budget : Nat) : budget + 3 ≤ Engine.receiveSteps wanted budget :=
  Nat.le_add_right _ _

/-- A byte wanted costs a budget of samples and its pop. -/
theorem Engine.receiveSteps_of_wanted {wanted : Nat} (h : 0 < wanted) (budget : Nat) :
    Engine.receiveSteps wanted budget = Engine.receiveSteps (wanted - 1) budget + (budget + 1) := by
  obtain ⟨n, rfl⟩ := Nat.exists_eq_add_of_lt h
  simp only [Engine.receiveSteps, Nat.zero_add, Nat.add_sub_cancel, Nat.succ_mul, Nat.add_assoc]

theorem Engine.three_le_afterWriteSteps (e : Engine) (budget : Nat) : 3 ≤ e.afterWriteSteps budget := by
  unfold Engine.afterWriteSteps
  split <;> omega

/-- A transaction on course has a step left. -/
theorem Engine.OnCourse.stepsLeft_pos {e : Engine} {b : Nat} (h : e.OnCourse b) : 0 < e.stepsLeft b := by
  have hwrite := e.three_le_afterWriteSteps b
  have hreceive := Engine.budget_le_receiveSteps (e.len.toNat - e.idx) b
  cases hp : e.phase <;> simp only [Engine.OnCourse, hp] at h <;> simp only [Engine.stepsLeft, hp] <;> omega

/-- A sample in `W_WAIT`: another poll has one less of the budget, and what may follow was counted. -/
theorem Engine.Nearer.sampleWrite {e : Engine} {b : Nat} {v : Word} (hp : e.phase = .wWait) (hlt : e.polls < b) :
    e.Nearer
      { e with
        polls := e.polls + 1, s := v
        phase := if flagDone v then (if e.sel then .rDlen else .endOk) else .wWait } b := by
  have hmin := e.three_le_afterWriteSteps b
  have hleft : e.stepsLeft b = b - e.polls + e.afterWriteSteps b := by simp only [Engine.stepsLeft, hp]
  rw [Engine.Nearer, hleft]
  split_ifs with hdone hsel
  · refine ⟨trivial, ?_⟩
    rw [Engine.afterWriteSteps, if_pos hsel]
    simp only [Engine.stepsLeft]
    omega
  · refine ⟨trivial, ?_⟩
    simp only [Engine.stepsLeft]
    omega
  · refine ⟨hlt, ?_⟩
    change b - (e.polls + 1) + e.afterWriteSteps b < _
    omega

/-- A sample in the receive part: another poll has one less of the budget, a pop is of a byte wanted, and `END_OK` is
the end. -/
theorem Engine.Nearer.sample {e : Engine} {b : Nat} {v : Word} {p : Phase}
    (hleft : e.stepsLeft b = Engine.receiveSteps (e.len.toNat - e.idx) b - e.polls) (hlt : e.polls < b)
    (hp : p ∈ [.rWait, .rCpoll, .rDpoll, .rFpoll, .endOk] ∨ p ∈ [.rCfifo, .rFfifo] ∧ e.wants v = true) :
    e.Nearer { e with polls := e.polls + 1, s := v, phase := p } b := by
  have hmin := Engine.budget_le_receiveSteps (e.len.toNat - e.idx) b
  simp only [List.mem_cons, List.not_mem_nil, or_false] at hp
  rw [Engine.Nearer, hleft]
  rcases hp with (rfl | rfl | rfl | rfl | rfl) | ⟨rfl | rfl, hw⟩ <;>
    simp only [Engine.OnCourse, Engine.stepsLeft, true_and]
  case inr.inl | inr.inr =>
    have hwanted := ((e.wants_iff v).1 hw).2
    have hpop := Engine.receiveSteps_of_wanted (Nat.sub_pos_of_lt hwanted) b
    omega
  all_goals omega

/-- A step after which the acting client is over, or its transaction is nearer to its end. -/
def State.Nearer (s t : State) : Prop := t.Over ∨ s.eng.Nearer t.eng s.par.pollBudget

/-- The acting client is one of the clients. -/
def State.HasActing (s : State) : Prop := ∃ m, s.clients[s.cur]? = some m

theorem State.over_stop {s : State} (h : s.HasActing) (x : Stop) : (s.stop x).Over := by
  obtain ⟨m, hm⟩ := h
  refine ⟨{ m with stopped := some x }, ?_, .inr rfl⟩
  rw [State.stop_cur, State.stop_clients]
  exact getElem?_modify_self _ hm

theorem State.over_finishBus {s : State} (h : s.HasActing) (i : Instr) (r : Result) : (s.finishBus i r).Over := by
  obtain ⟨m, hm⟩ := h
  exact ⟨{ m with op := none, step := 0, val := 0#32 }, getElem?_modify_self _ hm, .inl rfl⟩

section EngineStep

variable {s : State}

theorem State.Nearer.regWrite (hc : s.HasActing) (o : Nat) (v : Word) {f : State → State}
    (hf : ∀ u : State, u.eng = s.eng → s.eng.Nearer (f u).eng s.par.pollBudget) :
    s.Nearer (s.regWrite .bsc o v f) := by
  rcases regWrite_cases s .bsc o v f with ⟨x, ht⟩ | ⟨-, ht⟩ <;> rw [ht]
  · exact .inl (State.over_stop hc x)
  · exact .inr (hf _ (s.writeAccess_eng .bsc o v))

theorem State.Nearer.regRead (hc : s.HasActing) (o : Nat) {f : Word → State → State}
    (hf : ∀ (v : Word) (u : State), u.eng = s.eng → s.eng.Nearer (f v u).eng s.par.pollBudget) :
    s.Nearer (s.regRead .bsc o f) := by
  rcases regRead_cases s .bsc o f with ⟨x, ht⟩ | ⟨-, ht⟩ <;> rw [ht]
  · exact .inl (State.over_stop hc x)
  · exact .inr (hf _ _ (s.readAccess_eng .bsc o))

/-- A poll on course: the budget used up leads to the abort, a sample leaves one less of it. -/
theorem State.Nearer.poll (hc : s.HasActing) {test : Word → Phase}
    (habort : 3 + (s.par.pollBudget - s.eng.polls) ≤ s.eng.stepsLeft s.par.pollBudget)
    (hp : s.eng.polls ≤ s.par.pollBudget)
    (htest : ∀ v, s.eng.polls < s.par.pollBudget →
      s.eng.Nearer { s.eng with polls := s.eng.polls + 1, s := v, phase := test v } s.par.pollBudget) :
    s.Nearer (s.poll test) := by
  unfold State.poll
  split
  next =>
    refine .regWrite hc _ _ fun u hu => ⟨trivial, ?_⟩
    change 2 < _
    omega
  next hne =>
    refine .regRead hc _ fun v u hu => ?_
    simp only [hu]
    split
    next =>
      refine ⟨trivial, ?_⟩
      change 3 < _
      omega
    next => exact htest v (by omega)

theorem State.Nearer.engineStep {t : State} {i : Instr} (hc : s.HasActing) (h : s.eng.OnCourse s.par.pollBudget)
    (hx : s.engineStep i = some t) : s.Nearer t := by
  cases hp : s.eng.phase <;> simp only [State.engineStep, hp, Option.some.injEq, reduceCtorEq] at hx <;> subst hx <;>
    simp only [Engine.OnCourse, hp] at h
  case endOk | endTimeout | endErr => exact .inl (State.over_finishBus hc i _)
  case wFifo k =>
    refine .regWrite hc _ _ fun u hu => ?_
    simp only [State.setPhase, hu, Engine.Nearer, Engine.stepsLeft, Engine.OnCourse, hp, Engine.afterWriteSteps]
    by_cases hk : k < s.eng.wbuf.length <;> simp only [hk, if_true, if_false, true_and] <;> omega
  case wWait =>
    have hmin := s.eng.three_le_afterWriteSteps s.par.pollBudget
    exact .poll hc (by simp only [Engine.stepsLeft, hp]; omega) h fun v hlt => .sampleWrite hp hlt
  case rWait | rCpoll | rDpoll | rFpoll =>
    have hmin := Engine.budget_le_receiveSteps (s.eng.len.toNat - s.eng.idx) s.par.pollBudget
    have hleft : s.eng.stepsLeft s.par.pollBudget =
        Engine.receiveSteps (s.eng.len.toNat - s.eng.idx) s.par.pollBudget - s.eng.polls := by
      simp only [Engine.stepsLeft, hp]
    refine .poll hc (by omega) h fun v hlt => .sample hleft hlt ?_
    split_ifs with hw <;> simp [hw]
  case rCfifo | rFfifo =>
    refine .regRead hc _ fun v u hu => ?_
    simp only [hu, Engine.Nearer, Engine.stepsLeft, Engine.OnCourse, hp, Nat.sub_sub]
    omega
  all_goals
    refine .regWrite hc _ _ fun u hu => ?_
    simp [State.setPhase, hu, Engine.Nearer, Engine.stepsLeft, Engine.OnCourse, hp, Engine.afterWriteSteps]

end EngineStep

/-- An engine on course has a step. -/
theorem Engine.OnCourse.engineStep {s : State} {b : Nat} (h : s.eng.OnCourse b) (i : Instr) :
    ∃ t, s.engineStep i = some t := by
  cases hp : s.eng.phase <;> simp only [State.engineStep, hp, Option.some.injEq, exists_eq']
  simp only [Engine.OnCourse, hp] at h

/-- An engine step leaves the owner in its operation, unless its client is over. -/
theorem EngineMove.holds {i : Instr} {s t : State} (h : EngineMove i s t) (hh : s.Holds i) :
    t.Over ∨ t.Holds i ∧ t.par = s.par := by
  obtain ⟨howner, m, hm, hstop, hop⟩ := hh
  cases h with
  | stop x ht => exact .inl (ht ▸ State.over_stop ⟨m, hm⟩ x)
  | finish r ht => exact .inl (ht ▸ State.over_finishBus ⟨m, hm⟩ i r)
  | read o e _ _ he _ ht =>
    subst ht
    exact .inr ⟨⟨by simpa using he.owner.trans howner, { m with step := m.step + 1, val := (s.deviceRead .bsc o).1 },
      by simp [hm], hstop, hop⟩, s.readAccess_par .bsc o⟩
  | write o v e _ he _ ht =>
    subst ht
    exact .inr ⟨⟨he.owner.trans howner, _, getElem?_modify_self _ hm, hstop, hop⟩, rfl⟩

/-- Alone, the owner's operation on course is over within the steps left: by induction on a bound of them. -/
theorem runAlone_engine {i : Instr} (hb : isBusOp i = true) (n : Nat) {s : State} (hh : s.Holds i)
    (hcourse : s.eng.OnCourse s.par.pollBudget) (hn : s.eng.stepsLeft s.par.pollBudget ≤ n) :
    ∃ k t, k ≤ n ∧ runAlone i k s = .next t ∧ t.Over := by
  induction n generalizing s with
  | zero => exact absurd hcourse.stepsLeft_pos (by omega)
  | succ n ih =>
    obtain ⟨u, hu⟩ := hcourse.engineStep i
    have hexec := exec_engineStep hb hh hu
    have hc : s.HasActing := hh.2.imp fun m h => h.1
    have hover : u.Over → ∃ k t, k ≤ n + 1 ∧ runAlone i k s = .next t ∧ t.Over :=
      fun h => ⟨1, u, by omega, runAlone_succ hexec 0, h⟩
    rcases State.Nearer.engineStep hc hcourse hu with h | ⟨hcourse', hless⟩
    · exact hover h
    rcases (State.engineStep_cases hu).holds hh with h | ⟨hh', hpar⟩
    · exact hover h
    rw [← hpar] at hcourse' hless
    obtain ⟨k, t, hk, hrun, ht⟩ := ih hh' hcourse' (by rw [hpar] at hless ⊢; omega)
    exact ⟨k + 1, t, by omega, (runAlone_succ hexec k).trans hrun, ht⟩

/-- What a bus operation sets up is on course. -/
theorem setUpOf_onCourse {i : Instr} (hb : isBusOp i = true) (e : Engine) (b : Nat) : (setUpOf i e).OnCourse b := by
  cases i with
  | busWrite d reg buf =>
    simp only [setUpOf, setUpWrite]
    split <;> trivial
  | busRead => trivial
  | _ => contradiction

/-- Alone, a bus operation is over within its start step and the steps left of what it sets up. -/
theorem runAlone_bus {i : Instr} (hb : isBusOp i = true) {s : State} (hs : s.Between) {n : Nat}
    (hn : operandCheck i = none → (setUpOf i s.eng).stepsLeft s.par.pollBudget ≤ n) :
    ∃ k t, 1 ≤ k ∧ k ≤ 1 + n ∧ runAlone i k s = .next t ∧ t.Over := by
  have hexec := exec_between i hs
  have hc : (s.started i).HasActing := by
    obtain ⟨m, hm, -⟩ := hs
    exact ⟨_, getElem?_modify_self _ hm⟩
  have hover : (s.startOf i).Over → ∃ k t, 1 ≤ k ∧ k ≤ 1 + n ∧ runAlone i k s = .next t ∧ t.Over :=
    fun h => ⟨1, _, le_refl 1, Nat.le_add_right 1 n, runAlone_succ hexec 0, h⟩
  rcases s.startOf_cases i with ⟨r, -, h⟩ | ⟨-, -, h⟩ | ⟨-, hcheck, -, h⟩ | ⟨hb', -, -⟩
  · exact hover (h ▸ State.over_stop hc _)
  · exact hover (h ▸ State.over_stop hc _)
  · rw [h] at hexec
    obtain ⟨k, t, hk, hrun, ht⟩ := runAlone_engine hb n (hs.holds_claimed i (setUpOf i s.eng))
      (setUpOf_onCourse hb s.eng s.par.pollBudget) (hn hcheck)
    exact ⟨k + 1, t, by omega, by omega, (runAlone_succ hexec k).trans hrun, ht⟩
  · simp [hb] at hb'

/-- Settles O48: what the start sets up has the bound's steps left; a payload that does not fit has its completion. -/
theorem busWriteEndsWithinItsBound : Obligations.BusWriteEndsWithinItsBound := by
  intro d reg buf s hs
  obtain ⟨k, t, hmin, hmax, hrun, ht⟩ := runAlone_bus (i := .busWrite d reg buf) rfl hs
    (n := buf.length + 5 + s.par.pollBudget + 3) fun _ => by
      by_cases hlen : buf.length ≤ 15
      · simp only [setUpOf, setUpWrite_of_fits d reg hlen, Engine.stepsLeft, Engine.afterWriteSteps]
        simp
      · simp only [setUpOf, setUpWrite_of_long d reg (Nat.lt_of_not_le hlen), Engine.stepsLeft]
        omega
  exact ⟨k, t, hmin, by omega, hrun, ht⟩

/-- Settles O49: what the start sets up has the bound's steps left, the select write and the receive part. -/
theorem busReadEndsWithinItsBound : Obligations.BusReadEndsWithinItsBound := by
  intro d reg len s hs
  obtain ⟨k, t, hmin, hmax, hrun, ht⟩ := runAlone_bus (i := .busRead d reg len) rfl hs
    (n := 5 + s.par.pollBudget + 3 + Engine.receiveSteps len s.par.pollBudget) fun hcheck => by
      have hlen : (BitVec.ofNat 16 len).toNat = len := by
        obtain ⟨-, -, hmax⟩ := (checkBusRead_none d len).1 hcheck
        exact Nat.mod_eq_of_lt (by omega)
      simp only [setUpOf, setUpRead, Engine.stepsLeft, Engine.afterWriteSteps, if_true, hlen, List.length_nil]
      omega
  refine ⟨k, t, hmin, ?_, hrun, ht⟩
  have hreceive : Engine.receiveSteps len s.par.pollBudget = ((len + 1) * s.par.pollBudget + len) + 3 := by
    unfold Engine.receiveSteps
    ring
  omega

end Sys2Proof.Machine
end

section
/-! SUPPORT. A step that stops its client (60_exceptions.md R345, R347, R349): it is a stop and nothing else, after
`Start` where the client was between operations. -/

namespace Sys2Proof.Machine

/-- From `s` to `t` the acting client of `s` keeps its stop, or its lack of one. -/
def State.KeepsStop (s t : State) : Prop :=
  (t.clients[s.cur]?).bind ClientState.stopped = (s.clients[s.cur]?).bind ClientState.stopped

theorem State.KeepsStop.of_modify {s t : State} {f : ClientState → ClientState}
    (hc : t.clients = s.clients.modify s.cur f) (hf : ∀ m, (f m).stopped = m.stopped) : s.KeepsStop t := by
  rw [State.KeepsStop, hc, List.getElem?_modify_eq]
  cases s.clients[s.cur]? with
  | none => rfl
  | some m => exact hf m

/-- A move stops the acting client in its start step, stops it later on, or does not stop it. -/
theorem Move.stops_or_keepsStop {i : Instr} {s t : State} (h : Move i s t) :
    (s.Between ∧ ∃ x, t = (s.started i).stop x) ∨ (∃ x, t = s.stop x) ∨ s.KeepsStop t := by
  cases h with
  | startStop x hs ht => exact .inl ⟨hs, x, ht⟩
  | stop x _ ht => exact .inr (.inl ⟨x, ht⟩)
  | start _ _ ht => exact .inr (.inr (ht ▸ .of_modify (s.started_clients i) fun _ => rfl))
  | claim _ _ _ _ ht => exact .inr (.inr (ht ▸ .of_modify (s.started_clients i) fun _ => rfl))
  | read k o e _ _ _ ht => exact .inr (.inr (ht ▸ .of_modify (s.readAccess_clients k o) fun _ => rfl))
  | write k o w e _ _ _ ht => exact .inr (.inr (ht ▸ .of_modify (s.writeAccess_clients k o w) fun _ => rfl))
  | delay us _ ht => exact .inr (.inr (ht ▸ .of_modify (s.delay_clients us) fun _ => rfl))
  | complete u r _ _ hu ht =>
    have hclients := u.complete_clients i r
    rw [hu.clients, hu.cur] at hclients
    exact .inr (.inr (ht ▸ .of_modify hclients fun _ => rfl))
  | release r _ _ _ ht => exact .inr (.inr (ht ▸ .of_modify (s.finishBus_clients i r) fun _ => rfl))

/-- Settles O20: the client was running, so the step is one of the two stops, and a stop touches only the clients, the
faults and the refusal mark. -/
theorem faultsAndRefusalsArePrecise : Obligations.FaultsAndRefusalsArePrecise := by
  intro i s t hx ⟨m, hm, hstop⟩
  have hmove := exec_move hx
  rcases hmove.stops_or_keepsStop with ⟨hs, x, rfl⟩ | ⟨x, rfl⟩ | hkeep
  · exact ⟨by simp, by simp, by simp, by simp, .inr ⟨hs, by simp⟩⟩
  · exact ⟨by simp, by simp, by simp, by simp, .inl (by simp)⟩
  · obtain ⟨n, n', a⟩ := hmove.actingStep
    rw [State.KeepsStop, hm, a.before] at hkeep
    exact absurd (hkeep.trans a.running) hstop

end Sys2Proof.Machine
end

section
/-! SUPPORT. A window or GPIO operation alone ends within its bound, whether its accesses are admitted or not
(60_exceptions.md R352): every step of its fixed sequence stops the client, completes, or counts one access or delay. -/

namespace Sys2Proof.Machine

theorem State.InOp.hasActing {i : Instr} {n : Nat} {x : Word} {s : State} (h : s.InOp i n x) : s.HasActing :=
  h.imp fun _ hm => hm.1

theorem State.over_complete {s : State} (h : s.HasActing) (i : Instr) (r : Result) : (s.complete i r).Over := by
  obtain ⟨m, hm⟩ := h
  exact ⟨{ m with op := none, step := 0, val := 0#32 }, getElem?_modify_self _ hm, .inl rfl⟩

/-- The completion steps of `map` and `unmap` complete or stop the client. -/
theorem State.over_mapBody {s : State} (h : s.HasActing) (i : Instr) (k : WindowKind) : (s.mapBody i k).Over := by
  have hgranted : (s.mapAsked.mapWindow k).HasActing := by simpa [State.HasActing] using h
  rcases s.mapBody_cases i k with ⟨-, ht⟩ | ⟨-, -, ht⟩ | ⟨-, -, ht⟩ <;> rw [ht]
  · exact State.over_complete h i _
  · exact State.over_complete hgranted i _
  · exact State.over_complete (s := s.mapAsked) h i _

theorem State.over_unmapBody {s : State} (h : s.HasActing) (i : Instr) (k : WindowKind) : (s.unmapBody i k).Over := by
  have hclosed : (s.setWindow k { s.window k with mapped := false }).HasActing := by simpa [State.HasActing] using h
  rcases s.unmapBody_cases i k with ⟨x, ht⟩ | ⟨-, -, -, ht⟩ <;> rw [ht]
  · exact State.over_stop h x
  · exact State.over_complete hclosed i _

/-- A step of a fixed sequence ends the operation, or is counted in it. -/
theorem State.InOp.perform {i : Instr} {n : Nat} {x : Word} {s : State} (h : s.InOp i n x) (a : Act) :
    (s.perform i a).Over ∨ (∃ x', (s.perform i a).InOp i (n + 1) x') ∧ (s.perform i a).par = s.par := by
  rcases s.perform_cases i a with ⟨y, ht⟩ | ⟨k, o, -, -, ht⟩ | ⟨k, o, v, -, -, ht⟩ | ⟨us, -, ht⟩ | ⟨r, -, ht⟩ <;>
    rw [ht]
  · exact .inl (State.over_stop h.hasActing y)
  · refine .inr ⟨⟨(s.deviceRead k o).1, h.goesOn (s.readAccess_cur k o) (s.readAccess_clients k o) ?_⟩,
      s.readAccess_par k o⟩
    exact fun m hn _ => ⟨rfl, rfl, by rw [hn], rfl⟩
  · exact .inr ⟨⟨x, h.goesOn rfl (s.writeAccess_clients k o v) fun m hn hx => ⟨rfl, rfl, by rw [hn], hx⟩⟩, rfl⟩
  · exact .inr ⟨⟨x, h.goesOn rfl (s.delay_clients us) fun m hn hx => ⟨rfl, rfl, by rw [hn], hx⟩⟩, rfl⟩
  · exact .inl (State.over_complete h.hasActing i r)

/-- No fixed sequence is longer than the six steps of `enable_pullups` (41_gpio_fields.md R260). -/
theorem scriptOf_finish {p : Params} {i : Instr} {f : Nat → Word → Act} (hf : scriptOf p i = some f) {n : Nat}
    (hn : 6 ≤ n) (x : Word) : ∃ r, f n x = .finish r := by
  obtain ⟨n, rfl⟩ := Nat.exists_eq_add_of_le' hn
  cases i <;> simp only [scriptOf, Option.some.injEq, reduceCtorEq] at hf <;> subst hf <;> exact ⟨_, rfl⟩

/-- Alone, a fixed sequence with at most `d` of its six steps left is over after these and its completion: by induction
on `d`. -/
theorem runAlone_script {i : Instr} {f : Nat → Word → Act} (d : Nat) {n : Nat} {x : Word} {s : State}
    (hf : scriptOf s.par i = some f) (hin : s.InOp i n x) (hn : 6 ≤ n + d) :
    ∃ k t, k ≤ d + 1 ∧ runAlone i k s = .next t ∧ t.Over := by
  induction d generalizing n x s with
  | zero =>
    obtain ⟨r, hr⟩ := scriptOf_finish hf hn x
    exact ⟨1, _, le_refl 1, runAlone_succ (exec_inOp hf hin hr) 0, State.over_complete hin.hasActing i r⟩
  | succ d ih =>
    have hexec := exec_inOp hf hin rfl
    rcases hin.perform (f n x) with hover | ⟨⟨x', hin'⟩, hpar⟩
    · exact ⟨1, _, by omega, runAlone_succ hexec 0, hover⟩
    · rw [← hpar] at hf
      obtain ⟨k, t, hk, hrun, ht⟩ := ih hf hin' (by omega)
      exact ⟨k + 1, t, by omega, (runAlone_succ hexec k).trans hrun, ht⟩

/-- From inside a window or GPIO operation, nothing of it done yet. -/
theorem runAlone_window {i : Instr} (hb : isBusOp i = false) {x : Word} {s : State} (hin : s.InOp i 0 x) :
    ∃ k t, k ≤ 7 ∧ runAlone i k s = .next t ∧ t.Over := by
  cases i with
  | map k =>
    exact ⟨1, _, by decide, runAlone_succ (exec_map_inOp hin) 0, State.over_mapBody hin.hasActing _ k⟩
  | unmap k =>
    exact ⟨1, _, by decide, runAlone_succ (exec_unmap_inOp hin) 0, State.over_unmapBody hin.hasActing _ k⟩
  | busWrite | busRead => contradiction
  | _ => exact runAlone_script 6 rfl hin (le_refl 6)

/-- Settles O47: the start step refuses the operands, or leaves the client in its operation with seven steps at most. -/
theorem windowOperationEndsWithinEightSteps : Obligations.WindowOperationEndsWithinEightSteps := by
  intro i s hb hs
  have hexec := exec_between i hs
  obtain ⟨m, hm, hstop, -⟩ := hs
  have hin : (s.started i).InOp i 0 0#32 := ⟨_, getElem?_modify_self _ hm, hstop, rfl, rfl, rfl⟩
  rcases s.startOf_cases i with ⟨r, -, ht⟩ | ⟨hb', -⟩ | ⟨hb', -⟩ | ⟨-, -, ht⟩
  · exact ⟨1, _, le_refl 1, by decide, runAlone_succ hexec 0, ht ▸ State.over_stop hin.hasActing _⟩
  · simp [hb] at hb'
  · simp [hb] at hb'
  · rw [ht] at hexec
    obtain ⟨k, t, hk, hrun, hover⟩ := runAlone_window hb hin
    exact ⟨k + 1, t, by omega, by omega, (runAlone_succ hexec k).trans hrun, hover⟩

end Sys2Proof.Machine
end

section
/-! SUPPORT. The faults of a step against the table of 60_exceptions.md R345, and the errors it returns against R340. -/

namespace Sys2Proof.Machine

/-! ### Faults -/

/-- The rows of R345's table: the fault codes with the form of their `info`, `c` being the client that faults. -/
inductive FaultRow (c : Nat) : FaultCode → FaultInfo → Prop where
  | offset (k : WindowKind) (o : Nat) : FaultRow c .offsetOutOfRange (.register k o)
  | access (k : WindowKind) (o : Nat) : FaultRow c .windowNotMapped (.register k o)
  | unmap (k : WindowKind) : FaultRow c .windowNotMapped (.window k)
  | conflict : FaultRow c .busConflict (.client c)
  | inUse (k : WindowKind) {d : Nat} (hd : d ≠ c) : FaultRow c .unmapInFlight (.user k (some d))

/-- A refusal, or a fault of the table. -/
def Stop.InTable (c : Nat) : Stop → Prop
  | .fault code info => FaultRow c code info
  | .refuse _ => True

/-- Whatever fault is recorded from `s` to `t` is the acting client's, and in the table. -/
def State.FaultsInTable (s t : State) : Prop :=
  ∀ f, t.faults = s.faults ++ [f] → f.client = s.cur ∧ FaultRow s.cur f.code f.info

section FaultsInTable

variable {s : State}

theorem State.FaultsInTable.of_same {t : State} (h : t.faults = s.faults) : s.FaultsInTable t := by
  intro f hf
  simp [h] at hf

theorem State.FaultsInTable.stop {x : Stop} (h : x.InTable s.cur) : s.FaultsInTable (s.stop x) := by
  intro f hf
  rw [State.stop_faults, List.append_cancel_left_eq] at hf
  obtain ⟨hc, hx⟩ := mem_faultsOf.1 (hf ▸ List.mem_singleton_self f)
  rw [Option.some.inj hx] at h
  exact ⟨hc, h⟩

theorem accessCheck_inTable {k : WindowKind} {o : Nat} {d : Dir} {x : Stop} (h : accessCheck s k o d = some x) :
    x.InTable s.cur := by
  rcases accessCheck_some h with rfl | rfl | rfl | rfl
  · exact .access k o
  · exact .offset k o
  · exact .conflict
  · trivial

theorem State.FaultsInTable.regRead (k : WindowKind) (o : Nat) {f : Word → State → State}
    (hf : ∀ v u, (f v u).faults = u.faults) : s.FaultsInTable (s.regRead k o f) := by
  cases h : accessCheck s k o .read with
  | none =>
    rw [regRead_of_readable f (accessCheck_read.1 h)]
    exact .of_same ((hf _ _).trans (s.readAccess_faults k o))
  | some x =>
    rw [regRead_of_stop f h]
    exact .stop (accessCheck_inTable h)

theorem State.FaultsInTable.regWrite (k : WindowKind) (o : Nat) (v : Word) {f : State → State}
    (hf : ∀ u, (f u).faults = u.faults) : s.FaultsInTable (s.regWrite k o v f) := by
  cases h : accessCheck s k o .write with
  | none =>
    rw [regWrite_of_writable f (accessCheck_write.1 h)]
    exact .of_same (hf _)
  | some x =>
    rw [regWrite_of_stop f h]
    exact .stop (accessCheck_inTable h)

theorem State.FaultsInTable.poll (test : Word → Phase) : s.FaultsInTable (s.poll test) := by
  unfold State.poll
  split
  · exact .regWrite _ _ _ fun u => rfl
  · exact .regRead _ _ fun v u => rfl

/-- An engine step faults only at its access. -/
theorem State.FaultsInTable.engineStep {i : Instr} {t : State} (hx : s.engineStep i = some t) : s.FaultsInTable t := by
  cases hp : s.eng.phase <;> simp only [State.engineStep, hp, Option.some.injEq, reduceCtorEq] at hx <;> subst hx
  case wWait | rWait | rCpoll | rDpoll | rFpoll => exact .poll _
  case rCfifo | rFfifo => exact .regRead _ _ fun v u => rfl
  case endOk | endTimeout | endErr => exact .of_same rfl
  all_goals exact .regWrite _ _ _ fun u => rfl

theorem State.FaultsInTable.perform (i : Instr) (a : Act) : s.FaultsInTable (s.perform i a) := by
  cases a with
  | read k o => exact .regRead k o fun v u => rfl
  | write k o v => exact .regWrite k o v fun u => rfl
  | delay us => exact .of_same rfl
  | finish r => exact .of_same rfl

theorem State.FaultsInTable.startOf (i : Instr) : s.FaultsInTable (s.startOf i) := by
  rcases s.startOf_cases i with ⟨r, -, ht⟩ | ⟨-, -, ht⟩ | ⟨-, -, -, ht⟩ | ⟨-, -, ht⟩ <;> rw [ht]
  · exact .stop (s := s.started i) trivial
  · exact .stop (s := s.started i) .conflict
  · exact .of_same rfl
  · exact .of_same rfl

theorem State.FaultsInTable.mapBody (i : Instr) (k : WindowKind) : s.FaultsInTable (s.mapBody i k) := by
  rcases s.mapBody_cases i k with ⟨-, ht⟩ | ⟨-, -, ht⟩ | ⟨-, -, ht⟩ <;> rw [ht] <;> exact .of_same (by simp)

/-- `unmap` names another client: one that uses the span, or the engine's owner, which a client in `unmap` is not. -/
theorem State.FaultsInTable.unmapBody (i : Instr) (k : WindowKind) (howned : s.eng.phase ≠ .idle → s.eng.owner ≠ none)
    (hother : s.eng.owner ≠ some s.cur) : s.FaultsInTable (s.unmapBody i k) := by
  unfold State.unmapBody
  split
  · exact .stop (.unmap k)
  split
  next d hd => exact .stop (.inUse k (otherUser_some hd).1)
  split
  next hbusy =>
    obtain ⟨d, hd⟩ := Option.ne_none_iff_exists'.1 (howned hbusy.2)
    rw [hd] at hother ⊢
    exact .stop (.inUse .bsc fun h => hother (congrArg some h))
  next => exact .of_same (by simp)

end FaultsInTable

theorem exec_faultsInTable {i : Instr} {s t : State} (hi : s.Inv) (hx : exec i s = .next t) : s.FaultsInTable t := by
  rcases exec_next hx with ⟨-, rfl⟩ | ⟨m, hm, -, hop, hgo⟩
  · exact .startOf i
  cases hgo with
  | script a _ _ _ ht => exact ht ▸ .perform i a
  | map k _ ht => exact ht ▸ .mapBody i k
  | unmap k hk ht =>
    have hother : s.eng.owner ≠ some s.cur := hi.clients.owner_ne hm (by simp [hop, hk, isBusOp])
    exact ht ▸ .unmapBody i k (fun hbusy hfree => hbusy (hi.engine.idle_iff.2 hfree)) hother
  | bus _ _ ht => exact .engineStep ht

/-! ### Errors -/

/-- A completion is the acting client's, of the operation it is in. -/
theorem exec_done {i j : Instr} {s t : State} {c : Nat} {r : Result} (hx : exec j s = .next t)
    (hh : t.hist = s.hist ++ [.done c i r]) : s.cur = c ∧ j = i := by
  cases exec_move hx with
  | start _ _ ht => simp [ht] at hh
  | startStop x _ ht => simp [ht] at hh
  | claim _ _ _ _ ht => simp [ht] at hh
  | stop x _ ht => simp [ht] at hh
  | read k o e _ _ _ ht => simp [ht] at hh
  | write k o w e _ _ _ ht => simp [ht] at hh
  | delay us _ ht => simp [ht] at hh
  | complete u r' _ _ hu ht =>
    simp only [ht, State.complete_hist, hu.hist, hu.cur, List.append_cancel_left_eq, List.cons.injEq,
      Event.done.injEq, and_true] at hh
    exact ⟨hh.1, hh.2.1⟩
  | release r' _ _ _ ht =>
    simp only [ht, State.finishBus_hist, List.append_cancel_left_eq, List.cons.injEq, Event.done.injEq, and_true] at hh
    exact ⟨hh.1, hh.2.1⟩

/-- A bus operation that completes held the engine. -/
theorem exec_done_holds {i : Instr} {s t : State} {c : Nat} {r : Result} (hb : isBusOp i = true)
    (hx : exec i s = .next t) (hh : t.hist = s.hist ++ [.done c i r]) : s.Holds i := by
  rcases exec_next hx with ⟨-, rfl⟩ | ⟨m, hm, hstop, hop, hgo⟩
  · simp [State.startOf_hist] at hh
  · exact ⟨(hgo.engineStep hb).1, m, hm, hstop, hop⟩

/-- The errors of R340 by the operation that returns them, from a state of the invariant. -/
theorem exec_done_err_row {i : Instr} {s t : State} {e : ErrCode} (hi : s.Inv) (hx : exec i s = .next t)
    (hh : t.hist = s.hist ++ [.done s.cur i (.err e)]) :
    (e = .mapError ∧ ∃ k, i = .map k) ∨
      (e = .payloadTooLarge ∧ ∃ dev reg buf, i = .busWrite dev reg buf ∧ 16 ≤ buf.length) ∨
      (e = .busTimeout ∧ isBusOp i = true) := by
  rcases exec_done_err hx hh with hmap | ⟨hb, hend⟩
  · exact .inl hmap
  rcases (busCompletionReleasesTheEngine i _ s hb (exec_done_holds hb hx hh) hend).2 hi with
    ⟨_, _, _, _, -, hr, -⟩ | ⟨_, _, _, _, _, -, hr, -⟩ | ⟨dev, reg, buf, hwrite, hlen, hr⟩ | hr
  · contradiction
  · contradiction
  · exact .inr (.inl ⟨Result.err.inj hr, dev, reg, buf, hwrite, hlen⟩)
  · exact .inr (.inr ⟨Result.err.inj hr, hb⟩)

/-! ### The machine's step -/

/-- `step_turnGiven`, with the invariant in the state where the operation makes its step. -/
theorem step_turnGiven_inv {s t : State} (hi : s.Inv) (h : step s = .next t) :
    ∃ u, s.TurnGiven u ∧ u.Inv ∧ ((∃ i, exec i u = .next t) ∨ (u.Between ∧ t = u.stop (.refuse .badSelector))) := by
  obtain ⟨c, rest, m, hp, hm, hcase⟩ := step_next h
  have hturn := hi.turnTo c rest
  have hstop : m.stopped = none := by
    have hmove := pick_canMove hp
    simp only [State.canMove, hm, ClientState.canStep, Option.any_some, Bool.and_eq_true, Option.isNone_iff_eq_none]
      at hmove
    exact hmove.1
  rcases hcase with ⟨i, -, hx⟩ | ⟨call, calls, hop, -, hcall⟩
  · exact ⟨s.turnTo c rest, ⟨rfl, rfl, rfl, rfl, rfl, rfl, ⟨m, hm, hstop⟩, fun _ _ => rfl⟩, hturn, .inl ⟨i, hx⟩⟩
  · refine ⟨(s.turnTo c rest).updMe fun m => { m with prog := calls },
      ⟨rfl, rfl, rfl, rfl, rfl, rfl, ⟨m, hm, hstop⟩, fun d hd => getElem?_modify_other _ hd⟩,
      hturn.takeCall ⟨m, hm, hstop, hop⟩ calls, ?_⟩
    rcases hcall with ⟨i, -, hx⟩ | ⟨-, ht⟩
    · exact .inl ⟨i, hx⟩
    · exact .inr ⟨⟨_, getElem?_modify_self _ hm, hstop, hop⟩, ht⟩

/-- Settles O59: the codes by definition; the turn appends no event and no fault, so a step's error and fault are those
of the operation's step. -/
theorem errorsAndFaultsCarryTheirCodes : Obligations.ErrorsAndFaultsCarryTheirCodes := by
  refine ⟨⟨rfl, rfl, rfl, rfl, rfl⟩, ⟨rfl, rfl, rfl, rfl⟩, fun s t hi h => ?_⟩
  obtain ⟨u, hu, hinv, ⟨j, hx⟩ | ⟨-, rfl⟩⟩ := step_turnGiven_inv hi h
  · refine ⟨fun c i e hh => ?_, fun f hf => ?_⟩
    · rw [← hu.hist] at hh
      obtain ⟨rfl, rfl⟩ := exec_done hx hh
      rcases exec_done_err_row hinv hx hh with ⟨rfl, hrow⟩ | ⟨rfl, hrow⟩ | ⟨rfl, hrow⟩
      · exact .inl ⟨rfl, hrow⟩
      · exact .inr (.inl ⟨rfl, hrow⟩)
      · exact .inr (.inr ⟨rfl, hrow⟩)
    · rw [← hu.faults] at hf
      obtain ⟨hc, hrow⟩ := exec_faultsInTable hinv hx f hf
      rw [← hc] at hrow
      refine ⟨hc.trans (exec_move hx).cur.symm, ?_⟩
      generalize f.code = code, f.info = info at hrow ⊢
      cases hrow with
      | offset k o => exact .inl ⟨rfl, k, o, rfl⟩
      | access k o => exact .inr (.inl ⟨rfl, .inl ⟨k, o, rfl⟩⟩)
      | unmap k => exact .inr (.inl ⟨rfl, .inr ⟨k, rfl⟩⟩)
      | conflict => exact .inr (.inr (.inl ⟨rfl, rfl⟩))
      | inUse k hd => exact .inr (.inr (.inr ⟨rfl, k, _, rfl, hd⟩))
  · refine ⟨fun c i e hh => ?_, fun f hf => ?_⟩
    · simp [hu.hist] at hh
    · simp [State.stop_faults, faultsOf, hu.faults] at hf

end Sys2Proof.Machine
end

section
/-! SUPPORT. What the reset state holds (10_state.md R90; 70_reset_and_hazards.md R390): the windows, the clients and the
device. -/

namespace Sys2Proof.Machine

theorem reset_window_unmapped (k : WindowKind) :
    (State.reset.window k).mapped = false ∧ (State.reset.window k).gen = 0 := by
  cases k <;> exact ⟨rfl, rfl⟩

theorem reset_client_no_op : ∀ m ∈ State.reset.clients, m.op = none ∧ m.step = 0 := by decide

theorem reset_stored (k : WindowKind) (o : Nat) : State.reset.stored k o = none := by
  cases k <;> rfl

/-- The pulls at driver load are those that a map of the GPIO window leaves. -/
theorem reset_pullOf (p : Nat) : State.reset.dev.pullOf p = .unknown :=
  DeviceState.reset.pullOf_forget_gpio p

/-- Settles O50: the places are those of `reset_places`; the windows by kind, the clients by the list, the stores and
pulls by the device's lemmas; the other fields are as written in `State.reset`. -/
theorem resetIsTheStateAtDriverLoad : Obligations.ResetIsTheStateAtDriverLoad :=
  ⟨reset_window_unmapped, reset_places.gpio_size, reset_places.bsc_size, reset_places.gpio_base, reset_places.bsc_base,
    rfl, rfl, rfl, reset_client_no_op, reset_stored, reset_pullOf, rfl, rfl, rfl, rfl⟩

end Sys2Proof.Machine
end
